-- ==== Sys2Proof/Word.lean ====
section
/-!
DEFINITION. The word type of the Boneless-III and the values its places hold: a bit pattern of a stated length, or
the mark UNDEFINED (00_scope.md R16, R19).
-/

namespace Sys2Proof

/-- A 16-bit value: one word of `mem`, one instruction, one address (00_scope.md R19, 20_memory.md R51). -/
abbrev Word := BitVec 16

/-- What a place of `n` bits holds, and what an operator yields: a bit pattern, or UNDEFINED (00_scope.md R16;
the mechanism is decision D10 of 92_eei_decisions.md). UNDEFINED is a value the spec itself gives places (the
flags at reset, `ext13` after most instructions), not a missing one: reading it is never a fault. -/
inductive Val (n : Nat) where
  /-- A fixed bit pattern, bit 0 least significant (00_scope.md R3). -/
  | known (v : BitVec n)
  /-- `UNDEF_n`: every read that decides something draws a bit pattern afresh. -/
  | undefined
deriving DecidableEq, Repr, Inhabited

/-- The value is UNDEFINED. -/
def Val.isUndefined {n : Nat} : Val n → Bool
  | .known _ => false
  | .undefined => true

end Sys2Proof
end

