-- ==== Sys2Proof/Operation.lean ====
section
/-!
DEFINITION. The notation in which the manual writes the operation of an instruction (00_scope.md R2 to R14, R19), as data. The
lost pages are a parameter of the model (R18: a map from instruction words to mnemonic, fields and OPERATION); an
operation is therefore something the model is given, and this file is the form it is given in.
-/

namespace Sys2Proof

/-- The four result flags (10_state.md R33). -/
inductive Flag where
  | z | s | c | v
deriving DecidableEq, Repr

/-- What an operation reads by name (10_state.md R20). `insn` is the instruction word itself, whose bits hold the operand
fields (30_encoding.md R71). `w` is an EXPLICIT read of the window address; the implicit use of `W` in addressing a
register is `Load.reg` (10_state.md R28, 90_conflicts.md C3). -/
inductive Source where
  | pc | w | flag (f : Flag) | ext13 | hasExt13 | insn
deriving DecidableEq, Repr

/-- Operators of one operand: `not op` (00_scope.md R10), `op[hi:lo]` (R3), `count` repetitions (R7) and
`sign_extend_16(op)` (R12). DESIGN CHOICE (log 28): the count and the two bounds are literal numbers. Whether they may be
values that the operation computes (a shift amount, say) the spec does not say. -/
inductive UnOp where
  | not | slice (hi lo : Nat) | rep (count : Nat) | signExtend16
deriving DecidableEq, Repr

/-- Operators of two operands: `+` (00_scope.md R9), `and`, `or`, `xor` (R10), concatenation (R6), `=` and `<>` (R11). -/
inductive BinOp where
  | add | and | or | xor | cat | eq | ne
deriving DecidableEq, Repr

/-- What a word can be read from or stored to by address: `mem[addr]` (00_scope.md R4), `ext[addr]` (R5), and the
general purpose register of a given number, `mem[W + n]` (10_state.md R27). -/
inductive Space where
  | mem | ext | reg
deriving DecidableEq, Repr

/-- The two tables that decode a 3-bit short immediate: `decode_imm_al` (00_scope.md R13) and `decode_imm_sr` (R14). -/
inductive ImmTable where
  | al | sr
deriving DecidableEq, Repr

/-- The short form an immediate operand takes when `has_ext13` is 0: through a table (30_encoding.md R74, R75), or
sign-extended (R76). With `has_ext13` 1 every kind is the extended immediate (R73). -/
inductive ImmKind where
  | table (t : ImmTable) | sext
deriving DecidableEq, Repr

/-- Expressions of the notation. Every expression has a length in bits (`Expr.len`). -/
inductive Expr where
  /-- A constant of `n` bits. -/
  | const (n : Nat) (v : BitVec n)
  /-- `UNDEF_n` (00_scope.md R19). -/
  | undef (n : Nat)
  /-- A register, a flag, or the instruction word. -/
  | read (r : Source)
  /-- Temporary `i` of the operation, read as `n` bits (such as `r[16:0]` in 40_alu_families.md R92). -/
  | temp (i n : Nat)
  /-- An operator of one operand. -/
  | un (o : UnOp) (a : Expr)
  /-- An operator of two operands. -/
  | bin (o : BinOp) (a b : Expr)
  /-- The word read from a space at an address, or from the register of a number. -/
  | load (sp : Space) (a : Expr)
  /-- `decode_imm_al(op)` or `decode_imm_sr(op)` of a 3-bit field. -/
  | decodeImm (t : ImmTable) (a : Expr)
  /-- The immediate operand built from a field, by the general rule of 30_encoding.md R72. -/
  | imm (k : ImmKind) (field : Expr)
deriving DecidableEq, Repr

/-- The targets of an assignment. `ext13` and `has_ext13` are not among them: `EXTI` and the step rule alone write
them (10_state.md R44). DESIGN CHOICE (log 29): a target is a whole place. Whether `op[b:a]` or `{a, b}` may be a target the
spec does not say. -/
inductive Place where
  | pc | w | flag (f : Flag)
  /-- Temporary `i`, of `n` bits. -/
  | temp (i n : Nat)
  /-- A word of a space, or the register of a number. -/
  | store (sp : Space) (a : Expr)
deriving DecidableEq, Repr

/-- An operation: assignments in sequence (00_scope.md R2), and a choice on a condition (`if` in 30_encoding.md R73;
the conditional jump of 42_control_transfer.md R116). -/
inductive Operation where
  | skip
  /-- `place ← e`. -/
  | assign (p : Place) (e : Expr)
  | seq (a b : Operation)
  /-- Perform `t` if the condition is satisfied, `f` if it is not. -/
  | ite (c : Expr) (t f : Operation)
  /-- Set `Z`, `S`, `C`, `V` from the arithmetic result `a + b + c` (40_alu_families.md R93). -/
  | arithmeticFlags (a b c : Expr)
  /-- Set `Z`, `S`, `C`, `V` from the logical result `r` (40_alu_families.md R94). -/
  | logicalFlags (r : Expr)
deriving DecidableEq, Repr

end Sys2Proof
end

