-- ==== Sys2Proof/Config.lean ====
section
/-!
DEFINITION. What an implementation, a platform or the environment fixes: the parameters of 00_scope.md R18, and the free
values that nothing in Lean can evaluate.
-/

namespace Sys2Proof

/-- The families of 30_encoding.md R80. The four window instructions are named; of every other family the names of the
members are lost. `other` is what the surviving text does not place in a family: loads, stores, external bus access,
unconditional transfers, system instructions (44_memory_bus_and_system.md R130 to R132). -/
inductive Family where
  | adjw | ldw | stw | xchw
  | arithmetic | logical | shiftRotate | conditionalJump | other
deriving DecidableEq, Repr

/-- One page of `INSN_PAGES`: the words `w` with `w and mask = value` are encodings of `mnemonic`, and `op` is its
operation, in which the fields are slices of the instruction word. DESIGN CHOICE (log 30): that a page is one of the four window
instructions (41_window.md R105), or of another family, its `family` says; the mnemonic is a label that decides nothing. -/
structure Page where
  mnemonic : String
  family : Family
  mask : Word
  value : Word
  op : Operation
deriving DecidableEq, Repr

/-- The page of `EXTI`, as far as 30_encoding.md R77 leaves it open: the places in the word of the 13 bits of `imm13`
(bit 0 first), and the word that holds the 3 identifying bits where they stand and 0 elsewhere. -/
structure ExtiLayout where
  immBits : List Nat
  opcode : Word
deriving DecidableEq, Repr

/-- `INSN_PAGES`: the page of `EXTI`, if it is supplied, and the pages of other instructions (00_scope.md R18). -/
structure InsnPages where
  exti : Option ExtiLayout
  pages : List Page
deriving DecidableEq, Repr, Inhabited

/-- The parameters of 00_scope.md R18 that a step consults. They do not change during a run. -/
structure Params where
  /-- `INSN_PAGES`. -/
  pages : InsnPages
  /-- `IMM_AL_3`: the entry of `decode_imm_al` that the source leaves `TBD`, or absent (R13, R17). -/
  immAl3 : Option Word
  /-- The addresses where `MEM_POPULATED` is false (20_memory.md R61). -/
  unpopulated : List Word
deriving DecidableEq, Repr

/-- The byte order of a memory image given as bytes, `IMAGE_BYTE_ORDER` (00_scope.md R18, 20_memory.md R55). -/
inductive ByteOrder where
  | little | big
deriving DecidableEq, Repr

namespace Config

/-- `INSN_PAGES` of the hardware at hand (00_scope.md R18: OPEN). The pages are lost, so nothing is known of it
(log 1). -/
opaque insnPages : InsnPages

/-- The bit pattern that draw number `k` of an UNDEFINED value of `n` bits yields (00_scope.md R16, D10). A free value:
nothing constrains it (log 3). -/
opaque undefinedBits : Nat → (n : Nat) → BitVec n

/-- The word the environment answers, `EXT_ORACLE`, to a read of the external bus: a free value that may
depend on everything that has happened on the bus, given as (is a write, address, word), oldest first, and on the
address (20_memory.md R69, D14; log 8). -/
opaque extOracle : List (Bool × Word × Word) → Word → Word

/-- `RESET_PC`, at its documented default (10_state.md R25). -/
def resetPc : Word := 0x0000

/-- `RESET_W`, at its documented default (10_state.md R31). -/
def resetW : Word := 0xFFF8

/-- The parameters of the documented machine: the unknown pages; `IMM_AL_3` absent and every address populated, as
00_scope.md R18 gives their defaults. -/
def params : Params := { pages := insnPages, immAl3 := none, unpopulated := [] }

end Config

end Sys2Proof
end

