-- ==== Sys2Proof/Machine/Widths.lean ====
section
/-!
DEFINITION. The length in bits of every expression of the notation (00_scope.md R2 to R14).
-/

namespace Sys2Proof

/-- The width of what is read by name (10_state.md R20; the instruction word by 30_encoding.md R70). -/
def Source.len : Source → Nat
  | .pc => 16
  | .w => 16
  | .flag _ => 1
  | .ext13 => 13
  | .hasExt13 => 1
  | .insn => 16

/-- The length of `o` applied to `n` bits: `not` keeps it (00_scope.md R10, D27), a slice has `hi - lo + 1` bits (R3), a
repetition multiplies it (R7), `sign_extend_16` gives 16 (R12). -/
def UnOp.len : UnOp → Nat → Nat
  | .not, n => n
  | .slice hi lo, _ => hi - lo + 1
  | .rep count, n => n * count
  | .signExtend16, _ => 16

/-- The length of `o` applied to `m` and `n` bits: the shorter operand is zero-extended (00_scope.md R8), `+` has one
more bit, the carry (R9), a concatenation has the sum (R6), a comparison has one bit (R11). -/
def BinOp.len : BinOp → Nat → Nat → Nat
  | .add, m, n => max m n + 1
  | .and, m, n => max m n
  | .or, m, n => max m n
  | .xor, m, n => max m n
  | .cat, m, n => m + n
  | .eq, _, _ => 1
  | .ne, _, _ => 1

/-- The length of an expression. A word of a space and a register have 16 bits (20_memory.md R51, R52), an immediate
operand has 16 (30_encoding.md R72), and so has a decoded table entry (00_scope.md R13; for `decode_imm_sr` log 14). -/
def Expr.len : Expr → Nat
  | .const n _ => n
  | .undef n => n
  | .read r => r.len
  | .temp _ n => n
  | .un o a => o.len a.len
  | .bin o a b => o.len a.len b.len
  | .load _ _ => 16
  | .decodeImm _ _ => 16
  | .imm _ _ => 16

end Sys2Proof
end

