-- ==== Sys2Proof/Machine/Operators.lean ====
section
/-!
DEFINITION. The operators and functions of the notation on values (00_scope.md R2 to R14). An operator or function with an
UNDEFINED input gives an UNDEFINED result, whatever its other inputs are (R16 (b)).
-/

namespace Sys2Proof

/-- A function of one operand on values: UNDEFINED in, UNDEFINED out (00_scope.md R16 (b)). -/
def Val.map {m n : Nat} (f : BitVec m → BitVec n) : Val m → Val n
  | .known v => .known (f v)
  | .undefined => .undefined

/-- A function of two operands on values (00_scope.md R16 (b)). -/
def Val.map₂ {l m n : Nat} (f : BitVec l → BitVec m → BitVec n) : Val l → Val m → Val n
  | .known a, .known b => .known (f a b)
  | .known _, .undefined => .undefined
  | .undefined, _ => .undefined

/-- Bring a value to `n` bits, as `←` does: zero-extended when shorter, cut to its low-order bits when longer
(00_scope.md R2). -/
def Val.resize {m : Nat} (n : Nat) (v : Val m) : Val n :=
  v.map (BitVec.setWidth n)

/-- `opA + opB`: one bit longer than the longer operand, and that bit is the carry (00_scope.md R9). -/
def addWithCarryBit {m n : Nat} (a : BitVec m) (b : BitVec n) : BitVec (max m n + 1) :=
  a.setWidth (max m n + 1) + b.setWidth (max m n + 1)

/-- `sign_extend_16(op)`: replicate the high bit until there are 16 bits (00_scope.md R12). -/
def signExtend16 {n : Nat} (v : BitVec n) : Word :=
  v.signExtend 16

/-- An operator of one operand on bit patterns. -/
def UnOp.bits : (o : UnOp) → {n : Nat} → BitVec n → BitVec (o.len n)
  | .not, _, v => ~~~v
  | .slice hi lo, _, v => v.extractLsb hi lo
  | .rep count, _, v => v.replicate count
  | .signExtend16, _, v => Sys2Proof.signExtend16 v

/-- An operator of two operands on bit patterns. The shorter operand is zero-extended to the length of the other
(00_scope.md R8, R11); the first operand of a concatenation makes the high-order bits (R6). -/
def BinOp.bits : (o : BinOp) → {m n : Nat} → BitVec m → BitVec n → BitVec (o.len m n)
  | .add, _, _, a, b => addWithCarryBit a b
  | .and, m, n, a, b => a.setWidth (max m n) &&& b.setWidth (max m n)
  | .or, m, n, a, b => a.setWidth (max m n) ||| b.setWidth (max m n)
  | .xor, m, n, a, b => a.setWidth (max m n) ^^^ b.setWidth (max m n)
  | .cat, _, _, a, b => a ++ b
  | .eq, m, n, a, b => BitVec.ofBool (decide (a.setWidth (max m n) = b.setWidth (max m n)))
  | .ne, m, n, a, b => BitVec.ofBool (decide (a.setWidth (max m n) ≠ b.setWidth (max m n)))

/-- An operator of one operand on values. -/
def UnOp.apply (o : UnOp) {n : Nat} (v : Val n) : Val (o.len n) :=
  v.map o.bits

/-- An operator of two operands on values. -/
def BinOp.apply (o : BinOp) {m n : Nat} (a : Val m) (b : Val n) : Val (o.len m n) :=
  Val.map₂ o.bits a b

/-- `decode_imm_al(op)` (00_scope.md R13). Entry 3 is `TBD` in the source; it is the parameter `IMM_AL_3`, which may be
absent (R17). -/
def decodeImmAl (immAl3 : Option Word) (op : BitVec 3) : Option Word :=
  match op.toNat with
  | 0 => some 0x0000
  | 1 => some 0x0001
  | 2 => some 0x8000
  | 3 => immAl3
  | 4 => some 0x00FF
  | 5 => some 0xFF00
  | 6 => some 0x7FFF
  | _ => some 0xFFFF

/-- `decode_imm_sr(op)`: a count from 1 to 8 (00_scope.md R14), as the 16-bit immediate it makes (30_encoding.md R72, R75;
log 14). -/
def decodeImmSr (op : BitVec 3) : Word :=
  if op = 0#3 then 8#16 else op.setWidth 16

end Sys2Proof
end

