-- ==== Sys2Proof/Machine/Choice.lean ====
section
/-!
DEFINITION. The choices (`if`) of an operation: those on `has_ext13`, which are settled before the operation begins, and those
that only compute a value, which are operations of the notation like any other (log 13).
-/

namespace Sys2Proof

/-! ### Choices on `has_ext13` -/

/-- The value of an expression of constants and `has_ext13`, with `has_ext13` at `h`. -/
def Expr.valueUnder (h : BitVec 1) : (e : Expr) → Option (BitVec e.len)
  | .const _ v => some v
  | .undef _ => none
  | .read .hasExt13 => some h
  | .read _ => none
  | .temp _ _ => none
  | .un o a => (a.valueUnder h).map o.bits
  | .bin o a b =>
    match a.valueUnder h, b.valueUnder h with
    | some x, some y => some (o.bits x y)
    | _, _ => none
  | .load _ _ => none
  | .decodeImm _ _ => none
  | .imm _ _ => none

/-- What is left of an operation when `has_ext13` is `h`: `has_ext13` is never UNDEFINED and keeps its value during an
instruction (10_state.md R42), so a choice on it is settled from the first ("the exact behavior of an instruction with regards
to has_ext13 and ext13 is specified in the instruction's operation", R41). -/
def Operation.under (h : BitVec 1) : Operation → Operation
  | .skip => .skip
  | .assign p e => .assign p e
  | .seq a b => .seq (a.under h) (b.under h)
  | .ite c t f =>
    match c.valueUnder h with
    | some v => if v.setWidth 1 = 1#1 then t.under h else f.under h
    | none => .ite c (t.under h) (f.under h)
  | .arithmeticFlags a b c => .arithmeticFlags a b c
  | .logicalFlags r => .logicalFlags r

/-- Whether `q` holds of the operation with `has_ext13` 0 and with `has_ext13` 1. -/
def Operation.underBoth (q : Operation → Bool) (op : Operation) : Bool :=
  q (op.under 0#1) && q (op.under 1#1)

/-! ### Choices that compute a value

With an UNDEFINED input such a choice produces an UNDEFINED result (00_scope.md R16 (b), 40_alu_families.md R97). -/

/-- Evaluating the expression reads no memory and no bus, and cannot stop. -/
def Expr.isPure : Expr → Bool
  | .const _ _ => true
  | .undef _ => true
  | .read _ => true
  | .temp _ _ => true
  | .un _ a => a.isPure
  | .bin _ a b => a.isPure && b.isPure
  | .load _ _ => false
  | .decodeImm .al _ => false
  | .decodeImm .sr a => a.isPure
  | .imm (.table .al) _ => false
  | .imm (.table .sr) a => a.isPure
  | .imm .sext a => a.isPure

/-- The operation assigns temporaries and nothing else. -/
def Operation.temporariesOnly : Operation → Bool
  | .skip => true
  | .assign (.temp _ _) _ => true
  | .assign _ _ => false
  | .seq a b => a.temporariesOnly && b.temporariesOnly
  | .ite _ t f => t.temporariesOnly && f.temporariesOnly
  | .arithmeticFlags _ _ _ => false
  | .logicalFlags _ => false

/-- The operation only computes: it assigns temporaries, from pure expressions. -/
def Operation.isPure : Operation → Bool
  | .skip => true
  | .assign (.temp _ _) e => e.isPure
  | .assign _ _ => false
  | .seq a b => a.isPure && b.isPure
  | .ite c t f => c.isPure && t.isPure && f.isPure
  | .arithmeticFlags _ _ _ => false
  | .logicalFlags _ => false

/-- The temporaries that the operation may assign, each with its length. -/
def Operation.temporaries : Operation → List (Nat × Nat)
  | .skip => []
  | .assign (.temp i n) _ => [(i, n)]
  | .assign _ _ => []
  | .seq a b => a.temporaries ++ b.temporaries
  | .ite _ t f => t.temporaries ++ f.temporaries
  | .arithmeticFlags _ _ _ => []
  | .logicalFlags _ => []

end Sys2Proof
end

