-- ==== Sys2Proof/Machine/Parts.lean ====
section
/-!
DEFINITION. Looking into an operation: the expressions and the parts inside it, and the bits of the instruction word that an
operand consists of.
-/

namespace Sys2Proof

/-- Whether `p` holds of `e` or of an expression inside it. -/
def Expr.any (p : Expr → Bool) : Expr → Bool
  | .const n v => p (.const n v)
  | .undef n => p (.undef n)
  | .read r => p (.read r)
  | .temp i n => p (.temp i n)
  | .un o a => p (.un o a) || a.any p
  | .bin o a b => p (.bin o a b) || a.any p || b.any p
  | .load sp a => p (.load sp a) || a.any p
  | .decodeImm t a => p (.decodeImm t a) || a.any p
  | .imm k a => p (.imm k a) || a.any p

/-- Whether `p` holds of an expression inside the place. -/
def Place.any (p : Expr → Bool) : Place → Bool
  | .store _ a => a.any p
  | .pc => false
  | .w => false
  | .flag _ => false
  | .temp _ _ => false

/-- Whether `q` holds of `op` or of an operation inside it. -/
def Operation.any (q : Operation → Bool) : Operation → Bool
  | .skip => q .skip
  | .assign p e => q (.assign p e)
  | .seq a b => q (.seq a b) || a.any q || b.any q
  | .ite c t f => q (.ite c t f) || t.any q || f.any q
  | .arithmeticFlags a b c => q (.arithmeticFlags a b c)
  | .logicalFlags r => q (.logicalFlags r)

/-- Whether `p` holds of an expression that stands directly in this operation, or inside such an expression. -/
def Operation.ownExpr (p : Expr → Bool) : Operation → Bool
  | .skip => false
  | .assign pl e => pl.any p || e.any p
  | .seq _ _ => false
  | .ite c _ _ => c.any p
  | .arithmeticFlags a b c => a.any p || b.any p || c.any p
  | .logicalFlags r => r.any p

/-- Whether `p` holds of an expression anywhere in the operation. -/
def Operation.anyExpr (p : Expr → Bool) (op : Operation) : Bool :=
  op.any (Operation.ownExpr p)

/-- The operation has an assignment to `PC`. -/
def Operation.assignsPc (op : Operation) : Bool :=
  op.any (fun o => match o with
    | .assign .pc _ => true
    | _ => false)

/-- The places in the instruction word of the bits of `e`, the least significant first, if `e` consists of bits of the
instruction word and nothing else. -/
def Expr.insnBits : Expr → Option (List Nat)
  | .read .insn => some (List.range 16)
  | .un (.slice hi lo) a => a.insnBits.map (fun l => (l.drop lo).take (hi + 1 - lo))
  | .bin .cat a b =>
    match a.insnBits, b.insnBits with
    | some hi, some lo => some (lo ++ hi)
    | _, _ => none
  | _ => none

end Sys2Proof
end

