-- ==== Sys2Proof/Machine/FlagFlow.lean ====
section
/-!
DEFINITION. Where the flags go in an operation, and whether they reach `PC` (42_control_transfer.md R116, R119). An UNDEFINED
flag whose bits decide where the machine goes is drawn (decision D10); one that is only copied stays UNDEFINED
(00_scope.md R16 (b)); log 31.
-/

namespace Sys2Proof

/-- Where the flags have gone in the part of an operation that has been gone through. -/
structure FlagFlow where
  /-- The temporaries whose value depends on a flag. -/
  temps : List Nat
  /-- `W` depends on a flag. -/
  w : Bool
  /-- The stores to `mem` and to registers that depend on a flag. -/
  words : List (Space × Expr)
  /-- `PC` has been assigned a value that depends on a flag. -/
  target : Bool
  /-- On how many choices on flags, one after the other or one in the other, it has depended whether `PC` is assigned. -/
  decisions : Nat
  /-- `PC` has been assigned outside every choice on flags. -/
  free : Bool
  /-- Both branches of a choice on flags assign `PC`. -/
  forks : Bool
deriving DecidableEq, Repr

/-- Nothing has been gone through. -/
def FlagFlow.none : FlagFlow :=
  { temps := [], w := false, words := [], target := false, decisions := 0, free := false, forks := false }

/-- After the one or the other. -/
def FlagFlow.join (a b : FlagFlow) : FlagFlow :=
  { temps := a.temps ++ b.temps
    w := a.w || b.w
    words := a.words ++ b.words
    target := a.target || b.target
    decisions := max a.decisions b.decisions
    free := a.free || b.free
    forks := a.forks || b.forks }

/-- Two register numbers may be the same, in whatever instruction word. -/
def someRegister (_ _ : Expr) : Bool := true

/-- Two register numbers may be the same in the given instruction word: they are, where both are fields of the word. -/
def sameRegister (insn : Word) (a b : Expr) : Bool :=
  match a.insnBits, b.insnBits with
  | some f, some g => decide (f.map insn.getLsbD = g.map insn.getLsbD)
  | _, _ => true

/-- Whether two addresses may be those of one word of `mem`; `same` says which register numbers may be the same. -/
def mayBeOneWord (same : Expr → Expr → Bool) (sp : Space) (a : Expr) (w : Space × Expr) : Bool :=
  match sp, w.1 with
  | .reg, .reg => same a w.2
  | .reg, .mem => true
  | .mem, .reg => true
  | .mem, .mem => true
  | .ext, _ => false
  | _, .ext => false

/-- The value of the expression depends on a flag. -/
def FlagFlow.reaches (same : Expr → Expr → Bool) (F : FlagFlow) : Expr → Bool
  | .const _ _ => false
  | .undef _ => false
  | .read (.flag _) => true
  | .read .w => F.w
  | .read _ => false
  | .temp i _ => F.temps.contains i
  | .un _ a => F.reaches same a
  | .bin _ a b => F.reaches same a || F.reaches same b
  | .load .reg a => F.reaches same a || F.w || F.words.any (mayBeOneWord same .reg a)
  | .load .mem a => F.reaches same a || F.words.any (mayBeOneWord same .mem a)
  | .load .ext a => F.reaches same a
  | .decodeImm _ a => F.reaches same a
  | .imm _ a => F.reaches same a

/-- Go through an assignment; `chosen` says that a choice on flags has led to it. Under another `W` any register may be a word
that was a register before. -/
def FlagFlow.assign (same : Expr → Expr → Bool) (chosen : Bool) (F : FlagFlow) (p : Place) (e : Expr) : FlagFlow :=
  match p with
  | .pc => { F with target := F.target || F.reaches same e, free := F.free || !chosen }
  | .w => { F with w := chosen || F.reaches same e, words := F.words.map (fun w => (.mem, w.2)) }
  | .flag _ => F
  | .temp i _ =>
    if chosen || F.reaches same e then { F with temps := i :: F.temps }
    else { F with temps := F.temps.filter (fun j => j != i) }
  | .store .ext _ => F
  | .store .mem a =>
    if chosen || F.reaches same e || F.reaches same a then { F with words := (.mem, a) :: F.words } else F
  | .store .reg a =>
    if chosen || F.reaches same e || F.reaches same a || F.w then { F with words := (.reg, a) :: F.words } else F

/-- Go through an operation. -/
def FlagFlow.through (same : Expr → Expr → Bool) : Operation → Bool → FlagFlow → FlagFlow
  | .skip, _, F => F
  | .assign p e, chosen, F => F.assign same chosen p e
  | .seq a b, chosen, F => FlagFlow.through same b chosen (FlagFlow.through same a chosen F)
  | .ite c t f, chosen, F =>
    let onFlags := F.reaches same c
    let G := (FlagFlow.through same t (chosen || onFlags) F).join (FlagFlow.through same f (chosen || onFlags) F)
    { G with
      decisions := if onFlags && (t.assignsPc || f.assignsPc) then G.decisions + 1 else G.decisions
      forks := G.forks || (onFlags && t.assignsPc && f.assignsPc) }
  | .arithmeticFlags _ _ _, _, F => F
  | .logicalFlags _, _, F => F

/-- The flags decide where the machine goes in more than the one way of a choice: through the value that `PC` is assigned, or by
several choices. Such an operation has every UNDEFINED flag drawn before it begins, so that the machine goes where it would
for some flags that are defined (42_control_transfer.md R119, D10; log 31). -/
def Operation.flagsReachPc (insn : Word) (op : Operation) : Bool :=
  (FlagFlow.through (sameRegister insn) op false .none).target ||
    decide (2 ≤ (FlagFlow.through (sameRegister insn) op false .none).decisions)

/-- No two parts in sequence assign `PC`. -/
def Operation.oneTransfer : Operation → Bool
  | .skip => true
  | .assign _ _ => true
  | .seq a b => !(a.assignsPc && b.assignsPc) && a.oneTransfer && b.oneTransfer
  | .ite _ t f => t.oneTransfer && f.oneTransfer
  | .arithmeticFlags _ _ _ => true
  | .logicalFlags _ => true

/-- "Transfers control if the flags are in the desired state" (42_control_transfer.md R116): `PC` is assigned, at one place, in
one branch of a choice on flags, while the other falls through, and its target is the same whatever the flags are. So there
are two successors, and no third one for a flag that is UNDEFINED (R119). -/
def Operation.jumpsOnFlags (op : Operation) : Bool :=
  op.oneTransfer && !(FlagFlow.through someRegister op false .none).target &&
    !(FlagFlow.through someRegister op false .none).free &&
    !(FlagFlow.through someRegister op false .none).forks

end Sys2Proof
end

