-- ==== Sys2Proof/Machine/FamilyRules.lean ====
section
/-!
DEFINITION. What the surviving text demands of an operation on the lost pages: lengths that fit (00_scope.md R2 to R14), and
the family rules that "bind any INSN_PAGES a model is given" (40_alu_families.md, 41_window.md, 42_control_transfer.md,
44_memory_bus_and_system.md). "A page that contradicts them contradicts §2 of the manual" (40_alu_families.md). They are
checked where the pages are supplied (R98, decision D8; log 10).
-/

namespace Sys2Proof

/-- The lengths that one node of an expression demands of its operands: a slice lies inside its operand and its higher
index is written first (00_scope.md R3, R19); `sign_extend_16` takes at most 16 bits and has a high bit to replicate (R12);
a register number has at most 3 bits (30_encoding.md R71 (d)); a table entry is chosen by 3 bits (00_scope.md R13, R14); an
immediate field has the 3 low bits of R73, and for `sign_extend_16` at most 16 (30_encoding.md R76). A repetition may have
any count, 0 among them (00_scope.md R7; R12 needs 0 at a length of 16). -/
def Expr.fits : Expr → Bool
  | .const _ _ => true
  | .undef _ => true
  | .read _ => true
  | .temp _ _ => true
  | .un .not _ => true
  | .un (.slice hi lo) a => decide (lo ≤ hi) && decide (hi < a.len)
  | .un (.rep _) _ => true
  | .un .signExtend16 a => decide (0 < a.len) && decide (a.len ≤ 16)
  | .bin _ _ _ => true
  | .load .mem _ => true
  | .load .ext _ => true
  | .load .reg a => decide (a.len ≤ 3)
  | .decodeImm _ a => decide (a.len = 3)
  | .imm (.table _) a => decide (a.len = 3)
  | .imm .sext a => decide (3 ≤ a.len) && decide (a.len ≤ 16)

/-- The lengths that an operation itself demands: the target register of a store is named by at most 3 bits, a condition
is one bit (00_scope.md R11), an arithmetic result is of two words and a carry bit (R9), a logical result is a word
(40_alu_families.md R94). -/
def Operation.fits : Operation → Bool
  | .skip => true
  | .assign (.store .reg a) _ => decide (a.len ≤ 3)
  | .assign _ _ => true
  | .seq _ _ => true
  | .ite c _ _ => decide (c.len = 1)
  | .arithmeticFlags a b c => decide (a.len = 16) && decide (b.len = 16) && decide (c.len = 1)
  | .logicalFlags r => decide (r.len = 16)

/-- Every length in the operation fits. -/
def Operation.lengthsFit (op : Operation) : Bool :=
  !op.any (fun o => !o.fits) && !op.anyExpr (fun e => !e.fits)

/-- The operation has an assignment to `W`. -/
def Operation.assignsW (op : Operation) : Bool :=
  op.any (fun o => match o with
    | .assign .w _ => true
    | _ => false)

/-- The operation has an assignment to flag `f`, alone or with the other flags. -/
def Operation.assignsFlag (f : Flag) (op : Operation) : Bool :=
  op.any (fun o => match o with
    | .assign (.flag g) _ => decide (g = f)
    | .arithmeticFlags _ _ _ => true
    | .logicalFlags _ => true
    | _ => false)

/-- The operation stores to a word of `mem`, by its address or as a register. -/
def Operation.storesToMemory (op : Operation) : Bool :=
  op.any (fun o => match o with
    | .assign (.store .mem _) _ => true
    | .assign (.store .reg _) _ => true
    | _ => false)

/-- The operation reads or writes the external bus. -/
def Operation.usesBus (op : Operation) : Bool :=
  op.anyExpr (fun e => match e with
    | .load .ext _ => true
    | _ => false) ||
  op.any (fun o => match o with
    | .assign (.store .ext _) _ => true
    | _ => false)

/-- The operation names a general purpose register. -/
def Operation.usesRegisters (op : Operation) : Bool :=
  op.anyExpr (fun e => match e with
    | .load .reg _ => true
    | _ => false) ||
  op.any (fun o => match o with
    | .assign (.store .reg _) _ => true
    | _ => false)

/-- The operation sets `W` or reads it explicitly (10_state.md R28). -/
def Operation.namesW (op : Operation) : Bool :=
  op.anyExpr (fun e => decide (e = .read .w)) || op.assignsW

/-- The expression reads a flag. -/
def Expr.readsFlags (e : Expr) : Bool :=
  e.any (fun e => match e with
    | .read (.flag _) => true
    | _ => false)

/-- The operation reads a flag. -/
def Operation.readsFlags (op : Operation) : Bool :=
  op.anyExpr (fun e => match e with
    | .read (.flag _) => true
    | _ => false)

/-- The operation decodes an immediate through table `t`. -/
def Operation.usesTable (t : ImmTable) (op : Operation) : Bool :=
  op.anyExpr (fun e => match e with
    | .decodeImm u _ => decide (u = t)
    | .imm (.table u) _ => decide (u = t)
    | _ => false)

/-! ### Operand fields -/

/-- For every general purpose register that the expression reads, the places of its number in the instruction word;
`none` for a number that is no field of the word. -/
def Expr.registerFields : Expr → List (Option (List Nat))
  | .const _ _ => []
  | .undef _ => []
  | .read _ => []
  | .temp _ _ => []
  | .un _ a => a.registerFields
  | .bin _ a b => a.registerFields ++ b.registerFields
  | .load .reg a => [a.insnBits]
  | .load .mem a => a.registerFields
  | .load .ext a => a.registerFields
  | .decodeImm _ a => a.registerFields
  | .imm _ a => a.registerFields

/-- The same for a place. -/
def Place.registerFields : Place → List (Option (List Nat))
  | .pc => []
  | .w => []
  | .flag _ => []
  | .temp _ _ => []
  | .store .reg a => [a.insnBits]
  | .store .mem a => a.registerFields
  | .store .ext a => a.registerFields

/-- The same for an operation. -/
def Operation.registerFields : Operation → List (Option (List Nat))
  | .skip => []
  | .assign p e => p.registerFields ++ e.registerFields
  | .seq a b => a.registerFields ++ b.registerFields
  | .ite c t f => c.registerFields ++ t.registerFields ++ f.registerFields
  | .arithmeticFlags a b c => a.registerFields ++ b.registerFields ++ c.registerFields
  | .logicalFlags r => r.registerFields

/-- Two operand fields have no bit in common. -/
def fieldsDisjoint (f g : Option (List Nat)) : Bool :=
  (f.getD []).all (fun p => !(g.getD []).contains p)

/-- Two operand fields are one field, or have no bit in common. -/
def fieldsApart (f g : Option (List Nat)) : Bool :=
  decide (f = g) || fieldsDisjoint f g

/-- An operand field of three bits: three different bits of the instruction word. -/
def isField3 (f : Option (List Nat)) : Bool :=
  match f with
  | some l => decide (l.length = 3) && decide l.Nodup && l.all (fun p => decide (p < 16))
  | none => false

/-- The places of the bits of the instruction word that the expression uses for anything but a register number. -/
def Expr.dataBits : Expr → List Nat
  | .const _ _ => []
  | .undef _ => []
  | .read .insn => List.range 16
  | .read _ => []
  | .temp _ _ => []
  | .un o a => (Expr.un o a).insnBits.getD a.dataBits
  | .bin _ a b => a.dataBits ++ b.dataBits
  | .load .reg _ => []
  | .load .mem a => a.dataBits
  | .load .ext a => a.dataBits
  | .decodeImm _ a => a.dataBits
  | .imm _ a => a.dataBits

/-- The same for a place. -/
def Place.dataBits : Place → List Nat
  | .pc => []
  | .w => []
  | .flag _ => []
  | .temp _ _ => []
  | .store .reg _ => []
  | .store .mem a => a.dataBits
  | .store .ext a => a.dataBits

/-- The same for an operation. -/
def Operation.dataBits : Operation → List Nat
  | .skip => []
  | .assign p e => p.dataBits ++ e.dataBits
  | .seq a b => a.dataBits ++ b.dataBits
  | .ite c t f => c.dataBits ++ t.dataBits ++ f.dataBits
  | .arithmeticFlags a b c => a.dataBits ++ b.dataBits ++ c.dataBits
  | .logicalFlags r => r.dataBits

/-- Every register can be the source or the destination of any instruction that uses one, and the same one can be both
(10_state.md R26, 40_alu_families.md R91): every register number is a field of three bits of the instruction word, two such
fields are one field or have no bit in common, and their bits are used for nothing else, so that no register is treated in a
way of its own. -/
def Operation.registersInterchangeable (op : Operation) : Bool :=
  op.registerFields.all isField3 && op.registerFields.all (fun f => op.registerFields.all (fieldsApart f)) &&
    op.registerFields.all (fieldsDisjoint (some op.dataBits))

/-- No bit of a register number is fixed by the page's encoding (10_state.md R26). -/
def Operation.registersFree (mask : Word) (op : Operation) : Bool :=
  op.registerFields.all (fun f => (f.getD []).all (fun p => !mask.getLsbD p))

/-! ### The arithmetic, logical, shift and rotate families -/

/-- A condition of bits of the instruction word and `has_ext13`: it is never UNDEFINED. -/
def Expr.settled : Expr → Bool
  | .const _ _ => true
  | .undef _ => false
  | .read .insn => true
  | .read .hasExt13 => true
  | .read _ => false
  | .temp _ _ => false
  | .un _ a => a.settled
  | .bin _ a b => a.settled && b.settled
  | .load _ _ => false
  | .decodeImm _ _ => false
  | .imm _ _ => false

/-- Made of bits of `ext13` and of the instruction word. -/
def Expr.madeOfExt13 : Expr → Bool
  | .const _ _ => true
  | .undef _ => false
  | .read .insn => true
  | .read .ext13 => true
  | .read _ => false
  | .temp _ _ => false
  | .un _ a => a.madeOfExt13
  | .bin _ a b => a.madeOfExt13 && b.madeOfExt13
  | .load _ _ => false
  | .decodeImm _ _ => false
  | .imm _ _ => false

/-- An immediate built from `ext13` and bits of the instruction word, in the general way of 30_encoding.md R73 or in a way of
the instruction's own ("the exact behavior of an instruction with regards to has_ext13 and ext13 is specified in the
instruction's operation", 10_state.md R41, 30_encoding.md R72, 93_implementation_defined.md U11). -/
def Expr.isExtendedImm (e : Expr) : Bool :=
  e.madeOfExt13 && e.any (fun x => decide (x = .read .ext13))

/-- What the operands of an ALU instruction can be (40_alu_families.md R91, R95): registers, immediates built from `ext13`, and
short immediates that come through a table from a field of three bits (30_encoding.md R74, R75); beside them constants,
flags, `PC` and temporaries. A bit of the instruction word is used in no other way, nothing is read from an address, and
no short immediate is sign-extended. -/
def Expr.aluOperands : Expr → Bool
  | .const _ _ => true
  | .undef _ => true
  | .read .insn => false
  | .read _ => true
  | .temp _ _ => true
  | .un o a => (Expr.un o a).isExtendedImm || a.aluOperands
  | .bin o a b => (Expr.bin o a b).isExtendedImm || (a.aluOperands && b.aluOperands)
  | .load .reg _ => true
  | .load .mem _ => false
  | .load .ext _ => false
  | .decodeImm _ a => isField3 a.insnBits
  | .imm (.table _) a => isField3 a.insnBits
  | .imm .sext _ => false

/-- The destination of an ALU instruction is a register, a flag or a temporary (40_alu_families.md R91, R93, R97). -/
def Place.aluDestination : Place → Bool
  | .pc => false
  | .w => false
  | .flag _ => true
  | .temp _ _ => true
  | .store .reg _ => true
  | .store .mem _ => false
  | .store .ext _ => false

/-- One part of an ALU operation has the operands and the destination such an operation can have. A choice on an operand
only computes a value, so that it is UNDEFINED with the operand (40_alu_families.md R97); a choice of another kind depends on
bits of the instruction word and `has_ext13`. -/
def Operation.aluPart : Operation → Bool
  | .skip => true
  | .assign p e => p.aluDestination && e.aluOperands
  | .seq _ _ => true
  | .ite c t f => c.settled || (c.aluOperands && t.isPure && f.isPure)
  | .arithmeticFlags a b c => a.aluOperands && b.aluOperands && c.aluOperands
  | .logicalFlags r => r.aluOperands

/-- `a + b` on words, the shorter operand brought to 16 bits by 00_scope.md R8. -/
def Expr.isWordSum : Expr → Bool
  | .bin .add a b => decide (max a.len b.len = 16)
  | _ => false

/-- Every addition is `a + b` or `a + b + c` with words `a`, `b` and a bit `c` (40_alu_families.md R92). -/
def Expr.additionFits : Expr → Bool
  | .bin .add a b => (Expr.bin .add a b).isWordSum || (a.isWordSum && decide (b.len = 1))
  | _ => true

/-- The other table of the two. -/
def ImmTable.other : ImmTable → ImmTable
  | .al => .sr
  | .sr => .al

/-! ### Results of additions

"Pseudocode that any addition on the lost pages must fit: `r[16:0] <- a + b`, `dest <- r[15:0]`" (40_alu_families.md R92): results
wrap, and nothing else is made of them but flags. -/

/-- What the temporaries hold of additions: `sums` hold the result `r` of one, or `r[15:0]`; `derived` hold what has been computed
from one. -/
structure SumFlow where
  sums : List Nat
  derived : List Nat
deriving DecidableEq, Repr

/-- The expression has nothing of an addition in it. -/
def SumFlow.apart (F : SumFlow) (e : Expr) : Bool :=
  !e.any (fun x => match x with
    | .bin .add _ _ => true
    | .temp i _ => F.sums.contains i || F.derived.contains i
    | _ => false)

/-- The expression is the result `r` of `a + b` or `a + b + c`, with or without its carry. -/
def SumFlow.isSum (F : SumFlow) : Expr → Bool
  | .bin .add (.bin .add a b) c => F.apart a && F.apart b && F.apart c
  | .bin .add a b => F.apart a && F.apart b
  | .temp i n => F.sums.contains i && !F.derived.contains i && decide (16 ≤ n)
  | _ => false

/-- The expression can be the result of an ALU instruction: it has nothing of an addition in it, or it is `r` or `r[15:0]`. -/
def SumFlow.isResult (F : SumFlow) (e : Expr) : Bool :=
  F.apart e || F.isSum e ||
    match e with
    | .un (.slice 15 0) a => F.isSum a
    | _ => false

/-- Go through an operation. What a choice on operands makes of a sum is no sum any more: so a result does not saturate. -/
def SumFlow.through : Operation → SumFlow → SumFlow
  | .skip, F => F
  | .assign (.temp i n) e, F =>
    if F.apart e then { sums := F.sums.filter (fun j => j != i), derived := F.derived.filter (fun j => j != i) }
    else if F.isResult e && decide (16 ≤ n) then { sums := i :: F.sums, derived := F.derived.filter (fun j => j != i) }
    else { F with derived := i :: F.derived }
  | .assign _ _, F => F
  | .seq a b, F => SumFlow.through b (SumFlow.through a F)
  | .ite c t f, F =>
    let T := SumFlow.through t F
    let G := SumFlow.through f F
    let changed := (t.temporaries ++ f.temporaries).map Prod.fst
    { sums := T.sums ++ G.sums
      derived := T.derived ++ G.derived ++
        if c.settled then []
        else changed.filter (fun i => !F.apart c || T.sums.contains i || G.sums.contains i) }
  | .arithmeticFlags _ _ _, F => F
  | .logicalFlags _, F => F

/-! ### How an ALU operation ends -/

/-- The parts of an operation in sequence. -/
def Operation.steps : Operation → List Operation
  | .skip => []
  | .seq a b => a.steps ++ b.steps
  | .assign p e => [.assign p e]
  | .ite c t f => [.ite c t f]
  | .arithmeticFlags a b c => [.arithmeticFlags a b c]
  | .logicalFlags r => [.logicalFlags r]

/-- What is left of an operation after it has computed its temporaries. -/
def Operation.finish (op : Operation) : List Operation :=
  op.steps.dropWhile Operation.temporariesOnly

/-- A part that stores a result in a register. -/
def Operation.storesResult : Operation → Bool
  | .assign (.store .reg _) _ => true
  | _ => false

/-- A part that sets flags. -/
def Operation.setsFlags : Operation → Bool
  | .assign (.flag _) _ => true
  | .arithmeticFlags _ _ _ => true
  | .logicalFlags _ => true
  | _ => false

/-- The expression reads a general purpose register. -/
def Expr.readsRegisters (e : Expr) : Bool :=
  e.any (fun e => match e with
    | .load .reg _ => true
    | _ => false)

/-- The operation reads a general purpose register. -/
def Operation.readsRegisters (op : Operation) : Bool :=
  op.anyExpr (fun e => match e with
    | .load .reg _ => true
    | _ => false)

/-- The parts of the finish that store a result. -/
def Operation.results (op : Operation) : List Operation :=
  op.finish.filter Operation.storesResult

/-- The finish sets flags and stores any number of results, in any order (40_alu_families.md R91 leaves the number open). None of
its parts reads a flag and none after the first store reads a register, so the flags and all results are of the same
operands. -/
def Operation.finishInOrder (op : Operation) : Bool :=
  op.finish.all (fun o => (o.setsFlags || o.storesResult) && !o.readsFlags) &&
    ((op.finish.dropWhile (fun o => !o.storesResult)).drop 1).all (fun o => !o.readsRegisters)

/-- What a part of the finish makes of additions: a result that is stored, or that flags are set from by 40_alu_families.md R94, is
no addition or a whole one; the operands of R93 have none in them; the page of an arithmetic instruction can refine a flag in
any way (R93). -/
def SumFlow.partFits (F : SumFlow) : Operation → Bool
  | .skip => true
  | .assign (.store _ _) e => F.isResult e
  | .assign _ _ => true
  | .seq _ _ => true
  | .ite _ _ _ => true
  | .arithmeticFlags a b c => F.apart a && F.apart b && F.apart c
  | .logicalFlags r => F.isResult r

/-- The sum `a + b`, when `c` is the constant 0, or `a + b + c`. -/
def isSumOf (a b c e : Expr) : Bool :=
  (decide (c = .const 1 0#1) && decide (e = .bin .add a b)) || decide (e = .bin .add (.bin .add a b) c)

/-- A part that stores a result for which `q` holds. -/
def Operation.storesWith (q : Expr → Bool) : Operation → Bool
  | .assign (.store .reg _) e => q e
  | _ => false

/-- An arithmetic instruction sets its flags, if at all, from a result that it stores, if it stores any: by the general
definitions of 40_alu_families.md R93, which its page can then refine flag by flag, or flag by flag alone. -/
def arithmeticFinish (op : Operation) : Bool :=
  op.finish.all (fun o => match o with
    | .arithmeticFlags a b c => op.results.isEmpty || op.results.any (Operation.storesWith (isSumOf a b c))
    | .logicalFlags _ => false
    | _ => true)

/-- A logical instruction sets its flags, if at all, as 40_alu_families.md R94 says, which is what `logicalFlags` does, and from
a result that it stores, if it stores any. -/
def logicalFinish (op : Operation) : Bool :=
  op.finish.all (fun o => match o with
    | .logicalFlags r => op.results.isEmpty || op.results.any (Operation.storesWith (fun e => decide (e = r)))
    | .arithmeticFlags _ _ _ => false
    | .assign (.flag _) _ => false
    | _ => true)

/-- A shift or a rotate sets its flags in a way that the source does not give (40_alu_families.md R94, R95). -/
def shiftFinish (_ : Operation) : Bool := true

/-- What 40_alu_families.md R91, R92, R95 and R97 demand of every ALU instruction, one whose operation ends as `ending` says:
`PC` is not assigned, operands, destinations, additions and results are as they can be. -/
def Operation.aluLawful (ending : Operation → Bool) (op : Operation) : Bool :=
  op.registersInterchangeable && !op.any (fun o => !o.aluPart) && !op.anyExpr (fun e => !e.additionFits) &&
    op.finishInOrder && op.finish.all (SumFlow.through op { sums := [], derived := [] }).partFits && ending op

/-! ### The rules of each family -/

/-- What every ALU instruction obeys, whether `has_ext13` is 0 or 1 (10_state.md R41): lengths fit, `W` is not named
(41_window.md R105), and its immediates come through table `t` (00_scope.md R13, R14). -/
def Operation.aluFamilyLawful (t : ImmTable) (ending : Operation → Bool) (op : Operation) : Bool :=
  op.lengthsFit && !op.namesW && !op.usesTable t.other && op.underBoth (Operation.aluLawful ending)

/-- What every instruction outside the ALU families obeys: lengths fit, registers are interchangeable (10_state.md R26), and
the table decoders are left to the ALU families (00_scope.md R13, R14). It may read and update flags: that none does is not
said (10_state.md R33, 40_alu_families.md R96, 91_not_in_source.md N19). -/
def Operation.otherLawful (op : Operation) : Bool :=
  op.lengthsFit && op.underBoth Operation.registersInterchangeable && !op.usesTable .al && !op.usesTable .sr

/-- A window instruction sets `W`, or reads `W`, or both (41_window.md R105). -/
def Operation.windowLawful (op : Operation) : Bool :=
  op.otherLawful && op.namesW

/-- What the family rules demand of an operation. No instruction but the four window instructions names `W`
(41_window.md R105 (a)). `decode_imm_al` is for arithmetic and logical immediates, `decode_imm_sr` for shift and rotate
amounts (00_scope.md R13, R14). A conditional jump assigns `PC` or falls through, as flags decide (42_control_transfer.md
R116). -/
def Operation.lawfulFor (op : Operation) : Family → Bool
  | .adjw => op.windowLawful
  | .ldw => op.windowLawful
  | .stw => op.windowLawful
  | .xchw => op.windowLawful
  | .arithmetic => op.aluFamilyLawful .al arithmeticFinish
  | .logical => op.aluFamilyLawful .al logicalFinish
  | .shiftRotate => op.aluFamilyLawful .sr shiftFinish
  | .conditionalJump => op.otherLawful && !op.namesW && op.assignsPc && op.underBoth Operation.jumpsOnFlags
  | .other => op.otherLawful && !op.namesW

end Sys2Proof
end

