-- ==== Sys2Proof/Syntax.lean ====
section
/-!
DEFINITION. The instructions: one constructor for each row of spec/opcode_table.json.
-/

namespace Sys2Proof

/-- An instruction, as the instruction pages give it for a word (00_scope.md R18: mnemonic, operand fields, operation).

`EXTI` is the one whose operand and effect survive (43_extended_immediate.md R123). Of the four window instructions
neither fields nor operation survive (41_window.md R106 to R109), so each carries its instruction word, which holds its
operand fields wherever its page puts them, and the operation its page gives. -/
inductive Instr where
  | adjw (insn : Word) (op : Operation)
  | exti (imm13 : BitVec 13)
  | ldw (insn : Word) (op : Operation)
  | stw (insn : Word) (op : Operation)
  | xchw (insn : Word) (op : Operation)
deriving DecidableEq, Repr

end Sys2Proof
end

