-- ==== Sys2Proof/WellFormed.lean ====
section
/-!
DEFINITION. When an instruction, a page and a whole `INSN_PAGES` are well formed: what the surviving manual says of them.
-/

namespace Sys2Proof

/-- An `EXTI` of any 13-bit immediate is well formed (30_encoding.md R77); a window instruction is when its operation obeys
41_window.md R105. -/
def Instr.wellFormed : Instr → Bool
  | .adjw _ op => op.windowLawful
  | .exti _ => true
  | .ldw _ op => op.windowLawful
  | .stw _ op => op.windowLawful
  | .xchw _ op => op.windowLawful

/-- 30_encoding.md R77: 13 different bits of the 16 are the immediate, and the remaining three identify the
instruction. -/
def ExtiLayout.wellFormed (l : ExtiLayout) : Bool :=
  decide (l.immBits.length = 13) && l.immBits.all (fun p => decide (p < 16)) && decide l.immBits.Nodup &&
    l.immBits.all (fun p => !l.opcode.getLsbD p)

/-- The value of a page lies inside its mask, its operation obeys the rules of its family (40_alu_families.md R98), and its
encoding leaves the register numbers free (10_state.md R26). DESIGN CHOICE (log 30): which rules bind a page its `family` says,
and its mnemonic is not held against it. -/
def Page.wellFormed (p : Page) : Bool :=
  decide (p.value &&& ~~~p.mask = 0#16) && p.op.lawfulFor p.family &&
    p.op.underBoth (Operation.registersFree p.mask)

/-- The word is an encoding of the page. -/
def Page.matches (p : Page) (w : Word) : Bool :=
  decide (w &&& p.mask = p.value)

/-- No word is an encoding of both pages: `INSN_PAGES` is a map (00_scope.md R18). -/
def Page.apart (p q : Page) : Bool :=
  decide (p.mask &&& q.mask &&& (p.value ^^^ q.value) ≠ 0#16)

/-- No page is an encoding of a word before it. -/
def pagesApart : List Page → Bool
  | [] => true
  | p :: ps => ps.all p.apart && pagesApart ps

/-- Every page obeys its family rules and no word is an encoding of two of them. The page of `EXTI` comes first in a
look-up, so it too is apart from the others: its three identifying bits stand where `immBits` does not. -/
def InsnPages.wellFormed (ps : InsnPages) : Bool :=
  ps.pages.all Page.wellFormed && pagesApart ps.pages &&
    match ps.exti with
    | none => true
    | some l => l.wellFormed &&
        ps.pages.all (fun p => (List.range 16).any (fun k =>
          !l.immBits.contains k && p.mask.getLsbD k && (p.value.getLsbD k != l.opcode.getLsbD k)))

end Sys2Proof
end

