-- ==== Sys2Proof/Decode.lean ====
section
/-!
DEFINITION. From an instruction word to an instruction by way of `INSN_PAGES`, and back. No bit pattern survives in the
manual (30_encoding.md, opening), so the decoder takes the pages as an argument; it is total and says why it gives no
instruction.
-/

namespace Sys2Proof

/-- The pages that a machine runs with when it is supplied with `ps`. The family rules are checked here, where the pages are
supplied (40_alu_families.md R98; decision D8: "when supplied, each page must satisfy the family rules"): what breaks them is
no `INSN_PAGES`, and a machine without one has no page for any word (30_encoding.md R79; log 10). -/
def InsnPages.accepted (ps : InsnPages) : InsnPages :=
  if ps.wellFormed then ps else { exti := none, pages := [] }

/-- What the pages make of a word (10_state.md R49, the `case`). -/
inductive Decoded where
  /-- An instruction of the opcode table. -/
  | instr (i : Instr)
  /-- An instruction whose name the surviving manual has lost; its page says what it does. -/
  | unnamed (p : Page)
  /-- No page defines the word: executing it is UNPREDICTABLE (30_encoding.md R78). -/
  | undefinedEncoding
deriving DecidableEq, Repr

/-- The bits of `w` at the given places, the first place the least significant. -/
def gatherBits (w : Word) : List Nat → Nat
  | [] => 0
  | p :: ps => (w.getLsbD p).toNat + 2 * gatherBits w ps

/-- The word with the bits of `v` at the given places, the least significant at the first, and 0 elsewhere. -/
def scatterBits (v : Nat) : List Nat → Word
  | [] => 0#16
  | p :: ps => (BitVec.ofNat 16 (v % 2) <<< p) ||| scatterBits (v / 2) ps

/-- The places of the three identifying bits of `EXTI` (30_encoding.md R77). -/
def ExtiLayout.opcodeMask (l : ExtiLayout) : Word :=
  ~~~ scatterBits 0x1FFF l.immBits

/-- The word is an encoding of `EXTI`. -/
def ExtiLayout.matches (l : ExtiLayout) (w : Word) : Bool :=
  decide (w &&& l.opcodeMask = l.opcode)

/-- `imm13` of an `EXTI` word, raw (30_encoding.md R77). -/
def ExtiLayout.imm13 (l : ExtiLayout) (w : Word) : BitVec 13 :=
  BitVec.ofNat 13 (gatherBits w l.immBits)

/-- The `EXTI` word of an immediate. -/
def ExtiLayout.encode (l : ExtiLayout) (imm13 : BitVec 13) : Word :=
  l.opcode ||| scatterBits imm13.toNat l.immBits

/-- What a page makes of a word it encodes: the four window instructions are instructions of the table. -/
def Page.decoded (p : Page) (w : Word) : Decoded :=
  match p.family with
  | .adjw => .instr (.adjw w p.op)
  | .ldw => .instr (.ldw w p.op)
  | .stw => .instr (.stw w p.op)
  | .xchw => .instr (.xchw w p.op)
  | .arithmetic => .unnamed p
  | .logical => .unnamed p
  | .shiftRotate => .unnamed p
  | .conditionalJump => .unnamed p
  | .other => .unnamed p

/-- The pages other than that of `EXTI`: the first whose encodings hold the word. -/
def decodePages (ps : List Page) (w : Word) : Decoded :=
  match ps.find? (fun p => p.matches w) with
  | some p => p.decoded w
  | none => .undefinedEncoding

/-- `INSN_PAGES(insn)` (10_state.md R49). -/
def decode (ps : InsnPages) (w : Word) : Decoded :=
  match ps.exti with
  | none => decodePages ps.pages w
  | some l =>
    if l.matches w then .instr (.exti (l.imm13 w)) else decodePages ps.pages w

/-- The word of an instruction under the given pages. A window instruction carries its word; an `EXTI` has one as soon as
its page is supplied (43_extended_immediate.md R126). -/
def encode (ps : InsnPages) : Instr → Option Word
  | .adjw w _ => some w
  | .exti imm13 => ps.exti.map (fun l => l.encode imm13)
  | .ldw w _ => some w
  | .stw w _ => some w
  | .xchw w _ => some w

/-- The instruction that the pages of the hardware at hand give for the word `w`. Every instruction has 16 bits
(30_encoding.md R70); bits from `nbits` on are 0. -/
def decodeTableWord (nbits w : Nat) : Option Instr :=
  match decode Config.insnPages.accepted (BitVec.ofNat 16 (w % 2 ^ nbits)) with
  | .instr i => some i
  | .unnamed _ => none
  | .undefinedEncoding => none

end Sys2Proof
end

