-- ==== Sys2Proof/Machine/Flags.lean ====
section
/-!
DEFINITION. The result flags of an arithmetic and of a logical operation (10_state.md R34 to R37, 40_alu_families.md R93, R94).
-/

namespace Sys2Proof.Machine

/-- The four result flags. -/
structure FlagValues where
  z : Val 1
  s : Val 1
  c : Val 1
  v : Val 1
deriving DecidableEq, Repr

/-- `a + b + c` on two words and a carry bit, with bit 16 the carry (00_scope.md R9; bit 17 of the strict 18-bit sum is
always 0, 90_conflicts.md C9). -/
def sumBits (a b : Word) (c : BitVec 1) : BitVec 17 :=
  a.setWidth 17 + b.setWidth 17 + c.setWidth 17

/-- `Z`: the low 16 bits of the result are zero (10_state.md R34). -/
def zeroFlag {n : Nat} (r : BitVec n) : BitVec 1 :=
  BitVec.ofBool (decide (r.setWidth 16 = 0#16))

/-- `S`: bit 15 of the result (10_state.md R35). -/
def signFlag {n : Nat} (r : BitVec n) : BitVec 1 :=
  BitVec.ofBool (r.getLsbD 15)

/-- `C` after an arithmetic operation: bit 16 of the result (10_state.md R36). -/
def carryFlag (r : BitVec 17) : BitVec 1 :=
  BitVec.ofBool (r.getLsbD 16)

/-- `V` after an addition: the operands have one sign and the result has the other (10_state.md R37; PRESUMED: the source
gives the words "two's complement overflow" and no formula, log 12). -/
def overflowFlag (a b : Word) (r : BitVec 17) : BitVec 1 :=
  BitVec.ofBool (a.getLsbD 15 == b.getLsbD 15 && r.getLsbD 15 != a.getLsbD 15)

/-- The flags after the arithmetic result `a + b + c` (40_alu_families.md R93). An UNDEFINED operand makes the result, and so
every flag computed from it, UNDEFINED (R97). -/
def arithmeticFlags : Val 16 → Val 16 → Val 1 → FlagValues
  | .known a, .known b, .known c =>
    { z := .known (zeroFlag (sumBits a b c))
      s := .known (signFlag (sumBits a b c))
      c := .known (carryFlag (sumBits a b c))
      v := .known (overflowFlag a b (sumBits a b c)) }
  | _, _, _ => { z := .undefined, s := .undefined, c := .undefined, v := .undefined }

/-- The flags after the logical result `r`: `C` and `V` are UNDEFINED (40_alu_families.md R94). -/
def logicalFlags (r : Val 16) : FlagValues :=
  { z := r.map zeroFlag, s := r.map signFlag, c := .undefined, v := .undefined }

end Sys2Proof.Machine
end

