-- ==== Sys2Proof/Machine/Memory.lean ====
section
/-!
DEFINITION. Main memory, `mem`: 2^16 words of 16 bits, each a bit pattern or UNDEFINED (10_state.md R20, R48; 20_memory.md R50,
R51, R68).
-/

namespace Sys2Proof.Machine

/-- The words of `mem` that hold a known bit pattern, as (word address, word) pairs with the addresses strictly rising;
an address not listed holds UNDEFINED, as every word that nothing has given a value does (10_state.md R48). The smallest
unit of this machine is the word: it has no bytes (20_memory.md R55, log 6). -/
abbrev Memory := List (Nat × Word)

/-- The canonical form: addresses strictly rising, all below 2^16. No entry can equal what an unlisted address reads as,
since an entry is a known word. -/
def Memory.wf : Memory → Bool
  | [] => true
  | [(a, _)] => decide (a < 65536)
  | (a, _) :: (b, v) :: m => decide (a < b) && Memory.wf ((b, v) :: m)

/-- The content of the word at `a`; what an unlisted address reads as is UNDEFINED (10_state.md R48). -/
def Memory.read : Memory → Nat → Val 16
  | [], _ => .undefined
  | (k, v) :: m, a => if k = a then .known v else Memory.read m a

/-- Give the word at `a` the known value `v`, keeping the addresses rising. -/
def Memory.insert : Memory → Nat → Word → Memory
  | [], a, v => [(a, v)]
  | (k, u) :: m, a, v =>
    if a < k then (a, v) :: (k, u) :: m
    else if a = k then (a, v) :: m
    else (k, u) :: Memory.insert m a v

/-- Make the word at `a` UNDEFINED. -/
def Memory.erase : Memory → Nat → Memory
  | [], _ => []
  | (k, u) :: m, a => if k = a then m else (k, u) :: Memory.erase m a

/-- The write of one word (20_memory.md R68): the word becomes `v`, or UNDEFINED if `v` is. -/
def Memory.write (m : Memory) (a : Nat) : Val 16 → Memory
  | .known v => m.insert a v
  | .undefined => m.erase a

/-- The memory that holds the given words and nothing else (`INIT_MEM`, 10_state.md R48); an address is reduced modulo
2^16 (00_scope.md R4), and of two words for one address the later counts. -/
def Memory.ofWords (init : List (Nat × Word)) : Memory :=
  init.foldl (fun m e => m.insert (e.1 % 65536) e.2) []

/-- The two bytes of an image as one word (20_memory.md R55). -/
def wordOfBytes (order : ByteOrder) (first second : BitVec 8) : Word :=
  match order with
  | .big => first ++ second
  | .little => second ++ first

/-- `INIT_MEM` from a memory image given as bytes, from word address `base` on (20_memory.md R55, 70_reset_and_hazards.md
R169 (a)). An odd byte at the end is half a word, which no rule gives a meaning: there is no image then (log 15). -/
def initMemOfBytes (order : ByteOrder) : Nat → List (BitVec 8) → Option (List (Nat × Word))
  | _, [] => some []
  | _, [_] => none
  | base, b :: c :: bs =>
    (initMemOfBytes order (base + 1) bs).map (fun m => (base, wordOfBytes order b c) :: m)

end Sys2Proof.Machine
end

