-- ==== Sys2Proof/Machine/State.lean ====
section
/-!
DEFINITION. The state of the machine (10_state.md R20), the reasons a step can stop, the launch states and the state after
reset (10_state.md R46, 70_reset_and_hazards.md R160).
-/

namespace Sys2Proof.Machine

/-- An event on the external bus (20_memory.md R69): a read with the word the environment answered, or a write. -/
inductive ExtEvent where
  | read (addr value : Word)
  | write (addr value : Word)
deriving DecidableEq, Repr

/-- The whole state. `R0` to `R7` are names of words of `mem`, not fields (10_state.md R27). -/
structure State where
  /-- `PC`, the program counter (10_state.md R22). -/
  pc : Val 16
  /-- `W`, the window address (10_state.md R28). -/
  w : Val 16
  /-- `Z`, zero (10_state.md R34). -/
  flagZ : Val 1
  /-- `S`, negative (10_state.md R35). -/
  flagS : Val 1
  /-- `C`, carry (10_state.md R36). -/
  flagC : Val 1
  /-- `V`, overflow (10_state.md R37). -/
  flagV : Val 1
  /-- `ext13`, the high 13 bits of a pending extended immediate (10_state.md R39). -/
  ext13 : Val 13
  /-- `has_ext13`, 1 when `ext13` is pending (10_state.md R39). -/
  hasExt13 : BitVec 1
  /-- `mem`, main memory (20_memory.md R50). -/
  mem : Memory
  /-- What has happened on the external bus, oldest first (20_memory.md R69). -/
  extLog : List ExtEvent
  /-- The model's own field: the parameters of 00_scope.md R18, which no step changes (log 2). -/
  params : Params
  /-- The model's own field: how many UNDEFINED bit patterns have been drawn (00_scope.md R16, log 3). -/
  draws : Nat
deriving DecidableEq, Repr

/-- The reasons for UNPREDICTABLE behaviour. The source supports one (90_conflicts.md C11). -/
inductive UnpredictableReason where
  | undefinedEncoding
deriving DecidableEq, Repr

/-- Why the machine stops. -/
inductive Fault where
  /-- `raise Unpredictable(reason)` (00_scope.md R15, R19): raised by the step for a word no instruction page defines
  (30_encoding.md R78). Safe: the hardware may do anything, so no claim may rest on what follows. -/
  | unpredictable (reason : UnpredictableReason)
  /-- The CPU is stuck: an access to an address of `mem` where `MEM_POPULATED` is false (20_memory.md R61), raised by
  every access to `mem`, the fetch among them. Safe: the spec gives the access no step. -/
  | stuck (addr : Word)
deriving DecidableEq, Repr

/-- Why the model refuses an instruction. -/
inductive Refusal where
  /-- The instruction has no meaning in the model yet. Safe. No arm of this model answers with it. -/
  | notModelled (mnemonic : String)
  /-- `decode_imm_al(3)` is needed and `IMM_AL_3` is absent: raised by the table decoder (30_encoding.md R74, D7).
  Safe: the source gives the entry no value. -/
  | immAl3Absent
deriving DecidableEq, Repr

/-- What a step, or a part of one, answers. -/
abbrev Result (α : Type) := Host.Outcome α Fault Refusal

/-- The launch state of the given parameters (10_state.md R46, 70_reset_and_hazards.md R160): `PC = RESET_PC`,
`W = RESET_W`, flags UNDEFINED, `has_ext13 = 0`, `ext13` UNDEFINED, `mem = INIT_MEM` with every other word UNDEFINED. The
pages are checked as they are supplied (40_alu_families.md R98). -/
def State.launch (params : Params) (resetPc resetW : Word) (initMem : List (Nat × Word)) : State :=
  { pc := .known resetPc
    w := .known resetW
    flagZ := .undefined
    flagS := .undefined
    flagC := .undefined
    flagV := .undefined
    ext13 := .undefined
    hasExt13 := 0#1
    mem := Memory.ofWords initMem
    extLog := []
    params := { params with pages := params.pages.accepted }
    draws := 0 }

/-- The state after reset with the documented defaults and no `INIT_MEM` (10_state.md R25, R31, R46). -/
def State.reset : State :=
  State.launch Config.params Config.resetPc Config.resetW []

end Sys2Proof.Machine
end

