-- ==== Sys2Proof/Machine/Ops.lean ====
section
/-!
DEFINITION. The named operations over registers, memory and the external bus that every meaning is built from.
-/

namespace Sys2Proof.Machine

/-- Go on with the result of a part of a step; a stop stays a stop. -/
def andThen {α β : Type} (x : Result α) (f : α → Result β) : Result β :=
  match x with
  | .next a => f a
  | .fault e => .fault e
  | .refused e => .refused e

/-- `raise Unpredictable(reason)` (00_scope.md R19): the one abnormal outcome of this machine. It is not an exception: there
is no handler, no saved state and no resumption (60_exceptions.md R140, R141). -/
def raiseUnpredictable {α : Type} (reason : UnpredictableReason) : Result α :=
  .fault (.unpredictable reason)

/-! ### Registers -/

/-- `PC ← v` (10_state.md R24). -/
def State.setPc (s : State) (v : Val 16) : State := { s with pc := v }

/-- `W ← v` (10_state.md R30): nothing else changes; every register name follows (41_window.md R110). -/
def State.setW (s : State) (v : Val 16) : State := { s with w := v }

/-- The value of a flag. -/
def State.flag (s : State) : Flag → Val 1
  | .z => s.flagZ
  | .s => s.flagS
  | .c => s.flagC
  | .v => s.flagV

/-- Assign one flag. -/
def State.setFlag (s : State) (f : Flag) (v : Val 1) : State :=
  match f with
  | .z => { s with flagZ := v }
  | .s => { s with flagS := v }
  | .c => { s with flagC := v }
  | .v => { s with flagV := v }

/-- Assign the four flags at once. -/
def State.setFlags (s : State) (f : FlagValues) : State :=
  { s with flagZ := f.z, flagS := f.s, flagC := f.c, flagV := f.v }

/-- Assign `ext13` and `has_ext13`. -/
def State.setExt13 (s : State) (v : Val 13) (has : BitVec 1) : State :=
  { s with ext13 := v, hasExt13 := has }

/-- Put another memory in the place of `mem`. -/
def State.setMem (s : State) (m : Memory) : State := { s with mem := m }

/-- Record an event on the external bus (20_memory.md R69). -/
def State.record (s : State) (e : ExtEvent) : State := { s with extLog := s.extLog ++ [e] }

/-- Count one draw of an UNDEFINED bit pattern. -/
def State.countDraw (s : State) : State := { s with draws := s.draws + 1 }

/-! ### UNDEFINED values that decide something -/

/-- The bit pattern a value has at a read that decides something: the value itself, or for UNDEFINED a fresh free pattern
(00_scope.md R16, D10). -/
def State.force {n : Nat} (s : State) : Val n → BitVec n
  | .known v => v
  | .undefined => Config.undefinedBits s.draws n

/-- The state after such a read: a draw has been counted if there was one. -/
def State.afterForce {n : Nat} (s : State) : Val n → State
  | .known _ => s
  | .undefined => s.countDraw

/-- The state with flag `f` drawn if it is UNDEFINED. -/
def State.drawFlag (s : State) (f : Flag) : State :=
  (s.afterForce (s.flag f)).setFlag f (.known (s.force (s.flag f)))

/-- The state with every UNDEFINED flag drawn, `Z` first. -/
def State.drawFlags (s : State) : State :=
  [Flag.z, Flag.s, Flag.c, Flag.v].foldl State.drawFlag s

/-- The flags that are UNDEFINED. -/
def State.undefinedFlags (s : State) : List Flag :=
  [Flag.z, Flag.s, Flag.c, Flag.v].filter (fun f => (s.flag f).isUndefined)

/-! ### Main memory -/

/-- `MEM_POPULATED(a)` (20_memory.md R61). -/
def State.populated (s : State) (a : Word) : Bool :=
  !s.params.unpopulated.contains a

/-- The content of the word of `mem` at a known address. -/
def State.word (s : State) (a : Word) : Val 16 :=
  s.mem.read a.toNat

/-- `MemRead(addr, 1)` (20_memory.md R68). At an UNDEFINED address the address is drawn, and the result is UNDEFINED, as of
every operator with an UNDEFINED input (00_scope.md R16 (b), log 4). -/
def memRead (addr : Val 16) (s : State) : Result (Val 16 × State) :=
  if s.populated (s.force addr) then
    match addr with
    | .known a => .next (s.word a, s)
    | .undefined => .next (.undefined, s.afterForce addr)
  else .fault (.stuck (s.force addr))

/-- `MemWrite(addr, 1, v)` (20_memory.md R68): the word becomes `v` and nothing else changes. An UNDEFINED address is drawn
(D10). -/
def memWrite (addr : Val 16) (v : Val 16) (s : State) : Result State :=
  if s.populated (s.force addr) then
    .next ((s.afterForce addr).setMem (s.mem.write (s.force addr).toNat v))
  else .fault (.stuck (s.force addr))

/-! ### General purpose registers -/

/-- The address where register `n` is stored: `W + n`, truncated to 16 bits (10_state.md R27, R30). -/
def State.regAddr (s : State) (n : Val 3) : Val 16 :=
  (BinOp.add.apply s.w n).resize 16

/-- The content of register `n` when the window address is known; UNDEFINED when it is not (00_scope.md R16 (b)). -/
def State.reg (s : State) (n : BitVec 3) : Val 16 :=
  match s.regAddr (.known n) with
  | .known a => s.word a
  | .undefined => .undefined

/-! ### The external bus -/

/-- An event as the environment's answer may depend on it. -/
def ExtEvent.seen : ExtEvent → Bool × Word × Word
  | .read a v => (false, a, v)
  | .write a v => (true, a, v)

/-- The word the environment answers to a read of `ext` at `a` (20_memory.md R59, D14). -/
def State.extAnswer (s : State) (a : Word) : Word :=
  Config.extOracle (s.extLog.map ExtEvent.seen) a

/-- `ExtRead(addr)` (20_memory.md R69): the environment answers any word, and the read is recorded with it. -/
def extRead (addr : Val 16) (s : State) : Val 16 × State :=
  match addr with
  | .known a => (.known (s.extAnswer a), s.record (.read a (s.extAnswer a)))
  | .undefined =>
    (.undefined, (s.afterForce addr).record (.read (s.force addr) (s.extAnswer (s.force addr))))

/-- `ExtWrite(addr, v)` (20_memory.md R69): recorded; it changes no CPU state and no word of `mem`. An UNDEFINED address
and an UNDEFINED word are drawn (D10). -/
def extWrite (addr : Val 16) (v : Val 16) (s : State) : State :=
  ((s.afterForce addr).afterForce v).record (.write (s.force addr) ((s.afterForce addr).force v))

/-! ### The end of an instruction -/

/-- `PC + 1`, truncated to 16 bits (10_state.md R23, R24). -/
def nextPc (pc : Val 16) : Val 16 :=
  (BinOp.add.apply pc (.known 1#16)).resize 16

/-- What the step rule does after the operation of every instruction but `EXTI` (10_state.md R49): the default advance of
`PC` if the operation has not assigned it (R23), then `ext13 ← UNDEFINED` and `has_ext13 ← 0` (R42). -/
def State.retire (s : State) (pcAssigned : Bool) : State :=
  (if pcAssigned then s else s.setPc (nextPc s.pc)).setExt13 .undefined 0#1

end Sys2Proof.Machine
end

