-- ==== Sys2Proof/Machine/ExtendedImmediate.lean ====
section
/-!
DEFINITION. The extended immediate instruction (43_extended_immediate.md R123).
-/

namespace Sys2Proof.Machine

/-- `EXTI`: `ext13 ← imm13`, `has_ext13 ← 1`, `PC ← PC + 1`, and nothing else (43_extended_immediate.md R123, D19). -/
def execExti (imm13 : BitVec 13) (s : State) : Result State :=
  .next ((s.setPc (nextPc s.pc)).setExt13 (.known imm13) 1#1)

end Sys2Proof.Machine
end

