-- ==== Sys2Proof/Machine/Operands.lean ====
section
/-!
DEFINITION. Immediates (30_encoding.md R72 to R76) and the value of an expression of the notation in a state.
-/

namespace Sys2Proof.Machine

/-- A temporary of an operation, with its length. -/
structure Temporary where
  len : Nat
  val : Val len

/-- The temporaries that an operation has assigned, latest first. They last for one instruction and are no state of the
machine (log 13). -/
abbrev Temporaries := List (Nat × Temporary)

/-- The value of temporary `i`, brought to `n` bits; UNDEFINED before it is assigned. -/
def readTemporary : Temporaries → Nat → (n : Nat) → Val n
  | [], _, _ => .undefined
  | (k, t) :: ts, i, n => if k = i then t.val.resize n else readTemporary ts i n

/-- The value of what is read by name: registers and flags as they stand (10_state.md R49), or the instruction word. `PC`
is the address of the instruction itself (R22). -/
def readSource (insn : Word) (s : State) : (r : Source) → Val r.len
  | .pc => s.pc
  | .w => s.w
  | .flag f => s.flag f
  | .ext13 => s.ext13
  | .hasExt13 => .known s.hasExt13
  | .insn => .known insn

/-- The value of a table entry; an absent `IMM_AL_3` is refused (30_encoding.md R74, D7). -/
def decodeImm (t : ImmTable) (op : Val 3) (s : State) : Result (Val 16) :=
  match op with
  | .undefined => .next .undefined
  | .known op =>
    match t with
    | .sr => .next (.known (decodeImmSr op))
    | .al =>
      match decodeImmAl s.params.immAl3 op with
      | some v => .next (.known v)
      | none => .refused .immAl3Absent

/-- The extended immediate `{ext13, low3}`, with the low three bits of the field, raw (30_encoding.md R73, D20). -/
def extendedImm {n : Nat} (field : Val n) (s : State) : Val 16 :=
  Val.map₂ (fun (hi : BitVec 13) (lo : BitVec 3) => hi ++ lo) s.ext13 (field.resize 3)

/-- An immediate operand (30_encoding.md R72): the extended form when `has_ext13` is 1 (R73), else the short form of its
kind (R74, R75, R76). -/
def immediate (k : ImmKind) {n : Nat} (field : Val n) (s : State) : Result (Val 16) :=
  if s.hasExt13 = 1#1 then .next (extendedImm field s)
  else
    match k with
    | .table t => decodeImm t (field.resize 3) s
    | .sext => .next (field.map signExtend16)

/-- The word read from a space at an address, or from the register whose number it is. An address is ANDed with 0xFFFF
(00_scope.md R4, R5). -/
def loadFrom (sp : Space) {n : Nat} (a : Val n) (s : State) : Result (Val 16 × State) :=
  match sp with
  | .mem => memRead (a.resize 16) s
  | .ext => .next (extRead (a.resize 16) s)
  | .reg => memRead (s.regAddr (a.resize 3)) s

/-- The value of an expression, and the state after its reads: only the draw counter and the record of the external bus
can have changed. Operands are evaluated from left to right (log 11). -/
def eval (insn : Word) (ts : Temporaries) : (e : Expr) → State → Result (Val e.len × State)
  | .const _ v, s => .next (.known v, s)
  | .undef _, s => .next (.undefined, s)
  | .read r, s => .next (readSource insn s r, s)
  | .temp i n, s => .next (readTemporary ts i n, s)
  | .un o a, s => andThen (eval insn ts a s) fun r => .next (o.apply r.1, r.2)
  | .bin o a b, s =>
    andThen (eval insn ts a s) fun r =>
      andThen (eval insn ts b r.2) fun q => .next (o.apply r.1 q.1, q.2)
  | .load sp a, s => andThen (eval insn ts a s) fun r => loadFrom sp r.1 r.2
  | .decodeImm t a, s =>
    andThen (eval insn ts a s) fun r =>
      andThen (decodeImm t (r.1.resize 3) r.2) fun v => .next (v, r.2)
  | .imm k a, s =>
    andThen (eval insn ts a s) fun r => andThen (immediate k r.1 r.2) fun v => .next (v, r.2)

end Sys2Proof.Machine
end

