-- ==== Sys2Proof/Machine/Perform.lean ====
section
/-!
DEFINITION. Performing an operation of the notation: assignments in sequence (00_scope.md R2), and the whole instruction that a
page describes (10_state.md R49).
-/

namespace Sys2Proof.Machine

/-- How far an operation has come: the state, its temporaries, whether `PC` has been assigned (10_state.md R49), the addresses of
`mem` it has stored to, in order, and the flags that it reads as drawn bits, UNDEFINED as they are, and has not assigned. -/
structure Progress where
  state : State
  temps : Temporaries
  pcAssigned : Bool
  stored : List Word
  drawn : List Flag

/-- An operation that has not begun. -/
def Progress.start (s : State) : Progress :=
  { state := s, temps := [], pcAssigned := false, stored := [], drawn := [] }

/-- The beginning of an operation in a state: where the flags reach `PC`, the UNDEFINED ones are drawn (42_control_transfer.md R119,
D10; log 31). -/
def Progress.begin (insn : Word) (op : Operation) (s : State) : Progress :=
  if op.flagsReachPc insn then { Progress.start s.drawFlags with drawn := s.undefinedFlags } else Progress.start s

/-- A flag that was read as a drawn bit and not assigned is still UNDEFINED: the instruction has not modified it
(10_state.md R21). -/
def Progress.restore (p : Progress) : Progress :=
  { p with state := p.drawn.foldl (fun s f => s.setFlag f .undefined) p.state, drawn := [] }

/-- Store a word in `mem` and note the address. -/
def Progress.storeMem (p : Progress) (addr : Val 16) (v : Val 16) : Result Progress :=
  andThen (memWrite addr v p.state) fun t =>
    .next { p with state := t, stored := p.stored ++ [p.state.force addr] }

/-- The given temporaries become UNDEFINED. -/
def Progress.spoil (p : Progress) (ts : List (Nat × Nat)) : Progress :=
  { p with temps := ts.map (fun t => (t.1, { len := t.2, val := .undefined })) ++ p.temps }

/-- Go on in state `s` with the four flags assigned. -/
def Progress.withFlags (p : Progress) (s : State) (f : FlagValues) : Progress :=
  { p with state := s.setFlags f, drawn := [] }

/-- `place ← v`: the value is brought to the length of the place (00_scope.md R2). The address of a target is evaluated
after the right side and before the store (log 11). -/
def Progress.assign (insn : Word) (p : Progress) (pl : Place) {n : Nat} (v : Val n) : Result Progress :=
  match pl with
  | .pc => .next { p with state := p.state.setPc (v.resize 16), pcAssigned := true }
  | .w => .next { p with state := p.state.setW (v.resize 16) }
  | .flag f => .next { p with state := p.state.setFlag f (v.resize 1), drawn := p.drawn.filter (fun g => g != f) }
  | .temp i k => .next { p with temps := (i, { len := k, val := v.resize k }) :: p.temps }
  | .store sp a =>
    andThen (eval insn p.temps a p.state) fun r =>
      match sp with
      | .mem => Progress.storeMem { p with state := r.2 } (r.1.resize 16) (v.resize 16)
      | .ext => .next { p with state := extWrite (r.1.resize 16) (v.resize 16) r.2 }
      | .reg => Progress.storeMem { p with state := r.2 } (r.2.regAddr (r.1.resize 3)) (v.resize 16)

/-- Perform an operation. Where the condition of a choice is UNDEFINED, a choice that only computes a value makes the
temporaries it could assign UNDEFINED, as every operation with an UNDEFINED input does (00_scope.md R16 (b),
40_alu_families.md R97); any other choice goes either way (42_control_transfer.md R119): its bit is drawn (D10; log 13). -/
def perform (insn : Word) : Operation → Progress → Result Progress
  | .skip, p => .next p
  | .assign pl e, p =>
    andThen (eval insn p.temps e p.state) fun r =>
      Progress.assign insn { p with state := r.2 } pl r.1
  | .seq a b, p => andThen (perform insn a p) fun q => perform insn b q
  | .ite c t f, p =>
    andThen (eval insn p.temps c p.state) fun r =>
      if (r.1.isUndefined && t.isPure && f.isPure) = true then
        .next (Progress.spoil { p with state := r.2 } (t.temporaries ++ f.temporaries))
      else if r.2.force (r.1.resize 1) = 1#1 then
        perform insn t { p with state := r.2.afterForce (r.1.resize 1) }
      else perform insn f { p with state := r.2.afterForce (r.1.resize 1) }
  | .arithmeticFlags a b c, p =>
    andThen (eval insn p.temps a p.state) fun x =>
      andThen (eval insn p.temps b x.2) fun y =>
        andThen (eval insn p.temps c y.2) fun z =>
          .next (p.withFlags z.2
            (Sys2Proof.Machine.arithmeticFlags (x.1.resize 16) (y.1.resize 16) (z.1.resize 1)))
  | .logicalFlags e, p =>
    andThen (eval insn p.temps e p.state) fun r =>
      .next (p.withFlags r.2 (Sys2Proof.Machine.logicalFlags (r.1.resize 16)))

/-- The operation of a whole instruction, performed on the state as it stands (10_state.md R49). -/
def performInstruction (insn : Word) (op : Operation) (s : State) : Result Progress :=
  andThen (perform insn (op.under s.hasExt13) (Progress.begin insn (op.under s.hasExt13) s)) fun p => .next p.restore

/-- A whole instruction other than `EXTI` (10_state.md R49): its operation is performed, then the instruction retires. -/
def runOperation (insn : Word) (op : Operation) (s : State) : Result State :=
  andThen (performInstruction insn op s) fun p => .next (p.state.retire p.pcAssigned)

end Sys2Proof.Machine
end

