-- ==== Sys2Proof/Machine/Window.lean ====
section
/-!
DEFINITION. The four window instructions (41_window.md R105 to R110): the only ones that set or read `W`. What each does is on
its lost page; the instruction carries that page's operation, and its meaning performs it, whatever it is.
-/

namespace Sys2Proof.Machine

/-- `ADJW` (41_window.md R106, R105). -/
def execAdjw (insn : Word) (op : Operation) (s : State) : Result State :=
  runOperation insn op s

/-- `LDW` (41_window.md R107, R105). -/
def execLdw (insn : Word) (op : Operation) (s : State) : Result State :=
  runOperation insn op s

/-- `STW` (41_window.md R108, R105). -/
def execStw (insn : Word) (op : Operation) (s : State) : Result State :=
  runOperation insn op s

/-- `XCHW` (41_window.md R109, R105). -/
def execXchw (insn : Word) (op : Operation) (s : State) : Result State :=
  runOperation insn op s

end Sys2Proof.Machine
end

