-- ==== Sys2Proof/Machine/Dispatch.lean ====
section
/-!
DEFINITION. The meaning of every instruction, by name.
-/

namespace Sys2Proof.Machine

def exec (i : Instr) (s : State) : Host.Outcome State Fault Refusal :=
  match i with
  | .adjw insn op => Sys2Proof.Machine.execAdjw insn op s
  | .exti imm13 => Sys2Proof.Machine.execExti imm13 s
  | .ldw insn op => Sys2Proof.Machine.execLdw insn op s
  | .stw insn op => Sys2Proof.Machine.execStw insn op s
  | .xchw insn op => Sys2Proof.Machine.execXchw insn op s

end Sys2Proof.Machine
end

