-- ==== Sys2Proof/Machine/Families.lean ====
section
/-!
DEFINITION. Instructions whose names are lost: arithmetic, logical, shift, rotate, conditional jump, and the rest
(40_alu_families.md R90 to R98, 42_control_transfer.md R115 to R119, 44_memory_bus_and_system.md R130 to R133). The opcode
table has no row for them; a page of `INSN_PAGES` that gives one is performed here. The pages were held against the family
rules when they were supplied (R98).
-/

namespace Sys2Proof.Machine

/-- An instruction of a page whose name the surviving manual has lost. -/
def execUnnamed (insn : Word) (page : Page) (s : State) : Result State :=
  runOperation insn page.op s

end Sys2Proof.Machine
end

