-- ==== Sys2Proof/Machine/Fetch.lean ====
section
/-!
DEFINITION. Fetching the instruction word (10_state.md R49, 20_memory.md R54).
-/

namespace Sys2Proof.Machine

/-- `insn <- MemRead(PC, 1)`; if that is UNDEFINED, any 16-bit pattern (10_state.md R49). `PC` is not yet changed. -/
def fetch (s : State) : Result (Word × State) :=
  andThen (memRead s.pc s) fun r => .next (r.2.force r.1, r.2.afterForce r.1)

/-- The state in which the next fetch reads the word `w`. The word is placed at `PC` and its address made populated; an
UNDEFINED `PC` fetches any word, so it is given an address first (log 16). -/
def State.placeAtPc (s : State) (w : Word) : State :=
  match s.pc with
  | .known a =>
    { s with
      mem := s.mem.write a.toNat (.known w)
      params := { s.params with unpopulated := s.params.unpopulated.filter (fun b => b != a) } }
  | .undefined =>
    { s with
      pc := .known 0#16
      mem := s.mem.write 0 (.known w)
      params := { s.params with unpopulated := s.params.unpopulated.filter (fun b => b != 0#16) } }

end Sys2Proof.Machine
end

