-- ==== Sys2Proof/Machine/Step.lean ====
section
/-!
DEFINITION. One step of the CPU executes one instruction (10_state.md R49).
-/

namespace Sys2Proof.Machine

/-- Execute what the pages make of the fetched word (10_state.md R49, the `case`). -/
def executeDecoded (insn : Word) (d : Decoded) (s : State) : Host.Outcome State Fault Refusal :=
  match d with
  | .instr i => exec i s
  | .unnamed page => execUnnamed insn page s
  | .undefinedEncoding => raiseUnpredictable .undefinedEncoding

/-- One step: fetch, look the word up in `INSN_PAGES`, execute. Nothing else happens between steps (10_state.md R49). -/
def step (s : State) : Host.Outcome State Fault Refusal :=
  andThen (fetch s) fun r => executeDecoded r.1 (decode r.2.params.pages r.1) r.2

/-- The state with the instruction whose bits are `w` stored where `step` fetches next (log 16). -/
def State.withFetchWord (s : State) (nbits w : Nat) : State :=
  s.placeAtPc (BitVec.ofNat 16 (w % 2 ^ nbits))

end Sys2Proof.Machine
end

