-- ==== Sys2Proof/Safety.lean ====
section
/-!
DEFINITION. Runs of the machine, and what counts as a safe and as a finished one (70_reset_and_hazards.md R160, R168, R169;
60_exceptions.md R141).
-/

namespace Sys2Proof.Safety

open Sys2Proof.Machine

/-- `t` follows `s` by some number of steps. -/
inductive Reaches : State → State → Prop where
  | refl (s : State) : Reaches s s
  | tail {s t u : State} : Reaches s t → step t = .next u → Reaches s u

/-- `s` is a launch state of some implementation, platform and program (70_reset_and_hazards.md R160, R161). -/
def Launched (s : State) : Prop :=
  ∃ params resetPc resetW initMem, s = State.launch params resetPc resetW initMem

/-- `k` steps from `s` meet no fault and no refusal. A run that becomes UNPREDICTABLE is never safe
(60_exceptions.md R141). -/
def RunsSafely (k : Nat) (s : State) : Prop :=
  ∃ t, Sys2Proof.core.run k s = .next t

/-- The run from `s` is finished in `t` for the given `HALT_CONDITION`, a predicate that no source fixes
(70_reset_and_hazards.md R168). No fault and no refusal can stand in such a run, since neither has a next state. -/
def FinishedIn (haltCondition : State → Prop) (s t : State) : Prop :=
  Reaches s t ∧ haltCondition t

/-- What the host reads as the result of a finished run: `mem` and the events on the external bus
(70_reset_and_hazards.md R169 (c)). -/
def resultOf (t : State) : Memory × List ExtEvent :=
  (t.mem, t.extLog)

end Sys2Proof.Safety
end

