-- ==== Sys2Proof/Certificates/Slice0/Obligations.lean ====
section
/-!
DEFINITION. The statements for the provers, each a proposition about the machine with the rule of the spec it formalises.
-/

namespace Sys2Proof.Claims

open Sys2Proof.Machine

/-! ### Words the statements share -/

/-- `PC + 1` modulo 2^16; an UNDEFINED `PC` stays UNDEFINED (10_state.md R23, R24; 00_scope.md R16). -/
def advanced : Val 16 → Val 16
  | .known a => .known (a + 1#16)
  | .undefined => .undefined

/-- The four window instructions, as functions of the instruction word and the operation of its page. -/
def windowForms : List (Word → Operation → Instr) :=
  [Instr.adjw, Instr.ldw, Instr.stw, Instr.xchw]

/-- The four flags of `t` are those of `s`. -/
def SameFlags (s t : State) : Prop :=
  t.flagZ = s.flagZ ∧ t.flagS = s.flagS ∧ t.flagC = s.flagC ∧ t.flagV = s.flagV

/-- What every run keeps: `mem` is in its canonical form, `ext13` holds a known value exactly while `has_ext13` is 1
(10_state.md R42), and the pages obey the family rules (40_alu_families.md R98). -/
def Inv (s : State) : Prop :=
  s.mem.wf = true ∧ (s.hasExt13 = 1#1 ↔ ∃ v, s.ext13 = .known v) ∧ s.params.pages.wellFormed = true

/-- Whatever flags the operation does not assign are in `t` what they are in `s`. -/
def KeepsUnassignedFlags (op : Operation) (s t : State) : Prop :=
  ∀ f, op.assignsFlag f = false → t.flag f = s.flag f

/-- The pages hold the instruction: an `EXTI` needs the page of `EXTI`; a window instruction needs a page of its family
that encodes its word and gives its operation. -/
def HeldBy (ps : InsnPages) : Instr → Prop
  | .adjw w op => ∃ p ∈ ps.pages, p.family = .adjw ∧ p.op = op ∧ p.matches w = true
  | .exti _ => ps.exti ≠ none
  | .ldw w op => ∃ p ∈ ps.pages, p.family = .ldw ∧ p.op = op ∧ p.matches w = true
  | .stw w op => ∃ p ∈ ps.pages, p.family = .stw ∧ p.op = op ∧ p.matches w = true
  | .xchw w op => ∃ p ∈ ps.pages, p.family = .xchw ∧ p.op = op ∧ p.matches w = true

/-- The last word a list of (address, word) pairs gives for an address, with addresses reduced modulo 2^16. -/
def lastGiven (a : Word) : List (Nat × Word) → Val 16
  | [] => .undefined
  | (k, v) :: es =>
    match lastGiven a es with
    | .known u => .known u
    | .undefined => if k % 65536 = a.toNat then .known v else .undefined

/-- The signed value of a 16-bit word read as a two's complement number. -/
def signed (a : Word) : Int := a.toInt

/-- `Z`, `S`, `C`, `V` of an arithmetic result, said of the numbers: `r` is the sum of the unsigned operands and the carry
bit; `Z` iff its low 16 bits are zero, `S` its bit 15, `C` its bit 16, `V` iff the low 16 bits read as a two's complement
number are not the sum of the operands read so (10_state.md R34 to R37). -/
def FlagsOfSum (a b : Word) (c : BitVec 1) (f : FlagValues) : Prop :=
  f.z = .known (BitVec.ofBool (decide ((a.toNat + b.toNat + c.toNat) % 65536 = 0))) ∧
  f.s = .known (BitVec.ofBool ((a.toNat + b.toNat + c.toNat).testBit 15)) ∧
  f.c = .known (BitVec.ofBool (decide (65536 ≤ a.toNat + b.toNat + c.toNat))) ∧
  f.v = .known (BitVec.ofBool
    (decide (signed (BitVec.ofNat 16 (a.toNat + b.toNat + c.toNat)) ≠ signed a + signed b + (c.toNat : Int))))

/-- An operand field of three bits of the instruction word, from bit `lo` up. -/
def field3 (lo : Nat) : Expr := .un (.slice (lo + 2) lo) (.read .insn)

/-- An addition of two registers into a third, with the flags of 40_alu_families.md R93 and the register numbers in bits 11 to 9
(the destination), 8 to 6 and 5 to 3 of the word: written here from the family rules as an example of a page, not taken
from the lost ones. -/
def additionOp : Operation :=
  .seq (.arithmeticFlags (.load .reg (field3 6)) (.load .reg (field3 3)) (.const 1 0#1))
    (.assign (.store .reg (field3 9)) (.bin .add (.load .reg (field3 6)) (.load .reg (field3 3))))

/-- A conditional jump on one flag to a fixed target: the shape of 42_control_transfer.md R116, as an example of a page. -/
def jumpIf (f : Flag) (target : Word) : Operation :=
  .ite (.read (.flag f)) (.assign .pc (.const 16 target)) .skip

/-- `s'` is `s` with some flags and some words of `mem` made UNDEFINED, and nothing else changed. -/
def Blurs (s s' : State) : Prop :=
  s' = { s with mem := s'.mem, flagZ := s'.flagZ, flagS := s'.flagS, flagC := s'.flagC, flagV := s'.flagV } ∧
  (∀ f, s'.flag f = s.flag f ∨ s'.flag f = .undefined) ∧
  ∀ a, s'.word a = s.word a ∨ s'.word a = .undefined

/-- The three families of ALU instructions (40_alu_families.md R90). -/
def aluFamilies : List Family := [.arithmetic, .logical, .shiftRotate]

/-- After it has computed its temporaries the operation sets the four flags from a sum by the general definitions of
40_alu_families.md R93, refines none, and stores at most one register. -/
def setsFlagsByDefinition (op : Operation) : Bool :=
  match op.finish with
  | [.arithmeticFlags _ _ _] => true
  | [.arithmeticFlags _ _ _, .assign (.store .reg _) _] => true
  | [.assign (.store .reg _) _, .arithmeticFlags _ _ _] => true
  | _ => false

/-- `x + y + z` modulo 2^16, UNDEFINED if one of them is (40_alu_families.md R92, R97). -/
def wordSum : Val 16 → Val 16 → Val 1 → Val 16
  | .known x, .known y, .known z => .known (x + y + z.setWidth 16)
  | _, _, _ => .undefined

/-- `t` is `t'`, but that a flag which is UNDEFINED in `s` may be UNDEFINED in `t` as well, and is if the operation does not
assign it. -/
def GoesAs (op : Operation) (s t t' : State) : Prop :=
  t = { t' with flagZ := t.flagZ, flagS := t.flagS, flagC := t.flagC, flagV := t.flagV } ∧
  ∀ f, (t.flag f = t'.flag f ∨ (s.flag f = .undefined ∧ t.flag f = .undefined)) ∧
    (op.assignsFlag f = false → t.flag f = s.flag f)

/-- What every instruction but `EXTI` leaves of a state besides its own effect: `PC` advanced, nothing pending. -/
def retired (s : State) : State :=
  { s with pc := advanced s.pc, ext13 := .undefined, hasExt13 := 0#1 }

end Sys2Proof.Claims

open Sys2Proof Sys2Proof.Machine Sys2Proof.Claims

/-! ### The extended immediate instruction -/

/-- 10_state.md R40: `EXTI` completes in every state, and sets `ext13` to its 13-bit immediate and `has_ext13` to 1. -/
def Obligations.ExtiSetsExt13AndHasExt13 : Prop :=
  ∀ (imm13 : BitVec 13) (s : State),
    ∃ t, exec (.exti imm13) s = .next t ∧ t.ext13 = .known imm13 ∧ t.hasExt13 = 1#1

/-- 43_extended_immediate.md R123: the whole effect of `EXTI`: besides `ext13` and `has_ext13` it advances `PC`, and changes
nothing else. That it changes nothing else is the spec's decision D19 (log 9), not a sentence of the source. -/
def Obligations.ExtiChangesNothingElse : Prop :=
  ∀ (imm13 : BitVec 13) (s : State),
    exec (.exti imm13) s =
      .next { s with pc := advanced s.pc, ext13 := .known imm13, hasExt13 := 1#1 }

/-- 43_extended_immediate.md R125 (a): of two `EXTI` in a row the second overwrites the first; both advance `PC`. That the two
change nothing else (the whole next state is given) is R123's reading of the lost page, the spec's decision D19, which the
model takes (log 9). -/
def Obligations.SecondExtiOverwritesTheFirst : Prop :=
  ∀ (first second : BitVec 13) (s t : State),
    exec (.exti first) s = .next t →
      exec (.exti second) t =
        .next { s with pc := advanced (advanced s.pc), ext13 := .known second, hasExt13 := 1#1 }

/-- 43_extended_immediate.md R124 and 30_encoding.md R73: after `EXTI k[15:3]`, an immediate of any kind whose field has the
low three bits `k[2:0]` is `k`, for every 16-bit constant `k` (that the bits are raw is D20, log 24). -/
def Obligations.ExtendedImmediateReachesEveryConstant : Prop :=
  ∀ (k : Word) (s t : State) (kind : ImmKind) (n : Nat) (field : BitVec n),
    exec (.exti (k.extractLsb' 3 13)) s = .next t →
      field.setWidth 3 = k.setWidth 3 →
        immediate kind (.known field) t = .next (.known k)

/-- 10_state.md R42: whatever instruction a step executes, afterwards `has_ext13` is 1 and `ext13` its immediate if it was an
`EXTI`, and `has_ext13` is 0 and `ext13` UNDEFINED if it was not. -/
def Obligations.ExtendedImmediateRegistersAfterEveryStep : Prop :=
  ∀ (s t s₁ : State) (insn : Word),
    fetch s = .next (insn, s₁) → step s = .next t →
      (∀ imm13, decode s.params.pages insn = .instr (.exti imm13) →
        t.ext13 = .known imm13 ∧ t.hasExt13 = 1#1) ∧
      ((∀ imm13, decode s.params.pages insn ≠ .instr (.exti imm13)) →
        t.ext13 = .undefined ∧ t.hasExt13 = 0#1)

/-! ### The window instructions -/

/-- 41_window.md R105: where every address is populated, each of the four window instructions completes, whatever LAWFUL
operation its page gives; it leaves `has_ext13` 0 and `ext13` UNDEFINED, advances `PC` unless its page assigns it, and keeps
the flags that its page does not assign (10_state.md R21). Where some address has no memory:
`WindowInstructionsGoOnOrAreStuck`. -/
def Obligations.WindowInstructionsComplete : Prop :=
  ∀ form ∈ windowForms, ∀ (insn : Word) (op : Operation) (s : State),
    op.windowLawful = true → s.params.unpopulated = [] →
      ∃ t, exec (form insn op) s = .next t ∧ KeepsUnassignedFlags op s t ∧ t.hasExt13 = 0#1 ∧ t.ext13 = .undefined ∧
        t.params = s.params ∧ (op.assignsPc = false → t.pc = advanced s.pc)

/-- 41_window.md R105 with 20_memory.md R61: a window instruction whose page is lawful goes on, or is stuck at an address
with no memory behind it; it raises nothing and is refused nothing. -/
def Obligations.WindowInstructionsGoOnOrAreStuck : Prop :=
  ∀ form ∈ windowForms, ∀ (insn : Word) (op : Operation) (s : State),
    op.windowLawful = true →
      (∃ t, exec (form insn op) s = .next t) ∨
      (∃ a, exec (form insn op) s = .fault (.stuck a) ∧ s.populated a = false)

/-- The frame of the four window instructions with a lawful page (41_window.md R105, 10_state.md R21): the addresses stored
to are those the operation itself computes; outside them every word of `mem` reads as before, all of `mem` if the operation
stores nothing; `W` changes only if the operation assigns it; a register whose word was not stored to keeps its value while
`W` does; a flag changes only if the operation assigns it; the bus record grows at most at its end, and only if the
operation uses the bus. -/
def Obligations.WindowInstructionFrame : Prop :=
  ∀ form ∈ windowForms, ∀ (insn : Word) (op : Operation) (s t : State) (p : Progress),
    op.windowLawful = true → performInstruction insn op s = .next p →
      exec (form insn op) s = .next t →
        (∀ a, a ∉ p.stored → t.word a = s.word a) ∧
        (op.storesToMemory = false → ∀ a, t.word a = s.word a) ∧
        KeepsUnassignedFlags op s t ∧
        (op.assignsW = false → t.w = s.w) ∧
        (op.assignsW = false → ∀ (n : BitVec 3) (a : Word), s.regAddr (.known n) = .known a →
          a ∉ p.stored → t.reg n = s.reg n) ∧
        s.extLog <+: t.extLog ∧ (op.usesBus = false → t.extLog = s.extLog) ∧
        t.params = s.params

/-- 41_window.md R110 and 10_state.md R29: a window instruction whose operation is `W ← e` gives `W` the value of `e` brought
to 16 bits; no word of `mem` changes, and at once every register is the word of the new window. That `W` can come to hold
UNDEFINED, and that every register then reads UNDEFINED, is the model's inference (log 4) from 00_scope.md R16 (b) and (c);
decision D10 draws the address of such a read, and its result is UNDEFINED all the same. It speaks of the one operation
`W ← e` with `e` readable. -/
def Obligations.SettingWMovesEveryRegisterAndNoWord : Prop :=
  ∀ form ∈ windowForms, ∀ (insn : Word) (e : Expr) (s s₁ : State) (v : Val e.len),
    eval insn [] e s = .next (v, s₁) →
      ∃ t, exec (form insn (.assign .w e)) s = .next t ∧ t.w = v.resize 16 ∧
        (∀ a, t.word a = s.word a) ∧
        (∀ w', v.resize 16 = .known w' → ∀ n : BitVec 3, t.reg n = s.word (w' + n.setWidth 16)) ∧
        (v.resize 16 = .undefined → ∀ n : BitVec 3, t.reg n = .undefined) ∧
        t.pc = advanced s.pc ∧ SameFlags s t ∧ t.hasExt13 = 0#1 ∧ t.ext13 = .undefined

/-- 41_window.md R105 and 10_state.md R27: a window instruction whose operation is `Rn ← W`, with `W` known, stores `W` at the
address `W + n` and nowhere else. Where there is no memory it is stuck: that is 20_memory.md R61, the spec's decision D16,
which the model follows (log 7). It speaks of the one operation `Rn ← W`. -/
def Obligations.ReadingWIntoARegister : Prop :=
  ∀ form ∈ windowForms, ∀ (insn : Word) (e : Expr) (s s₁ : State) (v : Val e.len) (w₀ : Word) (n : BitVec 3),
    eval insn [] e s = .next (v, s₁) → v.resize 3 = .known n → s.w = .known w₀ →
      (s.populated (w₀ + n.setWidth 16) = true →
        ∃ t, exec (form insn (.assign (.store .reg e) (.read .w))) s = .next t ∧
          t.word (w₀ + n.setWidth 16) = .known w₀ ∧
          (∀ a, a ≠ w₀ + n.setWidth 16 → t.word a = s.word a) ∧
          t.w = .known w₀ ∧ t.pc = advanced s.pc ∧ SameFlags s t) ∧
      (s.populated (w₀ + n.setWidth 16) = false →
        exec (form insn (.assign (.store .reg e) (.read .w))) s = .fault (.stuck (w₀ + n.setWidth 16)))

/-- 41_window.md R110: when one instruction sets `W` and names a register, the order of its assignments decides whether the
register is addressed through the old or the new `W`. -/
def Obligations.OrderOfAssignmentsDecidesTheWindow : Prop :=
  ∀ form ∈ windowForms, ∀ (insn : Word) (s : State) (w₀ w₁ x : Word) (n : BitVec 3),
    s.w = .known w₀ → s.params.unpopulated = [] →
      (∃ t, exec (form insn (.seq (.assign .w (.const 16 w₁))
            (.assign (.store .reg (.const 3 n)) (.const 16 x)))) s = .next t ∧
          t.w = .known w₁ ∧ t.word (w₁ + n.setWidth 16) = .known x ∧
          ∀ a, a ≠ w₁ + n.setWidth 16 → t.word a = s.word a) ∧
      (∃ t, exec (form insn (.seq (.assign (.store .reg (.const 3 n)) (.const 16 x))
            (.assign .w (.const 16 w₁)))) s = .next t ∧
          t.w = .known w₁ ∧ t.word (w₀ + n.setWidth 16) = .known x ∧
          ∀ a, a ≠ w₀ + n.setWidth 16 → t.word a = s.word a)

/-- 10_state.md R28 and 41_window.md R105 (a): a step that changes `W` executed one of the four window instructions, where the
pages obey the family rules, as those of every run do (`LaunchStatesMeetTheInvariant`). -/
def Obligations.OnlyWindowInstructionsChangeW : Prop :=
  ∀ (s t s₁ : State) (insn : Word), s.params.pages.wellFormed = true →
    fetch s = .next (insn, s₁) → step s = .next t → t.w ≠ s.w →
      ∃ form ∈ windowForms, ∃ op, decode s.params.pages insn = .instr (form insn op)

/-- 41_window.md R105 (a): an operation that neither names `W` nor names a register does not depend on `W` at all: with
another `W` it does the same, and leaves that `W` as it was. -/
def Obligations.OperationsThatNameNoRegisterIgnoreW : Prop :=
  ∀ (insn : Word) (op : Operation) (s t : State) (w' : Val 16),
    op.namesW = false → op.usesRegisters = false → runOperation insn op s = .next t →
      runOperation insn op (s.setW w') = .next (t.setW w')

/-! ### The step -/

/-- 10_state.md R49: where the word at `PC` is known and the pages give an instruction of the table for it, a step is `exec`
of that instruction in that state, and nothing is added around it. -/
def Obligations.StepRunsTheDecodedInstruction : Prop :=
  ∀ (s : State) (a insn : Word) (i : Instr),
    s.pc = .known a → s.populated a = true → s.word a = .known insn →
      decode s.params.pages insn = .instr i → step s = exec i s

/-- 10_state.md R49, 30_encoding.md R78: where the word at `PC` is known, a step performs the operation of a page whose name is
lost, and is UNPREDICTABLE on a word that no page defines. -/
def Obligations.StepOnOtherWords : Prop :=
  ∀ (s : State) (a insn : Word),
    s.pc = .known a → s.populated a = true → s.word a = .known insn →
      (∀ p, decode s.params.pages insn = .unnamed p → step s = runOperation insn p.op s) ∧
      (decode s.params.pages insn = .undefinedEncoding →
        step s = .fault (.unpredictable .undefinedEncoding))

/-- 10_state.md R49: where the word at `PC` is UNDEFINED, the step executes a freely drawn word (the drawing is log 3). -/
def Obligations.StepOnAnUndefinedWord : Prop :=
  ∀ (s : State) (a : Word),
    s.pc = .known a → s.populated a = true → s.word a = .undefined →
      step s = executeDecoded (Config.undefinedBits s.draws 16)
        (decode s.params.pages (Config.undefinedBits s.draws 16)) { s with draws := s.draws + 1 }

/-- 30_encoding.md R78: a word is an undefined encoding exactly when no page encodes it. -/
def Obligations.UndefinedEncodingsAreTheWordsWithoutAPage : Prop :=
  ∀ (ps : InsnPages) (w : Word),
    decode ps w = .undefinedEncoding ↔
      (∀ p ∈ ps.pages, p.matches w = false) ∧ (∀ l, ps.exti = some l → l.matches w = false)

/-- The canonical form of `mem` (the model's, log 6), 10_state.md R42 ("`ext13` holds a defined value exactly then") and the
family rules for the pages (40_alu_families.md R98) hold after every step from a state in which they hold. -/
def Obligations.EveryStepKeepsTheInvariant : Prop :=
  ∀ s t : State, Inv s → step s = .next t → Inv t

/-- The invariant holds in every launch state, the reset state among them (10_state.md R46). 40_alu_families.md R98 and decision
D8: the pages are checked as they are supplied. Pages that obey the family rules are the machine's; what breaks them is no
`INSN_PAGES`, and without one every word is refused, as of no page (30_encoding.md R79; that the machine then has no page at
all is the model's choice, log 10). -/
def Obligations.LaunchStatesMeetTheInvariant : Prop :=
  (∀ (params : Params) (resetPc resetW : Word) (init : List (Nat × Word)),
    Inv (State.launch params resetPc resetW init) ∧
    (params.pages.wellFormed = true → (State.launch params resetPc resetW init).params = params) ∧
    (params.pages.wellFormed = false →
      ∀ w, decode (State.launch params resetPc resetW init).params.pages w = .undefinedEncoding)) ∧
  Inv State.reset

/-- 10_state.md R21 and 40_alu_families.md R96: a step that changes a flag executed an instruction whose operation assigns that
flag; so `EXTI` changes none, and an instruction that does not modify a flag preserves it, inside the ALU families and
outside. -/
def Obligations.OnlyInstructionsThatAssignAFlagChangeIt : Prop :=
  ∀ (s t s₁ : State) (insn : Word) (f : Flag),
    fetch s = .next (insn, s₁) → step s = .next t → t.flag f ≠ s.flag f →
      (∃ form ∈ windowForms, ∃ op, decode s.params.pages insn = .instr (form insn op) ∧ op.assignsFlag f = true) ∨
      (∃ p, decode s.params.pages insn = .unnamed p ∧ p.op.assignsFlag f = true)

/-- No step changes the parameters (10_state.md R20), and the record of the external bus only grows at its end
(20_memory.md R69). -/
def Obligations.StepKeepsParametersAndBusRecord : Prop :=
  ∀ s t : State, step s = .next t → t.params = s.params ∧ s.extLog <+: t.extLog

/-- 10_state.md R23 and R24: unless the operation assigns `PC`, `PC` is its value plus 1 modulo 2^16 after the instruction,
whatever the instruction; so it is too when the operation holds an assignment to `PC` that was not reached (a jump not
taken); an assignment that was reached stands; an operation `PC ← e` gives `PC` the value of `e` brought to 16 bits, where
`e` reads no flag (where it does: `FlagsThatReachThePcAreDrawnOnce`). -/
def Obligations.PcAdvancesUnlessAssigned : Prop :=
  (∀ (insn : Word) (op : Operation) (s t : State),
    op.assignsPc = false → runOperation insn op s = .next t → t.pc = advanced s.pc) ∧
  (∀ (imm13 : BitVec 13) (s t : State), exec (.exti imm13) s = .next t → t.pc = advanced s.pc) ∧
  (∀ form ∈ windowForms, ∀ (insn : Word) (op : Operation) (s t : State),
    op.assignsPc = false → exec (form insn op) s = .next t → t.pc = advanced s.pc) ∧
  (∀ (insn : Word) (op : Operation) (s : State) (p : Progress), performInstruction insn op s = .next p →
    ∃ t, runOperation insn op s = .next t ∧
      (p.pcAssigned = false → t.pc = advanced s.pc) ∧ (p.pcAssigned = true → t.pc = p.state.pc)) ∧
  (∀ (insn : Word) (e : Expr) (s s₁ : State) (v : Val e.len), e.readsFlags = false →
    eval insn [] e s = .next (v, s₁) →
      ∃ t, runOperation insn (.assign .pc e) s = .next t ∧ t.pc = v.resize 16)

/-- 10_state.md R21: `W` and each flag are preserved by an operation that does not assign them, and every word of `mem` by an
operation that stores nothing; whatever the operation, a word at an address that it did not store to reads as before. The
addresses stored to are those that performing the operation computes. -/
def Obligations.UnassignedRegistersArePreserved : Prop :=
  ∀ (insn : Word) (op : Operation) (s t : State) (p : Progress),
    performInstruction insn op s = .next p → runOperation insn op s = .next t →
      (op.assignsW = false → t.w = s.w) ∧
      (∀ f, op.assignsFlag f = false → t.flag f = s.flag f) ∧
      (op.storesToMemory = false → ∀ a, t.word a = s.word a) ∧
      (∀ a, a ∉ p.stored → t.word a = s.word a)

/-- 40_alu_families.md R98 with 20_memory.md R61 and 30_encoding.md R74: an instruction whose page is lawful goes on, or is
stuck at an address with no memory behind it, or needs `decode_imm_al(3)` while `IMM_AL_3` is absent, which only an
arithmetic or logical one can. -/
def Obligations.LawfulPagesGoOnOrStopForAReason : Prop :=
  ∀ (insn : Word) (p : Page) (s : State),
    p.wellFormed = true →
      (∃ t, execUnnamed insn p s = .next t) ∨
      (∃ a, execUnnamed insn p s = .fault (.stuck a) ∧ s.populated a = false) ∨
      (execUnnamed insn p s = .refused .immAl3Absent ∧ s.params.immAl3 = none ∧
        (p.family = .arithmetic ∨ p.family = .logical))

/-- What the host's placing of a word does (log 16): the next fetch reads exactly that word; the word at `PC` alone is
changed in `mem` and has memory; every other address keeps its word and has memory exactly if it had; nothing else changes,
but that an UNDEFINED `PC` becomes 0. -/
def Obligations.PlacedWordIsFetched : Prop :=
  ∀ (s : State) (w : Nat) (a : Word), s.pc = .known a ∨ (s.pc = .undefined ∧ a = 0#16) →
    fetch (s.withFetchWord 16 w) = .next (BitVec.ofNat 16 w, s.withFetchWord 16 w) ∧
    (s.withFetchWord 16 w).pc = .known a ∧
    (s.withFetchWord 16 w).populated a = true ∧
    (∀ b, b ≠ a → (s.withFetchWord 16 w).word b = s.word b ∧ (s.withFetchWord 16 w).populated b = s.populated b) ∧
    (∃ m u, s.withFetchWord 16 w =
      { s with pc := .known a, mem := m, params := { s.params with unpopulated := u } })

/-! ### Encoding -/

/-- 00_scope.md R18, 30_encoding.md R77: whatever well-formed pages the hardware has, the word of every instruction they
hold decodes to that instruction: every bit of `imm13` and of the window instructions' words is kept. -/
def Obligations.DecodeOfEncodeIsTheInstruction : Prop :=
  ∀ (ps : InsnPages) (i : Instr),
    ps.wellFormed = true → HeldBy ps i →
      ∃ w, encode ps i = some w ∧ decode ps w = .instr i

/-- 30_encoding.md R77: the other direction: a word that decodes to an instruction is the word of that instruction. -/
def Obligations.EncodeOfDecodeIsTheWord : Prop :=
  ∀ (ps : InsnPages) (w : Word) (i : Instr),
    ps.wellFormed = true → decode ps w = .instr i → encode ps i = some w

/-- 30_encoding.md R77: `EXTI` occupies 8192 of the 2^16 encodings, wherever its bits stand. -/
def Obligations.ExtiOccupiesOneEighthOfTheEncodings : Prop :=
  ∀ l : ExtiLayout, l.wellFormed = true →
    (Finset.univ.filter (fun w : Word => l.matches w = true)).card = 8192

/-- 10_state.md R26, 40_alu_families.md R91: no instruction restricts which register it names: under a well-formed page any two
of its register fields hold any two register numbers in some word of the page, the same number too, and one number if they
are one field. The fields are those of the instruction with `has_ext13` at `h` (10_state.md R41). -/
def Obligations.AnyRegisterFitsAnyRegisterField : Prop :=
  ∀ (p : Page) (h : BitVec 1) (f g : List Nat) (n k : BitVec 3),
    p.wellFormed = true → some f ∈ (p.op.under h).registerFields → some g ∈ (p.op.under h).registerFields →
      (f = g → n = k) →
        ∃ w : Word, p.matches w = true ∧ gatherBits w f = n.toNat ∧ gatherBits w g = k.toNat

/-- A SAMPLE layout of `EXTI`, not the manual's, of which no bit survives: the three identifying bits `101` lowest, the
immediate above them. -/
def Sys2Proof.Claims.sampleLayout : ExtiLayout :=
  { immBits := [3, 4, 5, 6, 7, 8, 9, 10, 11, 12, 13, 14, 15], opcode := 0x0005 }

/-- Under a SAMPLE layout (no encoding survives in the manual) a few words written out bit by bit decode as 30_encoding.md
R77 says an `EXTI` does; a word with other identifying bits has no page. -/
def Obligations.ExtiWordsOfASampleLayout : Prop :=
  decode { exti := some sampleLayout, pages := [] } 0b0101010111100101#16 = .instr (.exti 0b0101010111100#13) ∧
  decode { exti := some sampleLayout, pages := [] } 0b1111111111111101#16 = .instr (.exti 0b1111111111111#13) ∧
  decode { exti := some sampleLayout, pages := [] } 0b1000000000000101#16 = .instr (.exti 0b1000000000000#13) ∧
  decode { exti := some sampleLayout, pages := [] } 0b0000000000001101#16 = .instr (.exti 0b0000000000001#13) ∧
  decode { exti := some sampleLayout, pages := [] } 0b0101010111100100#16 = .undefinedEncoding

/-! ### Immediates and operators -/

/-- 00_scope.md R14: `decode_imm_sr` gives a count from 1 to 8: 8 for 0, and itself for every other `op`. -/
def Obligations.ShiftAmountsAreOneToEight : Prop :=
  ∀ op : BitVec 3,
    (decodeImmSr op).toNat = (if op.toNat = 0 then 8 else op.toNat) ∧
    1 ≤ (decodeImmSr op).toNat ∧ (decodeImmSr op).toNat ≤ 8

/-- 30_encoding.md R74, R75 and R76: with `has_ext13` 0 an immediate of the ALU families is the entry of its table, and one of
another instruction with a narrower field is that field sign-extended; entry 3 of `decode_imm_al` is `IMM_AL_3`, and is
refused while that is absent (decision D7, log 18). -/
def Obligations.ShortImmediatesAreTableEntries : Prop :=
  ∀ (s : State), s.hasExt13 = 0#1 →
    (∀ op : BitVec 3, immediate (.table .sr) (.known op) s = .next (.known (decodeImmSr op))) ∧
    immediate (.table .al) (.known 0#3) s = .next (.known 0x0000#16) ∧
    immediate (.table .al) (.known 1#3) s = .next (.known 0x0001#16) ∧
    immediate (.table .al) (.known 2#3) s = .next (.known 0x8000#16) ∧
    (∀ v, s.params.immAl3 = some v → immediate (.table .al) (.known 3#3) s = .next (.known v)) ∧
    (s.params.immAl3 = none → immediate (.table .al) (.known 3#3) s = .refused .immAl3Absent) ∧
    immediate (.table .al) (.known 4#3) s = .next (.known 0x00FF#16) ∧
    immediate (.table .al) (.known 5#3) s = .next (.known 0xFF00#16) ∧
    immediate (.table .al) (.known 6#3) s = .next (.known 0x7FFF#16) ∧
    immediate (.table .al) (.known 7#3) s = .next (.known 0xFFFF#16) ∧
    (∀ (n : Nat) (field : BitVec n), immediate .sext (.known field) s = .next (.known (signExtend16 field)))

/-- 00_scope.md R12: `sign_extend_16` of an `n`-bit value, `1 ≤ n ≤ 16`, keeps its bits and replicates the high one. -/
def Obligations.SignExtensionReplicatesTheHighBit : Prop :=
  ∀ (n : Nat) (v : BitVec n), 1 ≤ n → n ≤ 16 →
    ∀ i < 16, (signExtend16 v).getLsbD i = (if i < n then v.getLsbD i else v.getLsbD (n - 1))

/-- 00_scope.md R9: `+` on operands of any lengths gives their whole sum, one bit longer than the longer; so the high bit is
the carry; and the three-term sum of two words and a carry bit is whole in 17 bits. -/
def Obligations.SumsKeepTheirCarry : Prop :=
  (∀ (m n : Nat) (a : BitVec m) (b : BitVec n), (addWithCarryBit a b).toNat = a.toNat + b.toNat) ∧
  (∀ (a b : Word) (c : BitVec 1), (sumBits a b c).toNat = a.toNat + b.toNat + c.toNat)

/-- 00_scope.md R16 (b): an operator with an UNDEFINED input gives an UNDEFINED result, whatever its other input is; so does a
table decoder, and so does an immediate operand built from an UNDEFINED field, whether it is short or extended, or from an
UNDEFINED `ext13`. -/
def Obligations.UndefinedInputsGiveUndefinedResults : Prop :=
  (∀ (o : UnOp) (n : Nat), o.apply (.undefined : Val n) = .undefined) ∧
  (∀ (o : BinOp) (m n : Nat) (a : Val m) (b : Val n), a = .undefined ∨ b = .undefined → o.apply a b = .undefined) ∧
  (∀ (t : ImmTable) (s : State), decodeImm t .undefined s = .next .undefined) ∧
  (∀ (k : ImmKind) (n : Nat) (s : State), immediate k (.undefined : Val n) s = .next .undefined) ∧
  (∀ (k : ImmKind) (n : Nat) (field : Val n) (s : State), s.hasExt13 = 1#1 → s.ext13 = .undefined →
    immediate k field s = .next .undefined)

/-- 00_scope.md R6 to R11 on known bits, said of the numbers: concatenation, repetition, comparison, and the bitwise operators with
the shorter operand zero-extended. -/
def Obligations.OperatorsOnKnownBits : Prop :=
  (∀ (m n : Nat) (a : BitVec m) (b : BitVec n),
    (BinOp.cat.bits a b).toNat = a.toNat * 2 ^ n + b.toNat) ∧
  (∀ (m n : Nat) (a : BitVec m) (b : BitVec n) (i : Nat),
    (BinOp.and.bits a b).getLsbD i = (a.getLsbD i && b.getLsbD i) ∧
    (BinOp.or.bits a b).getLsbD i = (a.getLsbD i || b.getLsbD i) ∧
    (BinOp.xor.bits a b).getLsbD i = (a.getLsbD i ^^ b.getLsbD i)) ∧
  (∀ (m n : Nat) (a : BitVec m) (b : BitVec n),
    (BinOp.eq.bits a b = 1#1 ↔ a.toNat = b.toNat) ∧ (BinOp.ne.bits a b = 1#1 ↔ a.toNat ≠ b.toNat)) ∧
  (∀ (n k : Nat) (a : BitVec n) (i : Nat),
    (UnOp.bits (.rep k) a).getLsbD i = (decide (i < n * k) && a.getLsbD (i % n))) ∧
  (∀ (n hi lo : Nat) (a : BitVec n) (i : Nat),
    (UnOp.bits (.slice hi lo) a).getLsbD i = (decide (i < hi - lo + 1) && a.getLsbD (lo + i))) ∧
  (∀ (n : Nat) (a : BitVec n) (i : Nat), (UnOp.bits .not a).getLsbD i = (decide (i < n) && !a.getLsbD i))

/-! ### Flags -/

/-- 10_state.md R34 to R37 (40_alu_families.md R93), with `V` by the words of R37, "is not the true result of the operation":
the flags of `a + b + c`; all four are UNDEFINED if an operand is (40_alu_families.md R97). The formula the model computes
`V` by is log 12. -/
def Obligations.ArithmeticFlagsDescribeTheSum : Prop :=
  (∀ (a b : Word) (c : BitVec 1), FlagsOfSum a b c (arithmeticFlags (.known a) (.known b) (.known c))) ∧
  (∀ (a b : Val 16) (c : Val 1), a = .undefined ∨ b = .undefined ∨ c = .undefined →
    arithmeticFlags a b c = { z := .undefined, s := .undefined, c := .undefined, v := .undefined })

/-- 10_state.md R34, R35, R36: of an arithmetic and of a logical result alike, `Z` says whether the low 16 bits are zero and `S`
is bit 15; `C` is bit 16 of an arithmetic result and UNDEFINED after a logical one. Of a result that is UNDEFINED all four
are UNDEFINED (40_alu_families.md R97). -/
def Obligations.ZeroSignAndCarryFlags : Prop :=
  (∀ (a b : Word) (c : BitVec 1),
    ((arithmeticFlags (.known a) (.known b) (.known c)).z = .known 1#1 ↔ (sumBits a b c).toNat % 65536 = 0) ∧
    ((arithmeticFlags (.known a) (.known b) (.known c)).z = .known 0#1 ↔ (sumBits a b c).toNat % 65536 ≠ 0) ∧
    (arithmeticFlags (.known a) (.known b) (.known c)).s = .known (BitVec.ofBool ((sumBits a b c).getLsbD 15)) ∧
    (arithmeticFlags (.known a) (.known b) (.known c)).c = .known (BitVec.ofBool ((sumBits a b c).getLsbD 16))) ∧
  (∀ r : Word,
    ((logicalFlags (.known r)).z = .known 1#1 ↔ r = 0#16) ∧
    ((logicalFlags (.known r)).z = .known 0#1 ↔ r ≠ 0#16) ∧
    (logicalFlags (.known r)).s = .known (BitVec.ofBool (r.getLsbD 15)) ∧
    (logicalFlags (.known r)).c = .undefined) ∧
  logicalFlags .undefined = { z := .undefined, s := .undefined, c := .undefined, v := .undefined }

/-- 40_alu_families.md R94, the whole next state of an operation that only sets flags from a logical result `r`: `C` and `V`
UNDEFINED, `Z` and `S` from `r`, `PC` advanced, `ext13` UNDEFINED and `has_ext13` 0 as after every instruction but `EXTI`,
and nothing else changed. -/
def Obligations.LogicalFlagsLeaveCarryAndOverflowUndefined : Prop :=
  ∀ (insn r : Word) (s : State),
    runOperation insn (.logicalFlags (.const 16 r)) s =
      .next { retired s with
        flagZ := .known (BitVec.ofBool (decide (r.toNat = 0)))
        flagS := .known (BitVec.ofBool (decide (32768 ≤ r.toNat)))
        flagC := .undefined
        flagV := .undefined }

/-- 40_alu_families.md R94 on every page of a logical instruction: there is one 16-bit result `r`; the instruction leaves all four
flags as they were, or it leaves `C` and `V` UNDEFINED and `Z` and `S` those of `r`; and if it stores one result at most, every
word of `mem` is what it was or is `r`. So the flags are those of the result that is stored, if one is, and never is `C` or
`V` known or an old value beside a new `Z` and `S`. -/
def Obligations.LogicalInstructionsLeaveCarryAndOverflowUndefined : Prop :=
  ∀ (insn : Word) (p : Page) (s t : State),
    p.wellFormed = true → p.family = .logical → s.mem.wf = true → execUnnamed insn p s = .next t →
      ∃ r : Val 16,
        (SameFlags s t ∨
          (t.flagC = .undefined ∧ t.flagV = .undefined ∧ t.flagZ = r.map zeroFlag ∧ t.flagS = r.map signFlag)) ∧
        ((p.op.under s.hasExt13).results.length ≤ 1 → ∀ a, t.word a = s.word a ∨ t.word a = r)

/-- 40_alu_families.md R92 and R93 on every page of an arithmetic instruction that sets its flags by the general definitions
and refines none ("a page could refine them"): there are operands `x`, `y` and a carry bit `z` such that the flags are those
of `x + y + z`, and every word of `mem` is what it was or is that sum modulo 2^16, UNDEFINED with an operand (R97). -/
def Obligations.ArithmeticInstructionsSetTheFlagsOfTheirResult : Prop :=
  ∀ (insn : Word) (p : Page) (s t : State),
    p.wellFormed = true → p.family = .arithmetic → setsFlagsByDefinition (p.op.under s.hasExt13) = true → s.mem.wf = true →
      execUnnamed insn p s = .next t →
        ∃ (x y : Val 16) (z : Val 1),
          { z := t.flagZ, s := t.flagS, c := t.flagC, v := t.flagV } = arithmeticFlags x y z ∧
          ∀ a, t.word a = s.word a ∨ t.word a = wordSum x y z

/-- What a choice does in an operation. On a known condition it performs the branch. On an UNDEFINED one, if both branches only
compute a value, the temporaries that they could assign become UNDEFINED and nothing else changes, nothing drawn
(00_scope.md R16 (b), 40_alu_families.md R97; that a choice of values is an operation in that sense is the model's reading,
log 13); any other choice draws the bit (decision D10). -/
def Obligations.ChoicesOnKnownAndUndefinedConditions : Prop :=
  ∀ (insn : Word) (c : Expr) (a b : Operation) (p : Progress) (s₁ : State) (v : Val c.len),
    eval insn p.temps c p.state = .next (v, s₁) →
      (∀ x, v = .known x →
        perform insn (.ite c a b) p = perform insn (if x.setWidth 1 = 1#1 then a else b) { p with state := s₁ }) ∧
      (v = .undefined → (a.isPure && b.isPure) = true →
        ∃ q, perform insn (.ite c a b) p = .next q ∧ q.state = s₁ ∧ q.pcAssigned = p.pcAssigned ∧ q.stored = p.stored ∧
          ∀ i n, readTemporary q.temps i n =
            if i ∈ (a.temporaries ++ b.temporaries).map Prod.fst then .undefined else readTemporary p.temps i n) ∧
      (v = .undefined → (a.isPure && b.isPure) = false →
        perform insn (.ite c a b) p =
          perform insn (if Config.undefinedBits s₁.draws 1 = 1#1 then a else b)
            { p with state := { s₁ with draws := s₁.draws + 1 } })

/-- 40_alu_families.md R97 with 00_scope.md R16, on every page of an ALU instruction: in a state where more of the flags and of
the words of `mem` are UNDEFINED it goes on too, and every flag and word it leaves is then UNDEFINED or what it was before:
an UNDEFINED operand never decides which known result there is. `W` is known, so that the registers have addresses. -/
def Obligations.UndefinedOperandsOnlyMakeAluResultsUndefined : Prop :=
  ∀ (insn : Word) (p : Page) (s s' t : State) (w₀ : Word),
    p.wellFormed = true → p.family ∈ aluFamilies → s.w = .known w₀ → s.mem.wf = true → s'.mem.wf = true →
      Blurs s s' → execUnnamed insn p s = .next t →
        ∃ t', execUnnamed insn p s' = .next t' ∧ Blurs t t'

/-- 40_alu_families.md R97 on every page of an ALU instruction, while `W` is known: no UNDEFINED bit pattern is drawn, so nothing
that the instruction does is decided by one. It leaves the external bus alone (R91: its operands are registers and
immediates, log 10), does not change `W`, and advances `PC`. -/
def Obligations.AluInstructionsDrawNothing : Prop :=
  ∀ (insn : Word) (p : Page) (s t : State) (w₀ : Word),
    p.wellFormed = true → p.family ∈ aluFamilies → s.w = .known w₀ → execUnnamed insn p s = .next t →
        t.draws = s.draws ∧ t.extLog = s.extLog ∧ t.w = .known w₀ ∧ t.pc = advanced s.pc ∧ t.hasExt13 = 0#1

/-- 40_alu_families.md R91 to R93 on the page of an addition, for any three registers that the word names, the same ones too:
the destination becomes the sum modulo 2^16, the flags describe the sum, every other word of `mem` is unchanged, `PC`
advances, `ext13` becomes UNDEFINED and `has_ext13` 0 as after every instruction but `EXTI`; nothing else changes. The page
is the model's example (log 1). -/
def Obligations.AdditionOfRegisters : Prop :=
  ∀ (insn : Word) (s : State) (w₀ x y : Word) (d a b : BitVec 3),
    d = insn.extractLsb' 9 3 → a = insn.extractLsb' 6 3 → b = insn.extractLsb' 3 3 →
    s.w = .known w₀ → s.params.unpopulated = [] → s.reg a = .known x → s.reg b = .known y →
      ∃ t, runOperation insn additionOp s = .next t ∧
        t.reg d = .known (x + y) ∧
        FlagsOfSum x y 0#1 { z := t.flagZ, s := t.flagS, c := t.flagC, v := t.flagV } ∧
        (∀ c, c ≠ w₀ + d.setWidth 16 → t.word c = s.word c) ∧
        t = { retired s with
          mem := t.mem, flagZ := t.flagZ, flagS := t.flagS, flagC := t.flagC, flagV := t.flagV }

/-- 40_alu_families.md R97 on the page of an addition: if a source register is UNDEFINED, the destination and all four flags
become UNDEFINED, whatever the other source is; no other word of `mem` changes. The page is the model's example (log 1). -/
def Obligations.AdditionOfAnUndefinedRegister : Prop :=
  ∀ (insn : Word) (s : State) (w₀ : Word) (d a b : BitVec 3),
    d = insn.extractLsb' 9 3 → a = insn.extractLsb' 6 3 → b = insn.extractLsb' 3 3 →
    s.w = .known w₀ → s.mem.wf = true → s.params.unpopulated = [] → s.reg a = .undefined ∨ s.reg b = .undefined →
      ∃ t, runOperation insn additionOp s = .next t ∧
        t.reg d = .undefined ∧
        (∀ c, c ≠ w₀ + d.setWidth 16 → t.word c = s.word c) ∧
        t = { retired s with
          mem := t.mem, flagZ := .undefined, flagS := .undefined, flagC := .undefined, flagV := .undefined }

/-! ### Control transfer -/

/-- 42_control_transfer.md R116, R117 and R119. First clause, a jump on any condition to any target that reads no flag (for one that
does: `FlagsThatReachThePcAreDrawnOnce`): not taken, `PC` advances; taken, it is the value of the target modulo 2^16; an
UNDEFINED condition is drawn once, for the one or the other.
Second clause, a jump on one flag to a fixed target: it jumps if the flag is 1, falls through to `PC + 1` if it is 0, and on
an UNDEFINED flag does the one or the other, as a drawn bit decides; it writes no flag and no word, and leaves `has_ext13`
0. -/
def Obligations.ConditionalJumpFollowsTheFlag : Prop :=
  (∀ (insn : Word) (c e : Expr) (s s₁ : State) (v : Val c.len),
    e.readsFlags = false → eval insn [] c s = .next (v, s₁) →
    ∀ (b : BitVec 1) (s₂ : State),
      (v.resize 1 = .known b ∧ s₂ = s₁) ∨
        (v.resize 1 = .undefined ∧ b = Config.undefinedBits s₁.draws 1 ∧ s₂ = { s₁ with draws := s₁.draws + 1 }) →
      (b = 0#1 → ∃ t, runOperation insn (.ite c (.assign .pc e) .skip) s = .next t ∧ t = { retired s₂ with pc := t.pc } ∧
        t.pc = advanced s.pc) ∧
      (∀ (u : Val e.len) (s₃ : State), b = 1#1 → eval insn [] e s₂ = .next (u, s₃) →
        ∃ t, runOperation insn (.ite c (.assign .pc e) .skip) s = .next t ∧ t = { retired s₃ with pc := t.pc } ∧
          t.pc = u.resize 16)) ∧
  ∀ (insn target : Word) (f : Flag) (s : State),
    ∃ t, runOperation insn (jumpIf f target) s = .next t ∧
      (s.flag f = .known 1#1 → t.pc = .known target) ∧
      (s.flag f = .known 0#1 → t.pc = advanced s.pc) ∧
      (s.flag f = .undefined →
        (Config.undefinedBits s.draws 1 = 1#1 → t.pc = .known target) ∧
        (Config.undefinedBits s.draws 1 = 0#1 → t.pc = advanced s.pc)) ∧
      SameFlags s t ∧ t.mem = s.mem ∧ t.w = s.w ∧ t.hasExt13 = 0#1

/-- 42_control_transfer.md R119 where the flags decide more than one choice of a jump, or the value that `PC` is assigned: the
instruction goes on exactly where it would in the state with every UNDEFINED flag drawn, to the state it would go on to;
but a flag that is UNDEFINED and that it has not assigned is UNDEFINED still. Drawing leaves no flag UNDEFINED, leaves the known
ones, and changes nothing else but `draws`. So such an instruction goes where it would go for some flags that are defined,
and nowhere else. The drawing once before the operation is the model's choice (log 31). -/
def Obligations.FlagsThatReachThePcAreDrawnOnce : Prop :=
  (∀ (insn : Word) (op : Operation) (s : State), (op.under s.hasExt13).flagsReachPc insn = true →
    (∀ t, runOperation insn op s = .next t → ∃ t', runOperation insn op s.drawFlags = .next t' ∧ GoesAs op s t t') ∧
    (∀ t', runOperation insn op s.drawFlags = .next t' → ∃ t, runOperation insn op s = .next t ∧ GoesAs op s t t')) ∧
  ∀ (s : State),
    (∀ f, ∃ b, s.drawFlags.flag f = .known b) ∧
    (∀ f b, s.flag f = .known b → s.drawFlags.flag f = .known b) ∧
    s.drawFlags = { s with
      flagZ := s.drawFlags.flagZ, flagS := s.drawFlags.flagS, flagC := s.drawFlags.flagC, flagV := s.drawFlags.flagV
      draws := s.drawFlags.draws }

/-! ### Registers and memory -/

/-- 10_state.md R27 and R30: register `n` is the word of `mem` at `W + n` modulo 2^16, in every state. -/
def Obligations.RegistersAreWordsOfTheWindow : Prop :=
  ∀ (s : State) (w₀ : Word) (n : BitVec 3), s.w = .known w₀ →
    s.regAddr (.known n) = .known (BitVec.ofNat 16 (w₀.toNat + n.toNat)) ∧
    s.reg n = s.word (BitVec.ofNat 16 (w₀.toNat + n.toNat))

/-- 10_state.md R32 (a): a write by any means to the address `W + n` changes register `n`, and to any other address does not. -/
def Obligations.AStoreIntoTheWindowChangesTheRegister : Prop :=
  ∀ (s t : State) (w₀ a : Word) (v : Val 16) (n : BitVec 3),
    s.mem.wf = true → s.w = .known w₀ → memWrite (.known a) v s = .next t →
      (a = w₀ + n.setWidth 16 → t.reg n = v) ∧ (a ≠ w₀ + n.setWidth 16 → t.reg n = s.reg n)

/-- 10_state.md R32 (b): with windows at `w` and `w + d`, register `n` of the second is register `n + d` of the first. -/
def Obligations.OverlappingWindowsShareWords : Prop :=
  ∀ (s : State) (w₀ : Word) (n d : Nat), n + d < 8 →
    (s.setW (.known (w₀ + BitVec.ofNat 16 d))).reg (BitVec.ofNat 3 n) =
      (s.setW (.known w₀)).reg (BitVec.ofNat 3 (n + d))

/-- 10_state.md R27, the source's example generalised: the operation `Rd ← Rn` sets `Rd` equal to `Rn`, UNDEFINED if that is,
and changes no other word of `mem`; beside that word only `PC` advances, `ext13` becomes UNDEFINED and `has_ext13` 0, as
after every instruction but `EXTI`. -/
def Obligations.RegisterCopySetsTheDestinationAlone : Prop :=
  ∀ (insn : Word) (s : State) (w₀ : Word) (d n : BitVec 3),
    s.mem.wf = true → s.w = .known w₀ → s.params.unpopulated = [] →
      ∃ t, runOperation insn (.assign (.store .reg (.const 3 d)) (.load .reg (.const 3 n))) s = .next t ∧
        t.reg d = s.reg n ∧ (∀ a, a ≠ w₀ + d.setWidth 16 → t.word a = s.word a) ∧
        t = { retired s with mem := t.mem }

/-- 20_memory.md R68 at a known, populated address: a read gives the content and changes nothing; a write gives the word its
new value, UNDEFINED included, leaves every other word alone and changes nothing but `mem`. -/
def Obligations.MemoryReadsGiveTheLatestWrite : Prop :=
  ∀ (s : State) (a : Word) (v : Val 16), s.mem.wf = true → s.populated a = true →
    memRead (.known a) s = .next (s.word a, s) ∧
    ∃ t, memWrite (.known a) v s = .next t ∧ t.word a = v ∧ (∀ b, b ≠ a → t.word b = s.word b) ∧
      t = { s with mem := t.mem }

/-- Accesses at an UNDEFINED address: the model's reading (log 4) of 00_scope.md R16 (b) and decision D10. The address is
drawn: `b` is the drawn address. A read of `mem` is stuck if there is no memory at `b`, and else gives UNDEFINED; a write
is stuck too, or makes the word at `b`, and no other, the value written. A read of `ext` gives UNDEFINED and is recorded at
`b` with the word the environment answered; a write is recorded at `b`, and an UNDEFINED word written to `ext` is drawn. -/
def Obligations.AccessesAtAnUndefinedAddress : Prop :=
  ∀ (s : State) (b : Word), b = Config.undefinedBits s.draws 16 →
    (s.populated b = true → memRead .undefined s = .next (.undefined, { s with draws := s.draws + 1 })) ∧
    (s.populated b = false → memRead .undefined s = .fault (.stuck b)) ∧
    (∀ v, s.mem.wf = true → s.populated b = true →
      ∃ t, memWrite .undefined v s = .next t ∧ t.word b = v ∧ (∀ a, a ≠ b → t.word a = s.word a) ∧
        t = { s with mem := t.mem, draws := s.draws + 1 }) ∧
    (∀ v, s.populated b = false → memWrite .undefined v s = .fault (.stuck b)) ∧
    extRead .undefined s =
      (.undefined, { s with draws := s.draws + 1, extLog := s.extLog ++ [.read b (s.extAnswer b)] }) ∧
    (∀ v, extWrite .undefined (.known v) s =
      { s with draws := s.draws + 1, extLog := s.extLog ++ [.write b v] }) ∧
    (∀ a, extWrite (.known a) .undefined s =
      { s with draws := s.draws + 1, extLog := s.extLog ++ [.write a b] }) ∧
    extWrite .undefined .undefined s =
      { s with draws := s.draws + 2, extLog := s.extLog ++ [.write b (Config.undefinedBits (s.draws + 1) 16)] }

/-- 20_memory.md R61: an access to an address of `mem` with no memory behind it has no step: a read, a write, a register and
the fetch are stuck there. The spec's decision D16, not the source's (log 7). -/
def Obligations.AccessesWithoutMemoryAreStuck : Prop :=
  ∀ (s : State) (a : Word), s.populated a = false →
    memRead (.known a) s = .fault (.stuck a) ∧
    (∀ v, memWrite (.known a) v s = .fault (.stuck a)) ∧
    (∀ n, s.regAddr (.known n) = .known a → loadFrom .reg (.known n) s = .fault (.stuck a)) ∧
    (s.pc = .known a → step s = .fault (.stuck a))

/-- 20_memory.md R66: a store is seen by the very next fetch; the spec's decision D15, not the source's (log 17). -/
def Obligations.AStoreIsSeenByTheNextFetch : Prop :=
  ∀ (s t : State) (a insn : Word),
    memWrite (.known a) (.known insn) s = .next t → t.pc = .known a → fetch t = .next (insn, t)

/-- 20_memory.md R69: a read of the external bus gives the word the environment answers and records it; a write records the
word; neither changes `mem` or any register. That the answer is free is the spec's decision D14 (log 8). -/
def Obligations.BusAccessesAreRecordedInOrder : Prop :=
  ∀ (s : State) (a v : Word),
    extRead (.known a) s =
      (.known (s.extAnswer a), { s with extLog := s.extLog ++ [.read a (s.extAnswer a)] }) ∧
    extWrite (.known a) (.known v) s = { s with extLog := s.extLog ++ [.write a v] }

/-! ### Reset and launch -/

/-- 10_state.md R25 and R31: the reset values of `PC` and `W` are the implementation's `RESET_PC` and `RESET_W`, by default
`0x0000` and `0xFFF8`. -/
def Obligations.ResetValuesOfPcAndW : Prop :=
  (∀ (params : Params) (resetPc resetW : Word) (init : List (Nat × Word)),
    (State.launch params resetPc resetW init).pc = .known resetPc ∧
    (State.launch params resetPc resetW init).w = .known resetW) ∧
  State.reset.pc = .known 0x0000#16 ∧ State.reset.w = .known 0xFFF8#16

/-- 10_state.md R46: after reset the flags and `ext13` are UNDEFINED, `has_ext13` is 0, and each word of `mem` is what
`INIT_MEM` gives for it last, else UNDEFINED; no bus event has happened. The values of the flags, `ext13`, `has_ext13` and
`mem` are decisions of the spec (D3 to D5; log 5, log 6). -/
def Obligations.LaunchStateHoldsInitMem : Prop :=
  ∀ (params : Params) (resetPc resetW : Word) (init : List (Nat × Word)),
    (State.launch params resetPc resetW init).flagZ = .undefined ∧
    (State.launch params resetPc resetW init).flagS = .undefined ∧
    (State.launch params resetPc resetW init).flagC = .undefined ∧
    (State.launch params resetPc resetW init).flagV = .undefined ∧
    (State.launch params resetPc resetW init).ext13 = .undefined ∧
    (State.launch params resetPc resetW init).hasExt13 = 0#1 ∧
    (State.launch params resetPc resetW init).extLog = [] ∧
    ∀ a, (State.launch params resetPc resetW init).word a = lastGiven a init

/-- 20_memory.md R55 and 70_reset_and_hazards.md R169 (a): a byte image of `2n` bytes gives `n` words at consecutive addresses,
word `k` from bytes `2k` and `2k + 1`: in little order the first of the two is the low byte, in big order the high one. An
image with an odd number of bytes gives none (log 15). -/
def Obligations.ByteImagesGiveWordsInTheChosenOrder : Prop :=
  ∀ (order : ByteOrder) (base : Nat) (bytes : List (BitVec 8)),
    (bytes.length % 2 = 1 → initMemOfBytes order base bytes = none) ∧
    (bytes.length % 2 = 0 → ∃ m, initMemOfBytes order base bytes = some m ∧ 2 * m.length = bytes.length ∧
      ∀ k b c, bytes[2 * k]? = some b → bytes[2 * k + 1]? = some c →
        m[k]? = some (base + k, match order with
          | .little => c ++ b
          | .big => b ++ c))
end

