-- ==== Sys2Proof/Laws/Memory.lean ====
section
/-!
SUPPORT. The laws of main memory: every operation keeps the canonical form, a read gives what was last written, and a write
leaves every other word alone (20_memory.md R59, R68).
-/

namespace Sys2Proof.Machine

/-- Every listed address of a canonical memory's tail lies above the head. -/
theorem Memory.wf_tail {e : Nat × Word} {m : Memory} (h : Memory.wf (e :: m) = true) : Memory.wf m = true := by
  obtain ⟨a, u⟩ := e
  cases m with
  | nil => rfl
  | cons f m => obtain ⟨b, v⟩ := f; simp [Memory.wf] at h; exact h.2

theorem Memory.wf_head_lt {a : Nat} {u : Word} {m : Memory} (h : Memory.wf ((a, u) :: m) = true) : a < 65536 := by
  induction m generalizing a u with
  | nil => simpa [Memory.wf] using h
  | cons f m ih =>
    obtain ⟨b, v⟩ := f
    simp [Memory.wf] at h
    have := ih h.2
    omega

/-- A memory stays canonical with a smaller address in front. -/
theorem Memory.wf_cons {a b : Nat} {u v : Word} {m : Memory} (hab : a < b)
    (h : Memory.wf ((b, v) :: m) = true) : Memory.wf ((a, u) :: (b, v) :: m) = true := by
  simp [Memory.wf, hab, h]

/-- The value at the head does not matter to the canonical form. -/
theorem Memory.wf_head_value {a : Nat} {u v : Word} {m : Memory} (h : Memory.wf ((a, u) :: m) = true) :
    Memory.wf ((a, v) :: m) = true := by
  cases m with
  | nil => simpa [Memory.wf] using h
  | cons f m => obtain ⟨b, x⟩ := f; simpa [Memory.wf] using h

/-- `insert` behind a smaller head keeps the canonical form of the whole. -/
theorem Memory.insert_wf_behind {k : Nat} {u : Word} {m : Memory} {a : Nat} {v : Word} (hka : k < a)
    (ha : a < 65536) (h : Memory.wf ((k, u) :: m) = true) : Memory.wf ((k, u) :: m.insert a v) = true := by
  induction m generalizing k u with
  | nil => simp [Memory.insert, Memory.wf, hka, ha]
  | cons f m ih =>
    obtain ⟨b, x⟩ := f
    have hb : k < b := by simp [Memory.wf] at h; exact h.1
    have hm := Memory.wf_tail h
    unfold Memory.insert
    split
    · next hab => exact Memory.wf_cons hka (Memory.wf_cons hab hm)
    · split
      · next hab => subst hab; exact Memory.wf_cons hb (Memory.wf_head_value hm)
      · exact Memory.wf_cons hb (ih (by omega) hm)

theorem Memory.insert_wf {m : Memory} {a : Nat} {v : Word} (ha : a < 65536) (h : m.wf = true) :
    (m.insert a v).wf = true := by
  cases m with
  | nil => simp [Memory.insert, Memory.wf, ha]
  | cons f m =>
    obtain ⟨k, u⟩ := f
    unfold Memory.insert
    split
    · next hak => exact Memory.wf_cons hak h
    · split
      · next hak => subst hak; exact Memory.wf_head_value h
      · exact Memory.insert_wf_behind (by omega) ha h

theorem Memory.erase_wf_behind {k : Nat} {u : Word} {m : Memory} {a : Nat}
    (h : Memory.wf ((k, u) :: m) = true) : Memory.wf ((k, u) :: m.erase a) = true := by
  induction m generalizing k u with
  | nil => exact h
  | cons f m ih =>
    obtain ⟨b, x⟩ := f
    have hb : k < b := by simp [Memory.wf] at h; exact h.1
    have hm := Memory.wf_tail h
    unfold Memory.erase
    split
    · cases m with
      | nil => simpa [Memory.wf] using Memory.wf_head_lt h
      | cons g m =>
        obtain ⟨c, y⟩ := g
        have hc : b < c := by simp [Memory.wf] at hm; exact hm.1
        exact Memory.wf_cons (by omega) (Memory.wf_tail hm)
    · exact Memory.wf_cons hb (ih hm)

theorem Memory.erase_wf {m : Memory} {a : Nat} (h : m.wf = true) : (m.erase a).wf = true := by
  cases m with
  | nil => rfl
  | cons f m =>
    obtain ⟨k, u⟩ := f
    unfold Memory.erase
    split
    · exact Memory.wf_tail h
    · exact Memory.erase_wf_behind h

/-- A write of one word keeps the canonical form. -/
theorem Memory.write_wf {m : Memory} {a : Nat} {v : Val 16} (ha : a < 65536) (h : m.wf = true) :
    (m.write a v).wf = true := by
  cases v with
  | known v => exact Memory.insert_wf ha h
  | undefined => exact Memory.erase_wf h

/-- `INIT_MEM` makes a canonical memory. -/
theorem Memory.ofWords_wf (init : List (Nat × Word)) : (Memory.ofWords init).wf = true := by
  have key : ∀ m : Memory, m.wf = true →
      Memory.wf (init.foldl (fun m e => m.insert (e.1 % 65536) e.2) m) = true := by
    induction init with
    | nil => exact fun m h => h
    | cons e es ih =>
      intro m h
      exact ih _ (Memory.insert_wf (Nat.mod_lt _ (by decide)) h)
  exact key [] rfl

theorem Memory.read_insert_same (m : Memory) (a : Nat) (v : Word) : (m.insert a v).read a = .known v := by
  induction m with
  | nil => simp [Memory.insert, Memory.read]
  | cons f m ih =>
    obtain ⟨k, u⟩ := f
    unfold Memory.insert
    split
    · simp [Memory.read]
    · split
      · simp [Memory.read]
      · next h1 h2 => simp [Memory.read, ih, Ne.symm h2]

theorem Memory.read_insert_other (m : Memory) {a b : Nat} (v : Word) (h : b ≠ a) :
    (m.insert a v).read b = m.read b := by
  induction m with
  | nil => simp [Memory.insert, Memory.read, Ne.symm h]
  | cons f m ih =>
    obtain ⟨k, u⟩ := f
    unfold Memory.insert
    split
    · simp [Memory.read, Ne.symm h]
    · split
      · next h1 h2 => subst h2; simp [Memory.read, Ne.symm h]
      · simp [Memory.read, ih]

theorem Memory.read_erase_other (m : Memory) {a b : Nat} (h : b ≠ a) : (m.erase a).read b = m.read b := by
  induction m with
  | nil => rfl
  | cons f m ih =>
    obtain ⟨k, u⟩ := f
    unfold Memory.erase
    split
    · next h1 => subst h1; simp [Memory.read, Ne.symm h]
    · simp [Memory.read, ih]

/-- Below its head, a canonical memory lists nothing. -/
theorem Memory.read_below {a k : Nat} {u : Word} {m : Memory} (h : Memory.wf ((k, u) :: m) = true) (hak : a < k) :
    Memory.read ((k, u) :: m) a = .undefined := by
  induction m generalizing k u with
  | nil => simp [Memory.read]; omega
  | cons f m ih =>
    obtain ⟨b, x⟩ := f
    have hb : k < b := by simp [Memory.wf] at h; exact h.1
    rw [Memory.read, if_neg (by omega)]
    exact ih (Memory.wf_tail h) (by omega)

theorem Memory.read_erase_same {m : Memory} (a : Nat) (h : m.wf = true) : (m.erase a).read a = .undefined := by
  induction m with
  | nil => rfl
  | cons f m ih =>
    obtain ⟨k, u⟩ := f
    unfold Memory.erase
    split
    · next h1 =>
      subst h1
      cases m with
      | nil => rfl
      | cons g m =>
        obtain ⟨b, x⟩ := g
        have hb : k < b := by simp [Memory.wf] at h; exact h.1
        exact Memory.read_below (Memory.wf_tail h) hb
    · next h1 => rw [Memory.read, if_neg h1]; exact ih (Memory.wf_tail h)

/-- A read after a write to the same word gives what was written. -/
theorem Memory.read_write_same {m : Memory} (a : Nat) (v : Val 16) (h : m.wf = true) : (m.write a v).read a = v := by
  cases v with
  | known v => exact Memory.read_insert_same m a v
  | undefined => exact Memory.read_erase_same a h

/-- A write leaves every other word alone. -/
theorem Memory.read_write_other (m : Memory) {a b : Nat} (v : Val 16) (h : b ≠ a) :
    (m.write a v).read b = m.read b := by
  cases v with
  | known v => exact Memory.read_insert_other m v h
  | undefined => exact Memory.read_erase_other m h

end Sys2Proof.Machine
end

