-- ==== Sys2Proof/Laws/State.lean ====
section
/-!
SUPPORT. One lemma for each field and each update of the state, and what `force` and `afterForce` do to a value.
-/

namespace Sys2Proof.Machine

@[simp] theorem State.setPc_pc (s : State) (v : Val 16) : (s.setPc v).pc = v := rfl
@[simp] theorem State.setPc_w (s : State) (v : Val 16) : (s.setPc v).w = s.w := rfl
@[simp] theorem State.setPc_flagZ (s : State) (v : Val 16) : (s.setPc v).flagZ = s.flagZ := rfl
@[simp] theorem State.setPc_flagS (s : State) (v : Val 16) : (s.setPc v).flagS = s.flagS := rfl
@[simp] theorem State.setPc_flagC (s : State) (v : Val 16) : (s.setPc v).flagC = s.flagC := rfl
@[simp] theorem State.setPc_flagV (s : State) (v : Val 16) : (s.setPc v).flagV = s.flagV := rfl
@[simp] theorem State.setPc_ext13 (s : State) (v : Val 16) : (s.setPc v).ext13 = s.ext13 := rfl
@[simp] theorem State.setPc_hasExt13 (s : State) (v : Val 16) : (s.setPc v).hasExt13 = s.hasExt13 := rfl
@[simp] theorem State.setPc_mem (s : State) (v : Val 16) : (s.setPc v).mem = s.mem := rfl
@[simp] theorem State.setPc_extLog (s : State) (v : Val 16) : (s.setPc v).extLog = s.extLog := rfl
@[simp] theorem State.setPc_params (s : State) (v : Val 16) : (s.setPc v).params = s.params := rfl
@[simp] theorem State.setPc_draws (s : State) (v : Val 16) : (s.setPc v).draws = s.draws := rfl

@[simp] theorem State.setW_pc (s : State) (v : Val 16) : (s.setW v).pc = s.pc := rfl
@[simp] theorem State.setW_w (s : State) (v : Val 16) : (s.setW v).w = v := rfl
@[simp] theorem State.setW_flagZ (s : State) (v : Val 16) : (s.setW v).flagZ = s.flagZ := rfl
@[simp] theorem State.setW_flagS (s : State) (v : Val 16) : (s.setW v).flagS = s.flagS := rfl
@[simp] theorem State.setW_flagC (s : State) (v : Val 16) : (s.setW v).flagC = s.flagC := rfl
@[simp] theorem State.setW_flagV (s : State) (v : Val 16) : (s.setW v).flagV = s.flagV := rfl
@[simp] theorem State.setW_ext13 (s : State) (v : Val 16) : (s.setW v).ext13 = s.ext13 := rfl
@[simp] theorem State.setW_hasExt13 (s : State) (v : Val 16) : (s.setW v).hasExt13 = s.hasExt13 := rfl
@[simp] theorem State.setW_mem (s : State) (v : Val 16) : (s.setW v).mem = s.mem := rfl
@[simp] theorem State.setW_extLog (s : State) (v : Val 16) : (s.setW v).extLog = s.extLog := rfl
@[simp] theorem State.setW_params (s : State) (v : Val 16) : (s.setW v).params = s.params := rfl
@[simp] theorem State.setW_draws (s : State) (v : Val 16) : (s.setW v).draws = s.draws := rfl

@[simp] theorem State.setFlags_pc (s : State) (f : FlagValues) : (s.setFlags f).pc = s.pc := rfl
@[simp] theorem State.setFlags_w (s : State) (f : FlagValues) : (s.setFlags f).w = s.w := rfl
@[simp] theorem State.setFlags_flagZ (s : State) (f : FlagValues) : (s.setFlags f).flagZ = f.z := rfl
@[simp] theorem State.setFlags_flagS (s : State) (f : FlagValues) : (s.setFlags f).flagS = f.s := rfl
@[simp] theorem State.setFlags_flagC (s : State) (f : FlagValues) : (s.setFlags f).flagC = f.c := rfl
@[simp] theorem State.setFlags_flagV (s : State) (f : FlagValues) : (s.setFlags f).flagV = f.v := rfl
@[simp] theorem State.setFlags_ext13 (s : State) (f : FlagValues) : (s.setFlags f).ext13 = s.ext13 := rfl
@[simp] theorem State.setFlags_hasExt13 (s : State) (f : FlagValues) : (s.setFlags f).hasExt13 = s.hasExt13 := rfl
@[simp] theorem State.setFlags_mem (s : State) (f : FlagValues) : (s.setFlags f).mem = s.mem := rfl
@[simp] theorem State.setFlags_extLog (s : State) (f : FlagValues) : (s.setFlags f).extLog = s.extLog := rfl
@[simp] theorem State.setFlags_params (s : State) (f : FlagValues) : (s.setFlags f).params = s.params := rfl
@[simp] theorem State.setFlags_draws (s : State) (f : FlagValues) : (s.setFlags f).draws = s.draws := rfl

@[simp] theorem State.setExt13_pc (s : State) (v : Val 13) (h : BitVec 1) : (s.setExt13 v h).pc = s.pc := rfl
@[simp] theorem State.setExt13_w (s : State) (v : Val 13) (h : BitVec 1) : (s.setExt13 v h).w = s.w := rfl
@[simp] theorem State.setExt13_flagZ (s : State) (v : Val 13) (h : BitVec 1) : (s.setExt13 v h).flagZ = s.flagZ := rfl
@[simp] theorem State.setExt13_flagS (s : State) (v : Val 13) (h : BitVec 1) : (s.setExt13 v h).flagS = s.flagS := rfl
@[simp] theorem State.setExt13_flagC (s : State) (v : Val 13) (h : BitVec 1) : (s.setExt13 v h).flagC = s.flagC := rfl
@[simp] theorem State.setExt13_flagV (s : State) (v : Val 13) (h : BitVec 1) : (s.setExt13 v h).flagV = s.flagV := rfl
@[simp] theorem State.setExt13_ext13 (s : State) (v : Val 13) (h : BitVec 1) : (s.setExt13 v h).ext13 = v := rfl
@[simp] theorem State.setExt13_hasExt13 (s : State) (v : Val 13) (h : BitVec 1) : (s.setExt13 v h).hasExt13 = h := rfl
@[simp] theorem State.setExt13_mem (s : State) (v : Val 13) (h : BitVec 1) : (s.setExt13 v h).mem = s.mem := rfl
@[simp] theorem State.setExt13_extLog (s : State) (v : Val 13) (h : BitVec 1) : (s.setExt13 v h).extLog = s.extLog := rfl
@[simp] theorem State.setExt13_params (s : State) (v : Val 13) (h : BitVec 1) : (s.setExt13 v h).params = s.params := rfl
@[simp] theorem State.setExt13_draws (s : State) (v : Val 13) (h : BitVec 1) : (s.setExt13 v h).draws = s.draws := rfl

@[simp] theorem State.setMem_pc (s : State) (m : Memory) : (s.setMem m).pc = s.pc := rfl
@[simp] theorem State.setMem_w (s : State) (m : Memory) : (s.setMem m).w = s.w := rfl
@[simp] theorem State.setMem_flagZ (s : State) (m : Memory) : (s.setMem m).flagZ = s.flagZ := rfl
@[simp] theorem State.setMem_flagS (s : State) (m : Memory) : (s.setMem m).flagS = s.flagS := rfl
@[simp] theorem State.setMem_flagC (s : State) (m : Memory) : (s.setMem m).flagC = s.flagC := rfl
@[simp] theorem State.setMem_flagV (s : State) (m : Memory) : (s.setMem m).flagV = s.flagV := rfl
@[simp] theorem State.setMem_ext13 (s : State) (m : Memory) : (s.setMem m).ext13 = s.ext13 := rfl
@[simp] theorem State.setMem_hasExt13 (s : State) (m : Memory) : (s.setMem m).hasExt13 = s.hasExt13 := rfl
@[simp] theorem State.setMem_mem (s : State) (m : Memory) : (s.setMem m).mem = m := rfl
@[simp] theorem State.setMem_extLog (s : State) (m : Memory) : (s.setMem m).extLog = s.extLog := rfl
@[simp] theorem State.setMem_params (s : State) (m : Memory) : (s.setMem m).params = s.params := rfl
@[simp] theorem State.setMem_draws (s : State) (m : Memory) : (s.setMem m).draws = s.draws := rfl

@[simp] theorem State.record_pc (s : State) (e : ExtEvent) : (s.record e).pc = s.pc := rfl
@[simp] theorem State.record_w (s : State) (e : ExtEvent) : (s.record e).w = s.w := rfl
@[simp] theorem State.record_flagZ (s : State) (e : ExtEvent) : (s.record e).flagZ = s.flagZ := rfl
@[simp] theorem State.record_flagS (s : State) (e : ExtEvent) : (s.record e).flagS = s.flagS := rfl
@[simp] theorem State.record_flagC (s : State) (e : ExtEvent) : (s.record e).flagC = s.flagC := rfl
@[simp] theorem State.record_flagV (s : State) (e : ExtEvent) : (s.record e).flagV = s.flagV := rfl
@[simp] theorem State.record_ext13 (s : State) (e : ExtEvent) : (s.record e).ext13 = s.ext13 := rfl
@[simp] theorem State.record_hasExt13 (s : State) (e : ExtEvent) : (s.record e).hasExt13 = s.hasExt13 := rfl
@[simp] theorem State.record_mem (s : State) (e : ExtEvent) : (s.record e).mem = s.mem := rfl
@[simp] theorem State.record_extLog (s : State) (e : ExtEvent) : (s.record e).extLog = s.extLog ++ [e] := rfl
@[simp] theorem State.record_params (s : State) (e : ExtEvent) : (s.record e).params = s.params := rfl
@[simp] theorem State.record_draws (s : State) (e : ExtEvent) : (s.record e).draws = s.draws := rfl

@[simp] theorem State.countDraw_pc (s : State) : s.countDraw.pc = s.pc := rfl
@[simp] theorem State.countDraw_w (s : State) : s.countDraw.w = s.w := rfl
@[simp] theorem State.countDraw_flagZ (s : State) : s.countDraw.flagZ = s.flagZ := rfl
@[simp] theorem State.countDraw_flagS (s : State) : s.countDraw.flagS = s.flagS := rfl
@[simp] theorem State.countDraw_flagC (s : State) : s.countDraw.flagC = s.flagC := rfl
@[simp] theorem State.countDraw_flagV (s : State) : s.countDraw.flagV = s.flagV := rfl
@[simp] theorem State.countDraw_ext13 (s : State) : s.countDraw.ext13 = s.ext13 := rfl
@[simp] theorem State.countDraw_hasExt13 (s : State) : s.countDraw.hasExt13 = s.hasExt13 := rfl
@[simp] theorem State.countDraw_mem (s : State) : s.countDraw.mem = s.mem := rfl
@[simp] theorem State.countDraw_extLog (s : State) : s.countDraw.extLog = s.extLog := rfl
@[simp] theorem State.countDraw_params (s : State) : s.countDraw.params = s.params := rfl
@[simp] theorem State.countDraw_draws (s : State) : s.countDraw.draws = s.draws + 1 := rfl

@[simp] theorem State.setFlag_pc (s : State) (f : Flag) (v : Val 1) : (s.setFlag f v).pc = s.pc := by
  cases f <;> rfl
@[simp] theorem State.setFlag_w (s : State) (f : Flag) (v : Val 1) : (s.setFlag f v).w = s.w := by
  cases f <;> rfl
@[simp] theorem State.setFlag_ext13 (s : State) (f : Flag) (v : Val 1) : (s.setFlag f v).ext13 = s.ext13 := by
  cases f <;> rfl
@[simp] theorem State.setFlag_hasExt13 (s : State) (f : Flag) (v : Val 1) : (s.setFlag f v).hasExt13 = s.hasExt13 := by
  cases f <;> rfl
@[simp] theorem State.setFlag_mem (s : State) (f : Flag) (v : Val 1) : (s.setFlag f v).mem = s.mem := by
  cases f <;> rfl
@[simp] theorem State.setFlag_extLog (s : State) (f : Flag) (v : Val 1) : (s.setFlag f v).extLog = s.extLog := by
  cases f <;> rfl
@[simp] theorem State.setFlag_params (s : State) (f : Flag) (v : Val 1) : (s.setFlag f v).params = s.params := by
  cases f <;> rfl
@[simp] theorem State.setFlag_draws (s : State) (f : Flag) (v : Val 1) : (s.setFlag f v).draws = s.draws := by
  cases f <;> rfl

@[simp] theorem State.flag_z (s : State) : s.flag .z = s.flagZ := rfl
@[simp] theorem State.flag_s (s : State) : s.flag .s = s.flagS := rfl
@[simp] theorem State.flag_c (s : State) : s.flag .c = s.flagC := rfl
@[simp] theorem State.flag_v (s : State) : s.flag .v = s.flagV := rfl

@[simp] theorem State.setFlag_flag_same (s : State) (f : Flag) (v : Val 1) : (s.setFlag f v).flag f = v := by
  cases f <;> rfl

theorem State.setFlag_flag_other (s : State) (f g : Flag) (v : Val 1) (h : g ≠ f) :
    (s.setFlag f v).flag g = s.flag g := by
  cases f <;> cases g <;> first | rfl | exact absurd rfl h

@[simp] theorem State.afterForce_pc (s : State) {n : Nat} (v : Val n) : (s.afterForce v).pc = s.pc := by
  cases v <;> rfl
@[simp] theorem State.afterForce_w (s : State) {n : Nat} (v : Val n) : (s.afterForce v).w = s.w := by
  cases v <;> rfl
@[simp] theorem State.afterForce_flagZ (s : State) {n : Nat} (v : Val n) : (s.afterForce v).flagZ = s.flagZ := by
  cases v <;> rfl
@[simp] theorem State.afterForce_flagS (s : State) {n : Nat} (v : Val n) : (s.afterForce v).flagS = s.flagS := by
  cases v <;> rfl
@[simp] theorem State.afterForce_flagC (s : State) {n : Nat} (v : Val n) : (s.afterForce v).flagC = s.flagC := by
  cases v <;> rfl
@[simp] theorem State.afterForce_flagV (s : State) {n : Nat} (v : Val n) : (s.afterForce v).flagV = s.flagV := by
  cases v <;> rfl
@[simp] theorem State.afterForce_ext13 (s : State) {n : Nat} (v : Val n) : (s.afterForce v).ext13 = s.ext13 := by
  cases v <;> rfl
@[simp] theorem State.afterForce_hasExt13 (s : State) {n : Nat} (v : Val n) : (s.afterForce v).hasExt13 = s.hasExt13 := by
  cases v <;> rfl
@[simp] theorem State.afterForce_mem (s : State) {n : Nat} (v : Val n) : (s.afterForce v).mem = s.mem := by
  cases v <;> rfl
@[simp] theorem State.afterForce_extLog (s : State) {n : Nat} (v : Val n) : (s.afterForce v).extLog = s.extLog := by
  cases v <;> rfl
@[simp] theorem State.afterForce_params (s : State) {n : Nat} (v : Val n) : (s.afterForce v).params = s.params := by
  cases v <;> rfl

@[simp] theorem State.force_known (s : State) {n : Nat} (v : BitVec n) : s.force (.known v) = v := rfl

@[simp] theorem State.afterForce_known (s : State) {n : Nat} (v : BitVec n) : s.afterForce (.known v) = s := rfl

@[simp] theorem State.force_undefined (s : State) {n : Nat} :
    s.force (.undefined : Val n) = Config.undefinedBits s.draws n := rfl

@[simp] theorem State.afterForce_undefined (s : State) {n : Nat} :
    s.afterForce (.undefined : Val n) = s.countDraw := rfl

@[simp] theorem Val.resize_known {m : Nat} (n : Nat) (v : BitVec m) :
    (Val.known v).resize n = .known (v.setWidth n) := rfl

@[simp] theorem Val.resize_undefined {m : Nat} (n : Nat) : (Val.undefined : Val m).resize n = .undefined := rfl

@[simp] theorem Val.resize_self {n : Nat} (v : Val n) : v.resize n = v := by
  cases v <;> simp [Val.resize, Val.map]

@[simp] theorem State.retire_w (s : State) (b : Bool) : (s.retire b).w = s.w := by
  cases b <;> rfl
@[simp] theorem State.retire_flagZ (s : State) (b : Bool) : (s.retire b).flagZ = s.flagZ := by
  cases b <;> rfl
@[simp] theorem State.retire_flagS (s : State) (b : Bool) : (s.retire b).flagS = s.flagS := by
  cases b <;> rfl
@[simp] theorem State.retire_flagC (s : State) (b : Bool) : (s.retire b).flagC = s.flagC := by
  cases b <;> rfl
@[simp] theorem State.retire_flagV (s : State) (b : Bool) : (s.retire b).flagV = s.flagV := by
  cases b <;> rfl
@[simp] theorem State.retire_mem (s : State) (b : Bool) : (s.retire b).mem = s.mem := by
  cases b <;> rfl
@[simp] theorem State.retire_extLog (s : State) (b : Bool) : (s.retire b).extLog = s.extLog := by
  cases b <;> rfl
@[simp] theorem State.retire_params (s : State) (b : Bool) : (s.retire b).params = s.params := by
  cases b <;> rfl
@[simp] theorem State.retire_draws (s : State) (b : Bool) : (s.retire b).draws = s.draws := by
  cases b <;> rfl
@[simp] theorem State.retire_ext13 (s : State) (b : Bool) : (s.retire b).ext13 = .undefined := rfl

@[simp] theorem State.retire_hasExt13 (s : State) (b : Bool) : (s.retire b).hasExt13 = 0#1 := rfl

@[simp] theorem State.retire_pc_assigned (s : State) : (s.retire true).pc = s.pc := rfl

@[simp] theorem State.retire_pc_default (s : State) : (s.retire false).pc = nextPc s.pc := rfl

end Sys2Proof.Machine
end

