-- ==== Sys2Proof/Laws/Ops.lean ====
section
/-!
SUPPORT. For each shared operation, everything it can do, said once.
-/

namespace Sys2Proof.Machine

/-! ### Sequencing -/

@[simp] theorem andThen_next {α β : Type} (a : α) (f : α → Result β) : andThen (.next a) f = f a := rfl

@[simp] theorem andThen_fault {α β : Type} (e : Fault) (f : α → Result β) : andThen (.fault e) f = .fault e := rfl

@[simp] theorem andThen_refused {α β : Type} (e : Refusal) (f : α → Result β) :
    andThen (.refused e) f = .refused e := rfl

/-- Two parts in sequence give a next result exactly when both do. -/
theorem andThen_eq_next {α β : Type} {x : Result α} {f : α → Result β} {b : β} :
    andThen x f = .next b ↔ ∃ a, x = .next a ∧ f a = .next b := by
  cases x <;> simp [andThen]

/-- The parts stop as the whole does. -/
theorem andThen_eq_fault {α β : Type} {x : Result α} {f : α → Result β} {e : Fault} :
    andThen x f = .fault e ↔ x = .fault e ∨ ∃ a, x = .next a ∧ f a = .fault e := by
  cases x <;> simp [andThen]

theorem andThen_eq_refused {α β : Type} {x : Result α} {f : α → Result β} {e : Refusal} :
    andThen x f = .refused e ↔ x = .refused e ∨ ∃ a, x = .next a ∧ f a = .refused e := by
  cases x <;> simp [andThen]

/-- Sequencing is associative. -/
theorem andThen_assoc {α β γ : Type} (x : Result α) (f : α → Result β) (g : β → Result γ) :
    andThen (andThen x f) g = andThen x fun a => andThen (f a) g := by
  cases x <;> rfl

/-! ### Reading leaves everything but the draws and the bus record alone -/

/-- `t` is `s` after reads: only the draw counter and the record of the external bus can have grown. -/
structure ReadsOnly (s t : State) : Prop where
  same : t = { s with draws := t.draws, extLog := t.extLog }
  draws : s.draws ≤ t.draws
  log : s.extLog <+: t.extLog

theorem ReadsOnly.refl (s : State) : ReadsOnly s s :=
  ⟨rfl, Nat.le_refl _, List.prefix_refl _⟩

theorem ReadsOnly.trans {s t u : State} (h : ReadsOnly s t) (k : ReadsOnly t u) : ReadsOnly s u := by
  refine ⟨?_, Nat.le_trans h.draws k.draws, h.log.trans k.log⟩
  rw [k.same, h.same]

theorem ReadsOnly.pc {s t : State} (h : ReadsOnly s t) : t.pc = s.pc := by rw [h.same]
theorem ReadsOnly.w {s t : State} (h : ReadsOnly s t) : t.w = s.w := by rw [h.same]
theorem ReadsOnly.flag {s t : State} (h : ReadsOnly s t) (f : Flag) : t.flag f = s.flag f := by
  rw [h.same]; cases f <;> rfl
theorem ReadsOnly.ext13 {s t : State} (h : ReadsOnly s t) : t.ext13 = s.ext13 := by rw [h.same]
theorem ReadsOnly.hasExt13 {s t : State} (h : ReadsOnly s t) : t.hasExt13 = s.hasExt13 := by rw [h.same]
theorem ReadsOnly.mem {s t : State} (h : ReadsOnly s t) : t.mem = s.mem := by rw [h.same]
theorem ReadsOnly.params {s t : State} (h : ReadsOnly s t) : t.params = s.params := by rw [h.same]
theorem ReadsOnly.word {s t : State} (h : ReadsOnly s t) (a : Word) : t.word a = s.word a := by
  simp [State.word, h.mem]
theorem ReadsOnly.populated {s t : State} (h : ReadsOnly s t) (a : Word) : t.populated a = s.populated a := by
  simp [State.populated, h.params]

theorem readsOnly_afterForce (s : State) {n : Nat} (v : Val n) : ReadsOnly s (s.afterForce v) := by
  cases v
  · exact ReadsOnly.refl s
  · exact ⟨rfl, Nat.le_succ _, List.prefix_refl _⟩

theorem readsOnly_record (s : State) (e : ExtEvent) : ReadsOnly s (s.record e) :=
  ⟨rfl, Nat.le_refl _, List.prefix_append _ _⟩

/-! ### The program counter and the register addresses -/

/-- The default advance of a known `PC` (10_state.md R23, R24). -/
@[simp] theorem nextPc_known (a : Word) : nextPc (.known a) = .known (a + 1#16) := by
  show Val.known ((a.setWidth 17 + (1#16).setWidth 17).setWidth 16) = .known (a + 1#16)
  congr 1
  apply BitVec.eq_of_toNat_eq
  simp

@[simp] theorem nextPc_undefined : nextPc .undefined = .undefined := rfl

/-- The address of register `n` in a known window (10_state.md R27, R30). -/
theorem regAddr_of_known {s : State} {w₀ : Word} (h : s.w = .known w₀) (n : BitVec 3) :
    s.regAddr (.known n) = .known (w₀ + n.setWidth 16) := by
  rw [State.regAddr, h]
  show Val.known ((w₀.setWidth 17 + n.setWidth 17).setWidth 16) = .known (w₀ + n.setWidth 16)
  congr 1
  apply BitVec.eq_of_toNat_eq
  simp

/-- In an UNDEFINED window no register has a known address (00_scope.md R16 (b)). -/
theorem regAddr_of_undefined {s : State} (h : s.w = .undefined) (n : Val 3) : s.regAddr n = .undefined := by
  rw [State.regAddr, h]
  cases n <;> rfl

/-- Register `n` of a known window is the word of `mem` at `W + n` (10_state.md R27). -/
theorem reg_of_known {s : State} {w₀ : Word} (h : s.w = .known w₀) (n : BitVec 3) :
    s.reg n = s.word (w₀ + n.setWidth 16) := by
  rw [State.reg, regAddr_of_known h]

@[simp] theorem Progress.start_state (s : State) : (Progress.start s).state = s := rfl
@[simp] theorem Progress.start_temps (s : State) : (Progress.start s).temps = [] := rfl
@[simp] theorem Progress.start_pcAssigned (s : State) : (Progress.start s).pcAssigned = false := rfl
@[simp] theorem Progress.start_stored (s : State) : (Progress.start s).stored = [] := rfl
@[simp] theorem Progress.start_drawn (s : State) : (Progress.start s).drawn = [] := rfl
@[simp] theorem Progress.restore_temps (p : Progress) : p.restore.temps = p.temps := rfl
@[simp] theorem Progress.restore_pcAssigned (p : Progress) : p.restore.pcAssigned = p.pcAssigned := rfl
@[simp] theorem Progress.restore_stored (p : Progress) : p.restore.stored = p.stored := rfl
@[simp] theorem Progress.restore_drawn (p : Progress) : p.restore.drawn = [] := rfl

/-! ### Memory -/

/-- What a read of `mem` can do: at a populated address it gives the content (UNDEFINED at an UNDEFINED address) and
draws at most the address; elsewhere it is stuck. -/
theorem memRead_eq (addr : Val 16) (s : State) :
    memRead addr s =
      if s.populated (s.force addr) then
        .next ((match addr with | .known a => s.word a | .undefined => .undefined), s.afterForce addr)
      else .fault (.stuck (s.force addr)) := by
  cases addr <;> rfl

theorem memRead_readsOnly {addr : Val 16} {s : State} {r : Val 16 × State} (h : memRead addr s = .next r) :
    ReadsOnly s r.2 := by
  rw [memRead_eq] at h
  split at h
  · obtain rfl := Host.Outcome.next.inj h; exact readsOnly_afterForce s addr
  · cases h

/-- What a write of `mem` can do when it goes on. -/
theorem memWrite_eq_next {addr v : Val 16} {s t : State} :
    memWrite addr v s = .next t ↔
      s.populated (s.force addr) = true ∧
        t = (s.afterForce addr).setMem (s.mem.write (s.force addr).toNat v) := by
  unfold memWrite
  split
  · next h => simp [h, eq_comm]
  · next h => simp [h]

theorem extRead_readsOnly (addr : Val 16) (s : State) : ReadsOnly s (extRead addr s).2 := by
  cases addr
  · exact readsOnly_record s _
  · exact (readsOnly_afterForce s _).trans (readsOnly_record _ _)

/-- A write to the external bus changes nothing but the record and the draws (20_memory.md R69). -/
theorem extWrite_readsOnly (addr v : Val 16) (s : State) : ReadsOnly s (extWrite addr v s) :=
  ((readsOnly_afterForce s addr).trans (readsOnly_afterForce _ v)).trans (readsOnly_record _ _)

/-! ### Expressions -/

theorem loadFrom_readsOnly {sp : Space} {n : Nat} {a : Val n} {s : State} {r : Val 16 × State}
    (h : loadFrom sp a s = .next r) : ReadsOnly s r.2 := by
  cases sp
  · exact memRead_readsOnly h
  · obtain rfl := Host.Outcome.next.inj h; exact extRead_readsOnly _ _
  · exact memRead_readsOnly h

/-- Evaluating an expression only reads. -/
theorem eval_readsOnly {insn : Word} {ts : Temporaries} {e : Expr} {s : State} {r : Val e.len × State}
    (h : eval insn ts e s = .next r) : ReadsOnly s r.2 := by
  induction e generalizing s with
  | const n v => obtain rfl := Host.Outcome.next.inj h; exact ReadsOnly.refl s
  | undef n => obtain rfl := Host.Outcome.next.inj h; exact ReadsOnly.refl s
  | read r => obtain rfl := Host.Outcome.next.inj h; exact ReadsOnly.refl s
  | temp i n => obtain rfl := Host.Outcome.next.inj h; exact ReadsOnly.refl s
  | un o a iha =>
    obtain ⟨q, hq, hr⟩ := andThen_eq_next.mp h
    obtain rfl := Host.Outcome.next.inj hr
    exact iha hq
  | bin o a b iha ihb =>
    obtain ⟨q, hq, hr⟩ := andThen_eq_next.mp h
    obtain ⟨p, hp, hr⟩ := andThen_eq_next.mp hr
    obtain rfl := Host.Outcome.next.inj hr
    exact (iha hq).trans (ihb hp)
  | load sp a iha =>
    obtain ⟨q, hq, hr⟩ := andThen_eq_next.mp h
    exact (iha hq).trans (loadFrom_readsOnly hr)
  | decodeImm t a iha =>
    obtain ⟨q, hq, hr⟩ := andThen_eq_next.mp h
    obtain ⟨v, _, hr⟩ := andThen_eq_next.mp hr
    obtain rfl := Host.Outcome.next.inj hr
    exact iha hq
  | imm k a iha =>
    obtain ⟨q, hq, hr⟩ := andThen_eq_next.mp h
    obtain ⟨v, _, hr⟩ := andThen_eq_next.mp hr
    obtain rfl := Host.Outcome.next.inj hr
    exact iha hq

/-! ### Assignments -/

/-- What a store to `mem` or to a register can do when it goes on. -/
theorem storeMem_eq_next {p q : Progress} {addr v : Val 16} :
    p.storeMem addr v = .next q ↔
      p.state.populated (p.state.force addr) = true ∧
        q = { p with
          state := (p.state.afterForce addr).setMem (p.state.mem.write (p.state.force addr).toNat v)
          stored := p.stored ++ [p.state.force addr] } := by
  unfold Progress.storeMem
  rw [andThen_eq_next]
  constructor
  · rintro ⟨t, ht, h⟩
    obtain ⟨hp, rfl⟩ := memWrite_eq_next.mp ht
    exact ⟨hp, (Host.Outcome.next.inj h).symm⟩
  · rintro ⟨hp, rfl⟩
    exact ⟨_, memWrite_eq_next.mpr ⟨hp, rfl⟩, rfl⟩

/-! ### Whole instructions -/

/-- An instruction other than `EXTI` goes on exactly when its operation does, and then it retires. -/
theorem runOperation_eq_next {insn : Word} {op : Operation} {s t : State} :
    runOperation insn op s = .next t ↔
      ∃ p, performInstruction insn op s = .next p ∧ t = p.state.retire p.pcAssigned := by
  unfold runOperation
  rw [andThen_eq_next]
  constructor
  · rintro ⟨p, hp, h⟩; exact ⟨p, hp, (Host.Outcome.next.inj h).symm⟩
  · rintro ⟨p, hp, rfl⟩; exact ⟨p, hp, rfl⟩

end Sys2Proof.Machine
end

