-- ==== Sys2Proof/Laws/Perform.lean ====
section
/-!
SUPPORT. Everything that performing an operation can do to a state, and every way it can stop, each said once.
-/

namespace Sys2Proof

/-- A property that implies another, and is absent wherever the other is. -/
theorem Operation.any_of_imp {q r : Operation → Bool} (h : ∀ o, q o = true → r o = true) {op : Operation}
    (hr : op.any r = false) : op.any q = false := by
  have one : ∀ o, r o = false → q o = false := by
    intro o ho
    cases hq : q o
    · rfl
    · rw [h o hq] at ho; cases ho
  induction op with
  | skip => exact one _ hr
  | assign p e => exact one _ hr
  | arithmeticFlags a b c => exact one _ hr
  | logicalFlags r => exact one _ hr
  | seq a b iha ihb =>
    simp only [Operation.any, Bool.or_eq_false_iff] at hr ⊢
    exact ⟨⟨one _ hr.1.1, iha hr.1.2⟩, ihb hr.2⟩
  | ite c a b iha ihb =>
    simp only [Operation.any, Bool.or_eq_false_iff] at hr ⊢
    exact ⟨⟨one _ hr.1.1, iha hr.1.2⟩, ihb hr.2⟩

/-- What no part of an operation has, no part of it has under a value of `has_ext13`. -/
theorem Operation.any_under {q : Operation → Bool} (hs : ∀ a b, q (.seq a b) = false)
    (hi : ∀ c t f t' f', q (.ite c t f) = false → q (.ite c t' f') = false) (h : BitVec 1) {op : Operation}
    (hq : op.any q = false) : (op.under h).any q = false := by
  induction op with
  | seq a b iha ihb =>
    simp only [Operation.any, Bool.or_eq_false_iff] at hq
    simp only [Operation.under, Operation.any, Bool.or_eq_false_iff]
    exact ⟨⟨hs _ _, iha hq.1.2⟩, ihb hq.2⟩
  | ite c t f iht ihf =>
    simp only [Operation.any, Bool.or_eq_false_iff] at hq
    unfold Operation.under
    split
    · split
      · exact iht hq.1.2
      · exact ihf hq.2
    · simp only [Operation.any, Bool.or_eq_false_iff]
      exact ⟨⟨hi _ _ _ _ _ hq.1.1, iht hq.1.2⟩, ihf hq.2⟩
  | _ => exact hq

theorem Operation.assignsFlag_under (h : BitVec 1) {f : Flag} {op : Operation} (hq : op.assignsFlag f = false) :
    (op.under h).assignsFlag f = false :=
  Operation.any_under (fun _ _ => rfl) (fun _ _ _ _ _ _ => rfl) h hq

theorem Operation.assignsW_under (h : BitVec 1) {op : Operation} (hq : op.assignsW = false) :
    (op.under h).assignsW = false :=
  Operation.any_under (fun _ _ => rfl) (fun _ _ _ _ _ _ => rfl) h hq

theorem Operation.assignsPc_under (h : BitVec 1) {op : Operation} (hq : op.assignsPc = false) :
    (op.under h).assignsPc = false :=
  Operation.any_under (fun _ _ => rfl) (fun _ _ _ _ _ _ => rfl) h hq

theorem Operation.storesToMemory_under (h : BitVec 1) {op : Operation} (hq : op.storesToMemory = false) :
    (op.under h).storesToMemory = false :=
  Operation.any_under (fun _ _ => rfl) (fun _ _ _ _ _ _ => rfl) h hq

theorem Operation.anyExpr_under (h : BitVec 1) {p : Expr → Bool} {op : Operation} (hq : op.anyExpr p = false) :
    (op.under h).anyExpr p = false :=
  Operation.any_under (q := Operation.ownExpr p) (fun _ _ => rfl) (fun _ _ _ _ _ k => k) h hq

/-- An operation that does not assign `PC` lets no flag reach it. -/
theorem Operation.flagsReachPc_of_assignsPc {insn : Word} {op : Operation} (h : op.assignsPc = false) :
    op.flagsReachPc insn = false := by
  have key : ∀ (chosen : Bool) (F : FlagFlow), (FlagFlow.through (sameRegister insn) op chosen F).target = F.target ∧
      (FlagFlow.through (sameRegister insn) op chosen F).decisions = F.decisions := by
    induction op with
    | assign p e =>
      intro chosen F
      cases p with
      | pc => cases h
      | temp i n => simp only [FlagFlow.through, FlagFlow.assign]; split <;> exact ⟨rfl, rfl⟩
      | store sp a =>
        cases sp
        · simp only [FlagFlow.through, FlagFlow.assign]; split <;> exact ⟨rfl, rfl⟩
        · exact ⟨rfl, rfl⟩
        · simp only [FlagFlow.through, FlagFlow.assign]; split <;> exact ⟨rfl, rfl⟩
      | _ => exact ⟨rfl, rfl⟩
    | seq a b iha ihb =>
      simp only [Operation.assignsPc, Operation.any, Bool.or_eq_false_iff] at h
      intro chosen F
      obtain ⟨a1, a2⟩ := iha h.1.2 chosen F
      obtain ⟨b1, b2⟩ := ihb h.2 chosen (FlagFlow.through (sameRegister insn) a chosen F)
      exact ⟨b1.trans a1, b2.trans a2⟩
    | ite c a b iha ihb =>
      simp only [Operation.assignsPc, Operation.any, Bool.or_eq_false_iff] at h
      intro chosen F
      obtain ⟨a1, a2⟩ := iha h.1.2 (chosen || F.reaches (sameRegister insn) c) F
      obtain ⟨b1, b2⟩ := ihb h.2 (chosen || F.reaches (sameRegister insn) c) F
      have ha : a.assignsPc = false := h.1.2
      have hb : b.assignsPc = false := h.2
      simp [FlagFlow.through, FlagFlow.join, ha, hb, a1, a2, b1, b2]
    | _ => intros; exact ⟨rfl, rfl⟩
  obtain ⟨h1, h2⟩ := key false .none
  unfold Operation.flagsReachPc
  rw [h1, h2]
  rfl

/-- An operation that does not name `W` does not assign it. -/
theorem Operation.assignsW_of_namesW {op : Operation} (h : op.namesW = false) : op.assignsW = false := by
  simp only [Operation.namesW, Bool.or_eq_false_iff] at h
  exact h.2

end Sys2Proof

namespace Sys2Proof.Machine

/-! ### What performing changes -/

/-- `q` is `p` after performing `op`: what can have changed, and what cannot. -/
structure PerformFrame (op : Operation) (p q : Progress) : Prop where
  params : q.state.params = p.state.params
  hasExt13 : q.state.hasExt13 = p.state.hasExt13
  ext13 : q.state.ext13 = p.state.ext13
  flag : ∀ f, op.assignsFlag f = false → q.state.flag f = p.state.flag f
  w : op.assignsW = false → q.state.w = p.state.w
  pc : op.assignsPc = false → q.pcAssigned = p.pcAssigned ∧ q.state.pc = p.state.pc
  log : p.state.extLog <+: q.state.extLog
  wf : p.state.mem.wf = true → q.state.mem.wf = true
  stored : ∃ l, q.stored = p.stored ++ l ∧ ∀ a, a ∉ l → q.state.word a = p.state.word a
  mem : op.storesToMemory = false → q.state.mem = p.state.mem
  drawn : ∀ f, (f ∈ q.drawn → f ∈ p.drawn) ∧ (op.assignsFlag f = false → f ∈ p.drawn → f ∈ q.drawn)

/-- Reading is within the frame of any operation. -/
theorem PerformFrame.of_readsOnly {op : Operation} {p : Progress} {s : State} (h : ReadsOnly p.state s) :
    PerformFrame op p { p with state := s } where
  params := h.params
  hasExt13 := h.hasExt13
  ext13 := h.ext13
  flag := fun f _ => h.flag f
  w := fun _ => h.w
  pc := fun _ => ⟨rfl, h.pc⟩
  log := h.log
  wf := fun k => by simpa [h.mem] using k
  stored := ⟨[], by simp, fun a _ => h.word a⟩
  mem := fun _ => h.mem
  drawn := fun _ => ⟨id, fun _ => id⟩

theorem PerformFrame.trans {op : Operation} {p q r : Progress} (h : PerformFrame op p q) (k : PerformFrame op q r) :
    PerformFrame op p r where
  params := k.params.trans h.params
  hasExt13 := k.hasExt13.trans h.hasExt13
  ext13 := k.ext13.trans h.ext13
  flag := fun f e => (k.flag f e).trans (h.flag f e)
  w := fun e => (k.w e).trans (h.w e)
  pc := fun e => ⟨(k.pc e).1.trans (h.pc e).1, (k.pc e).2.trans (h.pc e).2⟩
  log := h.log.trans k.log
  wf := fun e => k.wf (h.wf e)
  stored := by
    obtain ⟨l, hl, hw⟩ := h.stored
    obtain ⟨m, hm, kw⟩ := k.stored
    refine ⟨l ++ m, by simp [hm, hl], fun a ha => ?_⟩
    rw [List.mem_append, not_or] at ha
    rw [kw a ha.2, hw a ha.1]
  mem := fun e => (k.mem e).trans (h.mem e)
  drawn := fun f => ⟨fun e => (h.drawn f).1 ((k.drawn f).1 e), fun e m => (k.drawn f).2 e ((h.drawn f).2 e m)⟩

/-- A part of an operation changes no more than the whole may. -/
theorem PerformFrame.widen {part whole : Operation} {p q : Progress} (h : PerformFrame part p q)
    (hf : ∀ f, whole.assignsFlag f = false → part.assignsFlag f = false)
    (hw : whole.assignsW = false → part.assignsW = false)
    (hp : whole.assignsPc = false → part.assignsPc = false)
    (hm : whole.storesToMemory = false → part.storesToMemory = false) : PerformFrame whole p q where
  params := h.params
  hasExt13 := h.hasExt13
  ext13 := h.ext13
  flag := fun f e => h.flag f (hf f e)
  w := fun e => h.w (hw e)
  pc := fun e => h.pc (hp e)
  log := h.log
  wf := h.wf
  stored := h.stored
  mem := fun e => h.mem (hm e)
  drawn := fun f => ⟨(h.drawn f).1, fun e => (h.drawn f).2 (hf f e)⟩

theorem storeMem_frame {op : Operation} {p q : Progress} {addr v : Val 16} (h : p.storeMem addr v = .next q)
    (hs : op.storesToMemory = true) : PerformFrame op p q := by
  obtain ⟨_, rfl⟩ := storeMem_eq_next.mp h
  constructor <;> try simp [State.flag]
  · exact fun h => Memory.write_wf (p.state.force addr).isLt h
  · intro a ha
    simp only [State.word, State.setMem_mem]
    exact Memory.read_write_other _ _ fun e => ha (BitVec.eq_of_toNat_eq e)
  · simp [hs]

theorem assign_frame {insn : Word} {p q : Progress} {pl : Place} {n : Nat} {v : Val n} (e : Expr)
    (h : p.assign insn pl v = .next q) : PerformFrame (.assign pl e) p q := by
  cases pl with
  | pc =>
    obtain rfl := Host.Outcome.next.inj h
    constructor <;> simp [State.flag, Operation.assignsPc, Operation.any, State.word]
  | w =>
    obtain rfl := Host.Outcome.next.inj h
    constructor <;> simp [State.flag, Operation.assignsW, Operation.any, State.word]
  | flag f =>
    obtain rfl := Host.Outcome.next.inj h
    constructor <;> simp [Operation.assignsFlag, Operation.any, State.word]
    · exact fun g hg => State.setFlag_flag_other _ _ _ _ (Ne.symm hg)
    · exact fun g => ⟨fun m _ => m, fun hg m => ⟨m, Ne.symm hg⟩⟩
  | temp i k =>
    obtain rfl := Host.Outcome.next.inj h
    constructor <;> simp
  | store sp a =>
    obtain ⟨r, hr, h⟩ := andThen_eq_next.mp h
    refine (PerformFrame.of_readsOnly (eval_readsOnly hr)).trans ?_
    cases sp with
    | mem => exact storeMem_frame h (by simp [Operation.storesToMemory, Operation.any])
    | reg => exact storeMem_frame h (by simp [Operation.storesToMemory, Operation.any])
    | ext =>
      obtain rfl := Host.Outcome.next.inj h
      exact PerformFrame.of_readsOnly (p := { p with state := r.2 }) (extWrite_readsOnly _ _ _)

theorem withFlags_frame {op : Operation} {p : Progress} {fv : FlagValues} (h : ∀ f, op.assignsFlag f = true) :
    PerformFrame op p (p.withFlags p.state fv) := by
  constructor <;> simp [Progress.withFlags, h, State.word]

/-- Making temporaries UNDEFINED changes no state. -/
theorem spoil_frame {op : Operation} (p : Progress) (ts : List (Nat × Nat)) : PerformFrame op p (p.spoil ts) := by
  constructor <;> simp [Progress.spoil]

/-- Everything that performing an operation can change, when it goes on. -/
theorem perform_frame {insn : Word} {op : Operation} {p q : Progress} (h : perform insn op p = .next q) :
    PerformFrame op p q := by
  induction op generalizing p q with
  | skip =>
    obtain rfl := Host.Outcome.next.inj h
    exact PerformFrame.of_readsOnly (ReadsOnly.refl _)
  | assign pl e =>
    obtain ⟨r, hr, h⟩ := andThen_eq_next.mp h
    exact (PerformFrame.of_readsOnly (eval_readsOnly hr)).trans (assign_frame e h)
  | seq a b iha ihb =>
    obtain ⟨r, hr, h⟩ := andThen_eq_next.mp h
    refine ((iha hr).widen ?_ ?_ ?_ ?_).trans ((ihb h).widen ?_ ?_ ?_ ?_)
    all_goals simp +contextual [Operation.assignsFlag, Operation.assignsW, Operation.assignsPc,
      Operation.storesToMemory, Operation.any]
  | ite c t f iht ihf =>
    obtain ⟨r, hr, h⟩ := andThen_eq_next.mp h
    split at h
    · obtain rfl := Host.Outcome.next.inj h
      exact (PerformFrame.of_readsOnly (eval_readsOnly hr)).trans (spoil_frame _ _)
    refine (PerformFrame.of_readsOnly
      ((eval_readsOnly hr).trans (readsOnly_afterForce _ (r.1.resize 1)))).trans ?_
    split at h
    · refine (iht h).widen ?_ ?_ ?_ ?_
      all_goals simp +contextual [Operation.assignsFlag, Operation.assignsW, Operation.assignsPc,
        Operation.storesToMemory, Operation.any]
    · refine (ihf h).widen ?_ ?_ ?_ ?_
      all_goals simp +contextual [Operation.assignsFlag, Operation.assignsW, Operation.assignsPc,
        Operation.storesToMemory, Operation.any]
  | arithmeticFlags a b c =>
    obtain ⟨x, hx, h⟩ := andThen_eq_next.mp h
    obtain ⟨y, hy, h⟩ := andThen_eq_next.mp h
    obtain ⟨z, hz, h⟩ := andThen_eq_next.mp h
    obtain rfl := Host.Outcome.next.inj h
    exact (PerformFrame.of_readsOnly
      ((eval_readsOnly hx).trans ((eval_readsOnly hy).trans (eval_readsOnly hz)))).trans
        (withFlags_frame (p := { p with state := z.2 }) fun f => by simp [Operation.assignsFlag, Operation.any])
  | logicalFlags e =>
    obtain ⟨x, hx, h⟩ := andThen_eq_next.mp h
    obtain rfl := Host.Outcome.next.inj h
    exact (PerformFrame.of_readsOnly (eval_readsOnly hx)).trans
      (withFlags_frame (p := { p with state := x.2 }) fun f => by simp [Operation.assignsFlag, Operation.any])

/-! ### What a whole instruction changes -/

/-- Where no flag reaches `PC`, an operation begins with the state as it stands. -/
theorem begin_of_flagsReachPc {insn : Word} {op : Operation} (h : op.flagsReachPc insn = false) (s : State) :
    Progress.begin insn op s = Progress.start s := by
  simp [Progress.begin, h]

/-- An instruction that does not assign `PC` performs its operation on the state as it stands. -/
theorem performInstruction_of_assignsPc {insn : Word} {op : Operation} {s : State} {p : Progress}
    (h : op.assignsPc = false) :
    performInstruction insn op s = .next p ↔ perform insn (op.under s.hasExt13) (Progress.start s) = .next p := by
  unfold performInstruction
  rw [begin_of_flagsReachPc (Operation.flagsReachPc_of_assignsPc (Operation.assignsPc_under _ h)), andThen_eq_next]
  have key : ∀ q, perform insn (op.under s.hasExt13) (Progress.start s) = .next q → q.restore = q := by
    intro q hq
    have : q.drawn = [] := List.eq_nil_iff_forall_not_mem.mpr fun f m => by
      simpa using ((perform_frame hq).drawn f).1 m
    unfold Progress.restore
    rw [this]
    cases q
    cases this
    rfl
  constructor
  · rintro ⟨q, hq, h⟩
    obtain rfl := Host.Outcome.next.inj h
    rw [key q hq, hq]
  · intro hq
    exact ⟨p, hq, by rw [key p hq]⟩

/-- `t` is `s` but for the flags and the draws. -/
def DiffersInFlags (s t : State) : Prop :=
  t = { s with flagZ := t.flagZ, flagS := t.flagS, flagC := t.flagC, flagV := t.flagV, draws := t.draws }

theorem DiffersInFlags.trans {s t u : State} (h : DiffersInFlags s t) (k : DiffersInFlags t u) : DiffersInFlags s u := by
  unfold DiffersInFlags at *
  rw [h] at k
  exact k

theorem DiffersInFlags.pc {s t : State} (h : DiffersInFlags s t) : t.pc = s.pc := by rw [h]
theorem DiffersInFlags.w {s t : State} (h : DiffersInFlags s t) : t.w = s.w := by rw [h]
theorem DiffersInFlags.ext13 {s t : State} (h : DiffersInFlags s t) : t.ext13 = s.ext13 := by rw [h]
theorem DiffersInFlags.hasExt13 {s t : State} (h : DiffersInFlags s t) : t.hasExt13 = s.hasExt13 := by rw [h]
theorem DiffersInFlags.mem {s t : State} (h : DiffersInFlags s t) : t.mem = s.mem := by rw [h]
theorem DiffersInFlags.extLog {s t : State} (h : DiffersInFlags s t) : t.extLog = s.extLog := by rw [h]
theorem DiffersInFlags.params {s t : State} (h : DiffersInFlags s t) : t.params = s.params := by rw [h]
theorem DiffersInFlags.word {s t : State} (h : DiffersInFlags s t) (a : Word) : t.word a = s.word a :=
  congrArg (Memory.read · a.toNat) h.mem

theorem setFlag_differs (s : State) (f : Flag) (v : Val 1) : DiffersInFlags s (s.setFlag f v) := by
  cases f <;> rfl

theorem drawFlag_differs (s : State) (f : Flag) : DiffersInFlags s (s.drawFlag f) := by
  refine DiffersInFlags.trans ?_ (setFlag_differs _ f _)
  cases s.flag f <;> rfl

/-- Drawing the UNDEFINED flags changes nothing but those flags and the draws. -/
theorem drawFlags_differs (s : State) : DiffersInFlags s s.drawFlags :=
  (((drawFlag_differs s .z).trans (drawFlag_differs _ .s)).trans (drawFlag_differs _ .c)).trans (drawFlag_differs _ .v)

/-- Drawing flag `f` leaves every flag that is known, and every other flag. -/
theorem drawFlag_flag (s : State) (f g : Flag) :
    (s.drawFlag f).flag g = if f = g then .known (s.force (s.flag f)) else s.flag g := by
  unfold State.drawFlag
  by_cases h : f = g
  · subst h; simp
  · rw [State.setFlag_flag_other _ _ _ _ (Ne.symm h), (readsOnly_afterForce s _).flag, if_neg h]

/-- A known flag is drawn as it is. -/
theorem drawFlags_flag_known {s : State} {f : Flag} {b : BitVec 1} (h : s.flag f = .known b) :
    s.drawFlags.flag f = .known b := by
  have one : ∀ (s : State) (g : Flag), s.flag f = .known b → (s.drawFlag g).flag f = .known b := by
    intro s g h
    rw [drawFlag_flag]
    split
    · next e => subst e; rw [h]; rfl
    · exact h
  exact one _ .v (one _ .c (one _ .s (one _ .z h)))

/-- Restoring makes UNDEFINED the flags that were drawn and not assigned, and changes nothing else. -/
theorem restore_flag (p : Progress) (f : Flag) :
    p.restore.state.flag f = if f ∈ p.drawn then .undefined else p.state.flag f := by
  have key : ∀ (l : List Flag) (s : State), (l.foldl (fun s f => s.setFlag f .undefined) s).flag f =
      if f ∈ l then .undefined else s.flag f := by
    intro l
    induction l with
    | nil => intro s; rfl
    | cons g l ih =>
      intro s
      rw [List.foldl_cons, ih]
      by_cases hl : f ∈ l
      · simp [hl]
      · by_cases hg : f = g
        · subst hg; simp [hl]
        · simp [hl, hg, State.setFlag_flag_other _ _ _ _ hg]
  exact key p.drawn p.state

theorem restore_differs (p : Progress) : DiffersInFlags p.state p.restore.state := by
  have key : ∀ (l : List Flag) (s : State), DiffersInFlags s (l.foldl (fun s f => s.setFlag f .undefined) s) := by
    intro l
    induction l with
    | nil => intro s; rfl
    | cons g l ih => intro s; exact (setFlag_differs s g _).trans (ih _)
  exact key p.drawn p.state

/-- Everything that the operation of a whole instruction can change, when it goes on. -/
theorem performInstruction_frame {insn : Word} {op : Operation} {s : State} {p : Progress}
    (h : performInstruction insn op s = .next p) : PerformFrame op (Progress.start s) p := by
  obtain ⟨q, hq, h⟩ := andThen_eq_next.mp h
  obtain rfl := Host.Outcome.next.inj h
  have F : PerformFrame op (Progress.begin insn (op.under s.hasExt13) s) q :=
    (perform_frame hq).widen (fun _ => Operation.assignsFlag_under _) (Operation.assignsW_under _)
      (Operation.assignsPc_under _) (Operation.storesToMemory_under _)
  have R := restore_differs q
  have begun : Progress.begin insn (op.under s.hasExt13) s = Progress.start s ∨
      Progress.begin insn (op.under s.hasExt13) s =
        { Progress.start s with state := s.drawFlags, drawn := s.undefinedFlags } := by
    unfold Progress.begin
    split
    · exact .inr rfl
    · exact .inl rfl
  obtain ⟨B, pcs, st⟩ : DiffersInFlags s (Progress.begin insn (op.under s.hasExt13) s).state ∧
      (Progress.begin insn (op.under s.hasExt13) s).pcAssigned = false ∧
      (Progress.begin insn (op.under s.hasExt13) s).stored = [] := by
    rcases begun with e | e <;> rw [e]
    · exact ⟨rfl, rfl, rfl⟩
    · exact ⟨drawFlags_differs s, rfl, rfl⟩
  have flags : ∀ f, (if f ∈ (Progress.begin insn (op.under s.hasExt13) s).drawn then .undefined else
      (Progress.begin insn (op.under s.hasExt13) s).state.flag f) = s.flag f := by
    intro f
    rcases begun with e | e <;> rw [e]
    · simp
    · cases hf : s.flag f with
      | undefined =>
        have : f ∈ s.undefinedFlags := by
          unfold State.undefinedFlags
          cases f <;> simp [hf, Val.isUndefined]
        simp [this]
      | known b =>
        have : f ∉ s.undefinedFlags := by
          unfold State.undefinedFlags
          cases f <;> simp [hf, Val.isUndefined]
        simp [this, drawFlags_flag_known hf]
  constructor
  · exact R.params.trans (F.params.trans B.params)
  · exact R.hasExt13.trans (F.hasExt13.trans B.hasExt13)
  · exact R.ext13.trans (F.ext13.trans B.ext13)
  · intro f e
    rw [restore_flag, Progress.start_state, ← flags f, F.flag f e]
    by_cases m : f ∈ q.drawn
    · rw [if_pos m, if_pos ((F.drawn f).1 m)]
    · rw [if_neg m, if_neg fun k => m ((F.drawn f).2 e k)]
  · exact fun e => R.w.trans ((F.w e).trans B.w)
  · exact fun e => ⟨(F.pc e).1.trans pcs, R.pc.trans ((F.pc e).2.trans B.pc)⟩
  · rw [R.extLog]
    exact B.extLog ▸ F.log
  · intro e
    rw [R.mem]
    exact F.wf (by rw [B.mem]; exact e)
  · obtain ⟨l, h1, h2⟩ := F.stored
    exact ⟨l, by rw [Progress.restore_stored, h1, st]; rfl, fun a ha => (R.word a).trans ((h2 a ha).trans (B.word a))⟩
  · exact fun e => R.mem.trans ((F.mem e).trans B.mem)
  · intro f
    simp

/-! ### How performing stops -/

/-- The expression decodes through `decode_imm_al`. -/
def decodesAl : Expr → Bool
  | .decodeImm t _ => decide (t = .al)
  | .imm (.table t) _ => decide (t = .al)
  | _ => false

/-- What a part of an instruction answers in state `s`: it goes on; or it is stuck where there is no memory; or, if it
decodes through `decode_imm_al` (`al`), it needs the absent entry of that table. -/
inductive Answers {α : Type} (s : State) (al : Bool) : Result α → Prop where
  | goesOn (a : α) : Answers s al (.next a)
  | isStuck (a : Word) (h : s.populated a = false) : Answers s al (.fault (.stuck a))
  | needsEntry (h : s.params.immAl3 = none) (hal : al = true) : Answers s al (.refused .immAl3Absent)

theorem Answers.andThen {α β : Type} {s : State} {al : Bool} {x : Result α} {f : α → Result β} (h : Answers s al x)
    (hf : ∀ a, x = .next a → Answers s al (f a)) : Answers s al (Machine.andThen x f) := by
  cases h with
  | goesOn a => exact hf a rfl
  | isStuck a h => exact .isStuck a h
  | needsEntry h k => exact .needsEntry h k

/-- The answer is the same seen from a state with the same parameters. -/
theorem Answers.widen {α : Type} {s t : State} {al al' : Bool} {x : Result α} (h : Answers s al x)
    (hp : t.params = s.params) (hal : al = true → al' = true) : Answers t al' x := by
  cases h with
  | goesOn a => exact .goesOn a
  | isStuck a h => exact .isStuck a (by simpa [State.populated, hp] using h)
  | needsEntry h k => exact .needsEntry (by rw [hp, h]) (hal k)

theorem memRead_answers (addr : Val 16) (s : State) (al : Bool) : Answers s al (memRead addr s) := by
  rw [memRead_eq]
  split
  · exact .goesOn _
  · next h => exact .isStuck _ (by simpa using h)

theorem memWrite_answers (addr v : Val 16) (s : State) (al : Bool) : Answers s al (memWrite addr v s) := by
  unfold memWrite
  split
  · exact .goesOn _
  · next h => exact .isStuck _ (by simpa using h)

theorem loadFrom_answers (sp : Space) {n : Nat} (a : Val n) (s : State) (al : Bool) :
    Answers s al (loadFrom sp a s) := by
  cases sp
  · exact memRead_answers _ s al
  · exact .goesOn _
  · exact memRead_answers _ s al

theorem decodeImm_answers (t : ImmTable) (op : Val 3) (s : State) :
    Answers s (decide (t = .al)) (decodeImm t op s) := by
  unfold decodeImm
  cases op with
  | undefined => exact .goesOn _
  | known op =>
    cases t with
    | sr => exact .goesOn _
    | al =>
      simp only
      split
      · exact .goesOn _
      · next h =>
        refine .needsEntry ?_ rfl
        unfold decodeImmAl at h
        split at h <;> first | cases h | exact h

theorem immediate_answers (k : ImmKind) {n : Nat} (field : Val n) (a : Expr) (s : State) :
    Answers s (decodesAl (.imm k a)) (immediate k field s) := by
  unfold immediate
  split
  · exact .goesOn _
  · cases k with
    | table t => exact (decodeImm_answers t _ s).widen rfl id
    | sext => exact .goesOn _

/-- Every answer that evaluating an expression can give. -/
theorem eval_answers (insn : Word) (ts : Temporaries) (e : Expr) (s : State) :
    Answers s (e.any decodesAl) (eval insn ts e s) := by
  induction e generalizing s with
  | const n v => exact .goesOn _
  | undef n => exact .goesOn _
  | read r => exact .goesOn _
  | temp i n => exact .goesOn _
  | un o a iha =>
    exact ((iha s).widen rfl (by simp +contextual [Expr.any])).andThen fun r _ => .goesOn _
  | bin o a b iha ihb =>
    refine ((iha s).widen rfl (by simp +contextual [Expr.any])).andThen fun r hr => ?_
    exact ((ihb r.2).widen (eval_readsOnly hr).params.symm (by simp +contextual [Expr.any])).andThen
      fun q _ => .goesOn _
  | load sp a iha =>
    refine ((iha s).widen rfl (by simp +contextual [Expr.any])).andThen fun r hr => ?_
    exact (loadFrom_answers sp r.1 r.2 _).widen (eval_readsOnly hr).params.symm id
  | decodeImm t a iha =>
    refine ((iha s).widen rfl (by simp +contextual [Expr.any])).andThen fun r hr => ?_
    exact ((decodeImm_answers t _ r.2).widen (eval_readsOnly hr).params.symm
      (by simp +contextual [Expr.any, decodesAl])).andThen fun v _ => .goesOn _
  | imm k a iha =>
    refine ((iha s).widen rfl (by simp +contextual [Expr.any])).andThen fun r hr => ?_
    exact ((immediate_answers k r.1 a r.2).widen (eval_readsOnly hr).params.symm
      (by simp +contextual [Expr.any])).andThen fun v _ => .goesOn _

theorem storeMem_answers (p : Progress) (addr v : Val 16) (al : Bool) : Answers p.state al (p.storeMem addr v) :=
  (memWrite_answers addr v p.state al).andThen fun _ _ => .goesOn _

theorem assign_answers (insn : Word) (p : Progress) (pl : Place) {n : Nat} (v : Val n) :
    Answers p.state (pl.any decodesAl) (p.assign insn pl v) := by
  cases pl with
  | pc => exact .goesOn _
  | w => exact .goesOn _
  | flag f => exact .goesOn _
  | temp i k => exact .goesOn _
  | store sp a =>
    refine (eval_answers insn p.temps a p.state).andThen fun r hr => ?_
    cases sp with
    | mem => exact (storeMem_answers { p with state := r.2 } _ _ _).widen (eval_readsOnly hr).params.symm id
    | ext => exact .goesOn _
    | reg => exact (storeMem_answers { p with state := r.2 } _ _ _).widen (eval_readsOnly hr).params.symm id

/-- Every answer that performing an operation can give. -/
theorem perform_answers (insn : Word) (op : Operation) (p : Progress) :
    Answers p.state (op.anyExpr decodesAl) (perform insn op p) := by
  induction op generalizing p with
  | skip => exact .goesOn _
  | assign pl e =>
    refine ((eval_answers insn p.temps e p.state).widen rfl ?_).andThen fun r hr => ?_
    · simp +contextual [Operation.anyExpr, Operation.any, Operation.ownExpr]
    · exact (assign_answers insn { p with state := r.2 } pl r.1).widen (eval_readsOnly hr).params.symm
        (by simp +contextual [Operation.anyExpr, Operation.any, Operation.ownExpr])
  | seq a b iha ihb =>
    refine ((iha p).widen rfl ?_).andThen fun q hq => (ihb q).widen (perform_frame hq).params.symm ?_
    all_goals simp +contextual [Operation.anyExpr, Operation.any]
  | ite c a b iha ihb =>
    refine ((eval_answers insn p.temps c p.state).widen rfl ?_).andThen fun r hr => ?_
    · simp +contextual [Operation.anyExpr, Operation.any, Operation.ownExpr]
    · split
      · exact .goesOn _
      split
      · exact (iha { p with state := r.2.afterForce _ }).widen (by simp [(eval_readsOnly hr).params])
          (by simp +contextual [Operation.anyExpr, Operation.any])
      · exact (ihb { p with state := r.2.afterForce _ }).widen (by simp [(eval_readsOnly hr).params])
          (by simp +contextual [Operation.anyExpr, Operation.any])
  | arithmeticFlags a b c =>
    refine ((eval_answers insn p.temps a p.state).widen rfl ?_).andThen fun x hx => ?_
    · simp +contextual [Operation.anyExpr, Operation.any, Operation.ownExpr]
    refine ((eval_answers insn p.temps b x.2).widen (eval_readsOnly hx).params.symm ?_).andThen fun y hy => ?_
    · simp +contextual [Operation.anyExpr, Operation.any, Operation.ownExpr]
    refine ((eval_answers insn p.temps c y.2).widen
      ((eval_readsOnly hy).params.trans (eval_readsOnly hx).params).symm ?_).andThen fun z _ => .goesOn _
    simp +contextual [Operation.anyExpr, Operation.any, Operation.ownExpr]
  | logicalFlags e =>
    refine ((eval_answers insn p.temps e p.state).widen rfl ?_).andThen fun r _ => .goesOn _
    simp +contextual [Operation.anyExpr, Operation.any, Operation.ownExpr]

/-- An operation begins with the parameters of the state. -/
theorem begin_params (insn : Word) (op : Operation) (s : State) : (Progress.begin insn op s).state.params = s.params := by
  unfold Progress.begin
  split
  · exact (drawFlags_differs s).params
  · rfl

/-- Every answer of a whole instruction other than `EXTI`. -/
theorem runOperation_answers (insn : Word) (op : Operation) (s : State) :
    Answers s (op.anyExpr decodesAl) (runOperation insn op s) := by
  refine Answers.andThen (Answers.andThen ?_ fun _ _ => .goesOn _) fun _ _ => .goesOn _
  refine (perform_answers insn (op.under s.hasExt13) _).widen (begin_params insn _ s).symm fun k => ?_
  cases hq : op.anyExpr decodesAl
  · rw [Operation.anyExpr_under _ hq] at k; cases k
  · rfl

/-- `usesTable .al` says that an expression decodes through `decode_imm_al`. -/
theorem anyExpr_decodesAl (op : Operation) : op.anyExpr decodesAl = op.usesTable .al := by
  unfold Operation.usesTable
  congr 1

end Sys2Proof.Machine
end

