-- ==== Sys2Proof/Laws/Alu.lean ====
section
/-!
SUPPORT. Everything that performing the operation of a lawful ALU page can do while `W` is known (40_alu_families.md R97): it
draws no UNDEFINED bit pattern, and UNDEFINED operands only make results UNDEFINED.
-/

namespace Sys2Proof.Machine

/-! ### Operand fields -/

/-- Bits of the instruction word have a known value in every state, and reading them changes nothing. -/
theorem eval_insnBits (insn : Word) {e : Expr} (h : e.insnBits.isSome = true) :
    ∃ v, ∀ ts s, eval insn ts e s = .next (.known v, s) := by
  induction e with
  | read r =>
    cases r with
    | insn => exact ⟨_, fun _ _ => rfl⟩
    | _ => cases h
  | un o a iha =>
    cases o with
    | slice hi lo =>
      obtain ⟨v, hv⟩ := iha (by simpa [Expr.insnBits] using h)
      exact ⟨_, fun ts s => by rw [eval, hv ts s]; rfl⟩
    | _ => cases h
  | bin o a b iha ihb =>
    cases o with
    | cat =>
      cases ha : a.insnBits <;> cases hb : b.insnBits <;> simp [Expr.insnBits, ha, hb] at h
      obtain ⟨v, hv⟩ := iha (by simp [ha])
      obtain ⟨u, hu⟩ := ihb (by simp [hb])
      exact ⟨_, fun ts s => by rw [eval, hv ts s]; simp only [andThen_next]; rw [hu ts s]; rfl⟩
    | _ => cases h
  | _ => cases h

/-- A field is a list of bits of the instruction word. -/
theorem insnBits_of_isField3 {f : Option (List Nat)} (h : isField3 f = true) : f.isSome = true := by
  cases f
  · cases h
  · rfl

/-! ### Values with more UNDEFINED in them -/

/-- `v` made UNDEFINED, or left as it is. -/
def Val.blurs {n : Nat} (v v' : Val n) : Prop := v' = v ∨ v' = .undefined

/-- A function keeps the relation: UNDEFINED in, UNDEFINED out. -/
theorem Val.blurs.map {m n : Nat} {v v' : Val m} (f : BitVec m → BitVec n) (h : Val.blurs v v') :
    Val.blurs (v.map f) (v'.map f) := by
  obtain rfl | rfl := h
  · exact .inl rfl
  · exact .inr rfl

theorem Val.blurs.resize {m : Nat} (n : Nat) {v v' : Val m} (h : Val.blurs v v') :
    Val.blurs (v.resize n) (v'.resize n) :=
  h.map _

theorem Val.blurs.map₂ {l m n : Nat} {a a' : Val l} {b b' : Val m} (f : BitVec l → BitVec m → BitVec n)
    (h : Val.blurs a a') (k : Val.blurs b b') : Val.blurs (Val.map₂ f a b) (Val.map₂ f a' b') := by
  obtain rfl | rfl := h
  · obtain rfl | rfl := k
    · exact .inl rfl
    · right; cases a' <;> rfl
  · right; cases b' <;> rfl

/-- The state `s'` is `s` but that flags and words of `mem` may be UNDEFINED. -/
structure StateBlurs (s s' : State) : Prop where
  same : s' = { s with mem := s'.mem, flagZ := s'.flagZ, flagS := s'.flagS, flagC := s'.flagC, flagV := s'.flagV }
  flag : ∀ f, Val.blurs (s.flag f) (s'.flag f)
  word : ∀ a, Val.blurs (s.word a) (s'.word a)
  wf : s.mem.wf = true
  wf' : s'.mem.wf = true

theorem StateBlurs.w {s s' : State} (h : StateBlurs s s') : s'.w = s.w := by rw [h.same]
theorem StateBlurs.pc {s s' : State} (h : StateBlurs s s') : s'.pc = s.pc := by rw [h.same]
theorem StateBlurs.ext13 {s s' : State} (h : StateBlurs s s') : s'.ext13 = s.ext13 := by rw [h.same]
theorem StateBlurs.hasExt13 {s s' : State} (h : StateBlurs s s') : s'.hasExt13 = s.hasExt13 := by rw [h.same]
theorem StateBlurs.params {s s' : State} (h : StateBlurs s s') : s'.params = s.params := by rw [h.same]
theorem StateBlurs.draws {s s' : State} (h : StateBlurs s s') : s'.draws = s.draws := by rw [h.same]

/-- Every temporary reads as it did, or as UNDEFINED. -/
def TempsBlur (ts ts' : Temporaries) : Prop :=
  ∀ i n, Val.blurs (readTemporary ts i n) (readTemporary ts' i n)

theorem TempsBlur.cons {ts ts' : Temporaries} (h : TempsBlur ts ts') (i k : Nat) {v v' : Val k} (hv : Val.blurs v v') :
    TempsBlur ((i, ⟨k, v⟩) :: ts) ((i, ⟨k, v'⟩) :: ts') := by
  intro j n
  simp only [readTemporary]
  split
  · exact hv.map _
  · exact h j n

/-! ### ALU expressions -/

/-- A table decoder depends on the parameters alone. -/
theorem decodeImm_same {t : ImmTable} {op : Val 3} {s s' : State} (hp : s'.params = s.params) :
    decodeImm t op s' = decodeImm t op s := by
  unfold decodeImm
  rw [hp]

/-- An immediate depends on the parameters and the pending immediate alone. -/
theorem immediate_same {k : ImmKind} {n : Nat} {f : Val n} {s s' : State} (hp : s'.params = s.params)
    (hx : s'.ext13 = s.ext13) (hh : s'.hasExt13 = s.hasExt13) : immediate k f s' = immediate k f s := by
  unfold immediate
  rw [hh]
  split
  · simp [extendedImm, hx]
  · cases k
    · exact decodeImm_same hp
    · rfl

/-- A settled condition reads nothing but the instruction word and `has_ext13`: it is known, reading it changes nothing, and
it has the same value in every state with the same `has_ext13`. -/
theorem eval_settled {insn : Word} {ts ts' : Temporaries} {e : Expr} {s s' : State} {r : Val e.len × State}
    (he : e.settled = true) (hh : s'.hasExt13 = s.hasExt13) (h : eval insn ts e s = .next r) :
    r.2 = s ∧ eval insn ts' e s' = .next (r.1, s') ∧ r.1.isUndefined = false := by
  induction e with
  | const n v => obtain rfl := Host.Outcome.next.inj h; exact ⟨rfl, rfl, rfl⟩
  | read x =>
    obtain rfl := Host.Outcome.next.inj h
    cases x with
    | insn => exact ⟨rfl, rfl, rfl⟩
    | hasExt13 => exact ⟨rfl, by simp [eval, readSource, hh], rfl⟩
    | _ => cases he
  | un o a iha =>
    obtain ⟨⟨v, q⟩, hq, hr⟩ := andThen_eq_next.mp h
    obtain rfl := Host.Outcome.next.inj hr
    obtain ⟨h1, h2, h3⟩ := iha he hq
    refine ⟨h1, by rw [eval, h2]; rfl, ?_⟩
    cases v
    · rfl
    · cases h3
  | bin o a b iha ihb =>
    obtain ⟨⟨v, q⟩, hq, hr⟩ := andThen_eq_next.mp h
    obtain ⟨⟨u, p⟩, hp, hr⟩ := andThen_eq_next.mp hr
    obtain rfl := Host.Outcome.next.inj hr
    simp only [Expr.settled, Bool.and_eq_true] at he
    obtain ⟨h1, h2, h3⟩ := iha he.1 hq
    dsimp only at h1 hp
    subst h1
    obtain ⟨k1, k2, k3⟩ := ihb he.2 hp
    refine ⟨k1, by rw [eval, h2]; simp only [andThen_next]; rw [k2]; rfl, ?_⟩
    cases v
    · cases u
      · rfl
      · cases k3
    · cases h3
  | _ => cases he

/-- An expression made of `ext13` and the instruction word has the same value in every state with the same `ext13`. -/
theorem eval_madeOfExt13 {insn : Word} {ts ts' : Temporaries} {e : Expr} {s s' : State} {r : Val e.len × State}
    (he : e.madeOfExt13 = true) (hx : s'.ext13 = s.ext13) (h : eval insn ts e s = .next r) :
    r.2 = s ∧ eval insn ts' e s' = .next (r.1, s') := by
  induction e with
  | const n v => obtain rfl := Host.Outcome.next.inj h; exact ⟨rfl, rfl⟩
  | read x =>
    obtain rfl := Host.Outcome.next.inj h
    cases x with
    | insn => exact ⟨rfl, rfl⟩
    | ext13 => exact ⟨rfl, by simp [eval, readSource, hx]⟩
    | _ => cases he
  | un o a iha =>
    obtain ⟨q, hq, hr⟩ := andThen_eq_next.mp h
    obtain rfl := Host.Outcome.next.inj hr
    obtain ⟨h1, h2⟩ := iha he hq
    exact ⟨h1, by rw [eval, h2]; rfl⟩
  | bin o a b iha ihb =>
    obtain ⟨q, hq, hr⟩ := andThen_eq_next.mp h
    obtain ⟨p, hp, hr⟩ := andThen_eq_next.mp hr
    obtain rfl := Host.Outcome.next.inj hr
    simp only [Expr.madeOfExt13, Bool.and_eq_true] at he
    obtain ⟨h1, h2⟩ := iha he.1 hq
    rw [h1] at hp
    obtain ⟨k1, k2⟩ := ihb he.2 hp
    exact ⟨k1, by rw [eval, h2]; simp only [andThen_next]; rw [k2]; rfl⟩
  | _ => cases he

/-- A read of a register whose window is known. -/
theorem loadFrom_reg {s : State} {w₀ : Word} (hw : s.w = .known w₀) {n : Nat} (f : BitVec n) :
    loadFrom .reg (.known f) s =
      if s.populated (w₀ + (f.setWidth 3).setWidth 16) then .next (s.word (w₀ + (f.setWidth 3).setWidth 16), s)
      else .fault (.stuck (w₀ + (f.setWidth 3).setWidth 16)) := by
  show memRead (s.regAddr (.known (f.setWidth 3))) s = _
  rw [regAddr_of_known hw]
  rfl

/-- What the read of a register named by a field can do in a known window: it gives the word, and the word at the same
address in any state with the same `W` and the same memory map. -/
theorem eval_loadReg {insn : Word} {a : Expr} {ts : Temporaries} {s : State} {w₀ : Word}
    {r : Val (Expr.load .reg a).len × State} (hw : s.w = .known w₀) (ha : a.insnBits.isSome = true)
    (h : eval insn ts (.load .reg a) s = .next r) :
    ∃ x : Word, r = (s.word x, s) ∧ ∀ ts' s', s'.w = s.w → s'.params = s.params →
      eval insn ts' (.load .reg a) s' = .next (s'.word x, s') := by
  obtain ⟨f, hf⟩ := eval_insnBits insn ha
  have key : ∀ ts s, eval insn ts (.load .reg a) s = loadFrom .reg (.known f) s := by
    intro ts s; rw [eval, hf ts s]; rfl
  rw [key, loadFrom_reg hw] at h
  split at h
  · next hpop =>
    refine ⟨_, (Host.Outcome.next.inj h).symm, fun ts' s' e1 e2 => ?_⟩
    rw [key, loadFrom_reg (e1.trans hw), if_pos (by simpa [State.populated, e2] using hpop)]
    rfl
  · cases h

/-- An immediate built from `ext13` is the same in a state with more UNDEFINED in it. -/
theorem eval_extendedImm {insn : Word} {ts : Temporaries} {e : Expr} {s : State} {r : Val e.len × State}
    (h : eval insn ts e s = .next r) (he : e.isExtendedImm = true) :
    r.2 = s ∧ ∀ ts' s', StateBlurs s s' → TempsBlur ts ts' →
      ∃ v', eval insn ts' e s' = .next (v', s') ∧ Val.blurs r.1 v' := by
  simp only [Expr.isExtendedImm, Bool.and_eq_true] at he
  exact ⟨(eval_madeOfExt13 (ts' := ts) he.1 rfl h).1, fun ts' s' b _ =>
    ⟨_, (eval_madeOfExt13 he.1 b.ext13 h).2, .inl rfl⟩⟩

/-- An operand of an ALU instruction is read without a draw, and in a state with more UNDEFINED in it gives the same value
or UNDEFINED. -/
theorem eval_alu {insn : Word} {ts : Temporaries} {e : Expr} {s : State} {w₀ : Word} {r : Val e.len × State}
    (hw : s.w = .known w₀) (he : e.aluOperands = true)
    (hf : e.registerFields.all isField3 = true) (h : eval insn ts e s = .next r) :
    r.2 = s ∧ ∀ ts' s', StateBlurs s s' → TempsBlur ts ts' →
      ∃ v', eval insn ts' e s' = .next (v', s') ∧ Val.blurs r.1 v' := by
  induction e with
  | const n v => obtain rfl := Host.Outcome.next.inj h; exact ⟨rfl, fun _ _ _ _ => ⟨_, rfl, .inl rfl⟩⟩
  | undef n => obtain rfl := Host.Outcome.next.inj h; exact ⟨rfl, fun _ _ _ _ => ⟨_, rfl, .inl rfl⟩⟩
  | read x =>
    obtain rfl := Host.Outcome.next.inj h
    refine ⟨rfl, fun ts' s' b _ => ⟨_, rfl, ?_⟩⟩
    cases x with
    | insn => cases he
    | ext13 => exact .inl b.ext13
    | pc => exact .inl b.pc
    | w => exact .inl b.w
    | hasExt13 => exact .inl (congrArg Val.known b.hasExt13)
    | flag f => exact b.flag f
  | temp i n =>
    obtain rfl := Host.Outcome.next.inj h
    exact ⟨rfl, fun ts' s' _ t => ⟨_, rfl, t i n⟩⟩
  | un o a iha =>
    simp only [Expr.aluOperands, Bool.or_eq_true] at he
    obtain he | he := he
    · exact eval_extendedImm h he
    obtain ⟨q, hq, hr⟩ := andThen_eq_next.mp h
    obtain rfl := Host.Outcome.next.inj hr
    obtain ⟨h1, h2⟩ := iha he (by simpa [Expr.registerFields] using hf) hq
    refine ⟨h1, fun ts' s' b t => ?_⟩
    obtain ⟨v', e1, e2⟩ := h2 ts' s' b t
    exact ⟨_, by rw [eval, e1]; rfl, e2.map _⟩
  | bin o a b iha ihb =>
    simp only [Expr.aluOperands, Bool.or_eq_true, Bool.and_eq_true] at he
    obtain he | he := he
    · exact eval_extendedImm h he
    obtain ⟨q, hq, hr⟩ := andThen_eq_next.mp h
    obtain ⟨p, hp, hr⟩ := andThen_eq_next.mp hr
    obtain rfl := Host.Outcome.next.inj hr
    simp only [Expr.registerFields, List.all_append, Bool.and_eq_true] at hf
    obtain ⟨h1, h2⟩ := iha he.1 hf.1 hq
    rw [h1] at hp
    obtain ⟨k1, k2⟩ := ihb he.2 hf.2 hp
    refine ⟨k1, fun ts' s' b t => ?_⟩
    obtain ⟨v', e1, e2⟩ := h2 ts' s' b t
    obtain ⟨u', d1, d2⟩ := k2 ts' s' b t
    exact ⟨_, by rw [eval, e1]; simp only [andThen_next]; rw [d1]; rfl, e2.map₂ _ d2⟩
  | load sp a =>
    cases sp with
    | mem | ext => cases he
    | reg =>
      have : a.insnBits.isSome = true := insnBits_of_isField3 (by simpa [Expr.registerFields] using hf)
      obtain ⟨x, rfl, hx⟩ := eval_loadReg hw this h
      exact ⟨rfl, fun ts' s' b _ => ⟨_, hx ts' s' b.w b.params, b.word x⟩⟩
  | decodeImm t a =>
    obtain ⟨f, hf⟩ := eval_insnBits insn (insnBits_of_isField3 he)
    obtain ⟨q, hq, h⟩ := andThen_eq_next.mp h
    rw [hf ts s] at hq
    obtain rfl := Host.Outcome.next.inj hq
    obtain ⟨v, hv, h⟩ := andThen_eq_next.mp h
    obtain rfl := Host.Outcome.next.inj h
    exact ⟨rfl, fun ts' s' b _ => ⟨_, by
      rw [eval, hf ts' s']; simp only [andThen_next]; rw [decodeImm_same b.params, hv]; rfl, .inl rfl⟩⟩
  | imm k a =>
    cases k with
    | sext => cases he
    | table t =>
    obtain ⟨f, hf⟩ := eval_insnBits insn (insnBits_of_isField3 he)
    obtain ⟨q, hq, h⟩ := andThen_eq_next.mp h
    rw [hf ts s] at hq
    obtain rfl := Host.Outcome.next.inj hq
    obtain ⟨v, hv, h⟩ := andThen_eq_next.mp h
    obtain rfl := Host.Outcome.next.inj h
    exact ⟨rfl, fun ts' s' b _ => ⟨_, by
      rw [eval, hf ts' s']; simp only [andThen_next]
      rw [immediate_same b.params b.ext13 b.hasExt13, hv]; rfl, .inl rfl⟩⟩

/-! ### Choices that only compute -/

/-- A pure expression has a value, and reading it changes nothing. -/
theorem eval_pure (insn : Word) (ts : Temporaries) (s : State) {e : Expr} (h : e.isPure = true) :
    ∃ v, eval insn ts e s = .next (v, s) := by
  induction e with
  | const | undef | read | temp => exact ⟨_, rfl⟩
  | un o a iha =>
    obtain ⟨v, hv⟩ := iha h
    exact ⟨_, by rw [eval, hv]; rfl⟩
  | bin o a b iha ihb =>
    simp only [Expr.isPure, Bool.and_eq_true] at h
    obtain ⟨v, hv⟩ := iha h.1
    obtain ⟨u, hu⟩ := ihb h.2
    exact ⟨_, by rw [eval, hv]; simp only [andThen_next]; rw [hu]; rfl⟩
  | load => cases h
  | decodeImm t a iha =>
    cases t
    · cases h
    · obtain ⟨v, hv⟩ := iha h
      rw [eval, hv]
      simp only [andThen_next]
      cases v.resize 3 <;> exact ⟨_, rfl⟩
  | imm k a iha =>
    have ha : a.isPure = true := by
      cases k with
      | table t => cases t <;> first | cases h | exact h
      | sext => exact h
    obtain ⟨v, hv⟩ := iha ha
    rw [eval, hv]
    simp only [andThen_next, immediate]
    split
    · exact ⟨_, rfl⟩
    · cases k with
      | sext => exact ⟨_, rfl⟩
      | table t =>
        cases t
        · cases h
        · simp only [decodeImm]
          cases v.resize 3 <;> exact ⟨_, rfl⟩

/-- A spoiled temporary reads UNDEFINED, any other as before. -/
theorem spoil_read (p : Progress) (l : List (Nat × Nat)) (i n : Nat) :
    readTemporary (p.spoil l).temps i n =
      if i ∈ l.map Prod.fst then .undefined else readTemporary p.temps i n := by
  induction l with
  | nil => simp [Progress.spoil]
  | cons t l ih =>
    simp only [Progress.spoil, List.map_cons, List.cons_append, readTemporary, List.mem_cons] at ih ⊢
    by_cases h : t.1 = i
    · simp [h, Val.resize, Val.map]
    · rw [if_neg h, ih]
      simp only [eq_false (Ne.symm h), false_or]

/-- A pure operation goes on, and changes no temporary but those it assigns, nor anything else. -/
theorem perform_pure (insn : Word) {op : Operation} (h : op.isPure = true) (p : Progress) :
    ∃ ts, perform insn op p = .next { p with temps := ts } ∧
      ∀ i n, i ∉ op.temporaries.map Prod.fst → readTemporary ts i n = readTemporary p.temps i n := by
  induction op generalizing p with
  | skip => exact ⟨_, rfl, fun _ _ _ => rfl⟩
  | assign pl e =>
    cases pl with
    | temp i k =>
      obtain ⟨v, hv⟩ := eval_pure insn p.temps p.state h
      refine ⟨_, by rw [perform, hv]; rfl, fun j n hj => ?_⟩
      simp only [Operation.temporaries, List.map_cons, List.map_nil, List.mem_singleton] at hj
      simp [readTemporary, Ne.symm hj]
    | _ => cases h
  | seq a b iha ihb =>
    simp only [Operation.isPure, Bool.and_eq_true] at h
    obtain ⟨ts, h1, h2⟩ := iha h.1 p
    obtain ⟨us, k1, k2⟩ := ihb h.2 { p with temps := ts }
    refine ⟨us, by rw [perform, h1]; exact k1, fun i n hi => ?_⟩
    simp only [Operation.temporaries, List.map_append, List.mem_append, not_or] at hi
    rw [k2 i n hi.2, ← h2 i n hi.1]
  | ite c t f iht ihf =>
    have h' := h
    simp only [Operation.isPure, Bool.and_eq_true] at h
    obtain ⟨v, hv⟩ := eval_pure insn p.temps p.state h.1.1
    rw [perform, hv]
    simp only [andThen_next, h.1.2, h.2, Bool.and_true]
    cases v with
    | undefined =>
      refine ⟨_, rfl, fun i n hi => ?_⟩
      exact (spoil_read p _ i n).trans (if_neg hi)
    | known x =>
      simp only [Operation.temporaries, List.map_append, List.mem_append, not_or]
      simp only [Val.isUndefined, Bool.false_eq_true, if_false]
      split
      · obtain ⟨ts, h1, h2⟩ := iht h.1.2 p
        exact ⟨ts, h1, fun i n hi => h2 i n hi.1⟩
      · obtain ⟨ts, h1, h2⟩ := ihf h.2 p
        exact ⟨ts, h1, fun i n hi => h2 i n hi.2⟩
  | _ => cases h

/-! ### ALU operations -/

/-- The same part of an operation performed on a state with more UNDEFINED in it. -/
structure ProgBlurs (p p' : Progress) : Prop where
  state : StateBlurs p.state p'.state
  temps : TempsBlur p.temps p'.temps
  pcAssigned : p'.pcAssigned = p.pcAssigned

theorem StateBlurs.write {s s' : State} (h : StateBlurs s s') (a : Word) {v v' : Val 16} (hv : Val.blurs v v') :
    StateBlurs (s.setMem (s.mem.write a.toNat v)) (s'.setMem (s'.mem.write a.toNat v')) where
  same := by
    have := h.same
    rw [this]; rfl
  flag := fun f => by
    have := h.flag f
    cases f <;> exact this
  word := fun b => by
    simp only [State.word, State.setMem_mem]
    by_cases hb : b = a
    · subst hb
      rw [Memory.read_write_same _ _ h.wf, Memory.read_write_same _ _ h.wf']; exact hv
    · have hb' : b.toNat ≠ a.toNat := fun e => hb (BitVec.eq_of_toNat_eq e)
      rw [Memory.read_write_other _ _ hb', Memory.read_write_other _ _ hb']
      exact h.word b
  wf := Memory.write_wf a.isLt h.wf
  wf' := Memory.write_wf a.isLt h.wf'

theorem StateBlurs.setFlag {s s' : State} (h : StateBlurs s s') (f : Flag) {v v' : Val 1} (hv : Val.blurs v v') :
    StateBlurs (s.setFlag f v) (s'.setFlag f v') where
  same := by
    have := h.same
    rw [this]; cases f <;> rfl
  flag := fun g => by
    by_cases hg : g = f
    · subst hg; simpa using hv
    · rw [State.setFlag_flag_other _ _ _ _ hg, State.setFlag_flag_other _ _ _ _ hg]; exact h.flag g
  word := fun b => by simpa [State.word] using h.word b
  wf := by simpa using h.wf
  wf' := by simpa using h.wf'

theorem StateBlurs.setFlags {s s' : State} (h : StateBlurs s s') {f f' : FlagValues} (hz : Val.blurs f.z f'.z)
    (hs : Val.blurs f.s f'.s) (hc : Val.blurs f.c f'.c) (hv : Val.blurs f.v f'.v) :
    StateBlurs (s.setFlags f) (s'.setFlags f') where
  same := by
    have := h.same
    rw [this]; rfl
  flag := fun g => by cases g <;> simpa
  word := fun b => by simpa [State.word] using h.word b
  wf := by simpa using h.wf
  wf' := by simpa using h.wf'

theorem StateBlurs.countDraw {s s' : State} (h : StateBlurs s s') : StateBlurs s.countDraw s'.countDraw where
  same := by
    have := h.same
    rw [this]; rfl
  flag := fun g => by have := h.flag g; cases g <;> exact this
  word := h.word
  wf := h.wf
  wf' := h.wf'

/-- Operands with more UNDEFINED in them give the same flags, or four UNDEFINED ones. -/
theorem arithmeticFlags_blurs {a a' b b' : Val 16} {c c' : Val 1} (ha : Val.blurs a a') (hb : Val.blurs b b')
    (hc : Val.blurs c c') : arithmeticFlags a' b' c' = arithmeticFlags a b c ∨
      arithmeticFlags a' b' c' = { z := .undefined, s := .undefined, c := .undefined, v := .undefined } := by
  obtain rfl | rfl := ha
  · obtain rfl | rfl := hb
    · obtain rfl | rfl := hc
      · exact .inl rfl
      · right; cases a' <;> cases b' <;> rfl
    · right; cases a' <;> rfl
  · right; rfl

/-- What performing an ALU operation from `p` to `q` can do: `W`, `PC` and the bus stay, nothing is drawn, and with
more UNDEFINED in the state it goes on too, to a state with more UNDEFINED in it. -/
structure AluFrame (insn : Word) (op : Operation) (p q : Progress) : Prop where
  w : q.state.w = p.state.w
  log : q.state.extLog = p.state.extLog
  draws : q.state.draws = p.state.draws
  pcAssigned : q.pcAssigned = p.pcAssigned
  blurs : ∀ p', ProgBlurs p p' → ∃ q', perform insn op p' = .next q' ∧ ProgBlurs q q'

theorem any_seq {q : Operation → Bool} {a b : Operation} (h : Operation.any q (.seq a b) = false) :
    a.any q = false ∧ b.any q = false := by
  simp [Operation.any] at h; exact ⟨h.1.2, h.2⟩

/-- Everything that performing an ALU operation can do while `W` is known. -/
theorem perform_alu {insn : Word} {op : Operation} {p q : Progress} {w₀ : Word} (hw : p.state.w = .known w₀)
    (ha : op.any (fun o => !o.aluPart) = false) (hf : op.registerFields.all isField3 = true)
    (h : perform insn op p = .next q) : AluFrame insn op p q := by
  induction op generalizing p q with
  | skip =>
    obtain rfl := Host.Outcome.next.inj h
    exact ⟨rfl, rfl, rfl, rfl, fun p' b => ⟨p', rfl, b⟩⟩
  | assign pl e =>
    obtain ⟨r, hr, h⟩ := andThen_eq_next.mp h
    simp [Operation.any, Operation.aluPart] at ha
    simp only [Operation.registerFields, List.all_append, Bool.and_eq_true] at hf
    obtain ⟨e1, e2⟩ := eval_alu hw ha.2 hf.2 hr
    rw [e1] at h
    cases pl with
    | pc | w => cases ha.1
    | flag f =>
      obtain rfl := Host.Outcome.next.inj h
      refine ⟨by simp, by simp, by simp, rfl, fun p' b => ?_⟩
      obtain ⟨v', d1, d2⟩ := e2 p'.temps p'.state b.state b.temps
      exact ⟨{ p' with state := p'.state.setFlag f (v'.resize 1), drawn := p'.drawn.filter (fun g => g != f) },
        by rw [perform, d1]; rfl,
        b.state.setFlag f (d2.resize 1), b.temps, b.pcAssigned⟩
    | temp i k =>
      obtain rfl := Host.Outcome.next.inj h
      refine ⟨rfl, rfl, rfl, rfl, fun p' b => ?_⟩
      obtain ⟨v', d1, d2⟩ := e2 p'.temps p'.state b.state b.temps
      exact ⟨{ p' with temps := (i, { len := k, val := v'.resize k }) :: p'.temps }, by rw [perform, d1]; rfl,
        b.state, b.temps.cons i k (d2.resize k), b.pcAssigned⟩
    | store sp a =>
      cases sp with
      | mem | ext => cases ha.1
      | reg =>
        obtain ⟨f, hf'⟩ := eval_insnBits insn (insnBits_of_isField3 (f := a.insnBits) (by
          simpa [Place.registerFields] using hf.1))
        have key : ∀ (p : Progress) (w₀ : Word) (v : Val e.len), p.state.w = .known w₀ →
            p.assign insn (.store .reg a) v =
              p.storeMem (.known (w₀ + (f.setWidth 3).setWidth 16)) (v.resize 16) := by
          intro p w₀ v hw
          show andThen (eval insn p.temps a p.state) _ = _
          rw [hf' p.temps p.state]
          show Progress.storeMem _ (p.state.regAddr (.known (f.setWidth 3))) _ = _
          rw [regAddr_of_known hw]
        rw [key _ w₀ _ (by exact hw)] at h
        obtain ⟨hp, rfl⟩ := storeMem_eq_next.mp h
        refine ⟨by simp, by simp, by simp, rfl, fun p' b => ?_⟩
        obtain ⟨v', d1, d2⟩ := e2 p'.temps p'.state b.state b.temps
        refine ⟨{ p' with
          state := p'.state.setMem (p'.state.mem.write (w₀ + (f.setWidth 3).setWidth 16).toNat (v'.resize 16))
          stored := p'.stored ++ [w₀ + (f.setWidth 3).setWidth 16] }, ?_, ?_⟩
        · rw [perform, d1]
          show Progress.assign insn p' (.store .reg a) v' = _
          rw [key _ w₀ _ (b.state.w.trans hw)]
          exact storeMem_eq_next.mpr ⟨by simpa [State.populated, b.state.params] using hp, rfl⟩
        · exact ⟨b.state.write _ (d2.resize 16), b.temps, b.pcAssigned⟩
  | seq a b iha ihb =>
    obtain ⟨r, hr, h⟩ := andThen_eq_next.mp h
    simp only [Operation.registerFields, List.all_append, Bool.and_eq_true] at hf
    have F := iha hw (any_seq ha).1 hf.1 hr
    have G := ihb (F.w.trans hw) (any_seq ha).2 hf.2 h
    refine ⟨G.w.trans F.w, G.log.trans F.log, G.draws.trans F.draws, G.pcAssigned.trans F.pcAssigned, fun p' bl => ?_⟩
    obtain ⟨r', hr', br⟩ := F.blurs p' bl
    obtain ⟨q', hq', bq⟩ := G.blurs r' br
    exact ⟨q', by rw [perform, hr']; exact hq', bq⟩
  | ite c t f iht ihf =>
    obtain ⟨r, hr, h⟩ := andThen_eq_next.mp h
    simp only [Operation.registerFields, List.all_append, Bool.and_eq_true] at hf
    simp only [Operation.any, Bool.or_eq_false_iff] at ha
    obtain ⟨v, s₁⟩ := r
    obtain ⟨e1, hp, hc⟩ : s₁ = p.state ∧ (v.isUndefined = true → t.isPure = true ∧ f.isPure = true) ∧
        ∀ p', ProgBlurs p p' → ∃ v', eval insn p'.temps c p'.state = .next (v', p'.state) ∧
          (v' = v ∨ v' = .undefined ∧ t.isPure = true ∧ f.isPure = true) := by
      have hc : c.settled = true ∨ (c.aluOperands = true ∧ t.isPure = true) ∧ f.isPure = true := by
        simpa [Operation.aluPart, Decidable.or_iff_not_imp_left] using ha.1.1
      obtain hc | hc := hc
      · obtain ⟨e1, -, e3⟩ := eval_settled (ts' := p.temps) (s' := p.state) hc rfl hr
        exact ⟨e1, fun k => absurd (e3.symm.trans k) (by simp), fun p' b =>
          ⟨_, (eval_settled hc b.state.hasExt13 hr).2.1, .inl rfl⟩⟩
      · obtain ⟨e1, e2⟩ := eval_alu hw hc.1.1 hf.1.1 hr
        refine ⟨e1, fun _ => ⟨hc.1.2, hc.2⟩, fun p' b => ?_⟩
        obtain ⟨v', d1, d2⟩ := e2 p'.temps p'.state b.state b.temps
        exact ⟨v', d1, d2.imp id fun k => ⟨k, hc.1.2, hc.2⟩⟩
    subst e1
    have spoil : t.isPure = true → f.isPure = true → ∀ p', eval insn p'.temps c p'.state = .next (.undefined, p'.state) →
        perform insn (.ite c t f) p' = .next (p'.spoil (t.temporaries ++ f.temporaries)) := by
      intro ht hf p' h
      rw [perform, h]
      simp [Val.isUndefined, ht, hf]
    cases v with
    | undefined =>
      obtain ⟨pt, pf⟩ := hp rfl
      obtain rfl := Host.Outcome.next.inj ((spoil pt pf p hr).symm.trans (by rw [perform, hr]; exact h))
      refine ⟨rfl, rfl, rfl, rfl, fun p' b => ?_⟩
      obtain ⟨v', d1, d2⟩ := hc p' b
      obtain rfl : v' = .undefined := d2.elim id And.left
      refine ⟨_, spoil pt pf p' d1, b.state, fun i n => ?_, b.pcAssigned⟩
      rw [spoil_read, spoil_read]
      split
      · exact .inl rfl
      · exact b.temps i n
    | known x =>
      have branch : ∀ (o : Operation),
          (∀ p', eval insn p'.temps c p'.state = .next (.known x, p'.state) →
            perform insn (.ite c t f) p' = perform insn o p') →
          AluFrame insn o p q → (t.isPure = true → f.isPure = true → o.isPure = true ∧
            ∀ i, i ∈ o.temporaries.map Prod.fst → i ∈ (t.temporaries ++ f.temporaries).map Prod.fst) →
          perform insn o p = .next q → AluFrame insn (.ite c t f) p q := by
        intro o ho F po hq
        refine ⟨F.w, F.log, F.draws, F.pcAssigned, fun p' b => ?_⟩
        obtain ⟨v', d1, rfl | ⟨rfl, pt, pf⟩⟩ := hc p' b
        · rw [ho p' d1]
          exact F.blurs p' b
        · refine ⟨_, spoil pt pf p' d1, ?_⟩
          obtain ⟨ts, k1, k2⟩ := perform_pure insn (po pt pf).1 p
          obtain rfl := Host.Outcome.next.inj (k1.symm.trans hq)
          refine ⟨b.state, fun i n => ?_, b.pcAssigned⟩
          rw [spoil_read]
          split
          · exact .inr rfl
          · next hi => rw [k2 i n fun k => hi ((po pt pf).2 i k)]; exact b.temps i n
      have take : ∀ p' : Progress, eval insn p'.temps c p'.state = .next (.known x, p'.state) →
          perform insn (.ite c t f) p' =
            if x.setWidth 1 = 1#1 then perform insn t p' else perform insn f p' := by
        intro p' h
        rw [perform, h]
        rfl
      by_cases hx : x.setWidth 1 = 1#1
      · have h : perform insn t p = .next q := by
          have := take p hr
          rw [perform, hr, if_pos hx] at this
          exact this.symm.trans h
        exact branch t (fun p' k => by rw [take p' k, if_pos hx]) (iht hw ha.1.2 hf.1.2 h)
          (fun pt _ => ⟨pt, fun i hi => by simp only [List.map_append, List.mem_append]; exact .inl hi⟩) h
      · have h : perform insn f p = .next q := by
          have := take p hr
          rw [perform, hr, if_neg hx] at this
          exact this.symm.trans h
        exact branch f (fun p' k => by rw [take p' k, if_neg hx]) (ihf hw ha.2 hf.2 h)
          (fun _ pf => ⟨pf, fun i hi => by simp only [List.map_append, List.mem_append]; exact .inr hi⟩) h
  | arithmeticFlags a b c =>
    obtain ⟨x, hx, h⟩ := andThen_eq_next.mp h
    obtain ⟨y, hy, h⟩ := andThen_eq_next.mp h
    obtain ⟨z, hz, h⟩ := andThen_eq_next.mp h
    obtain rfl := Host.Outcome.next.inj h
    simp only [Operation.registerFields, List.all_append, Bool.and_eq_true] at hf
    simp [Operation.any, Operation.aluPart] at ha
    obtain ⟨x1, x2⟩ := eval_alu hw ha.1.1 hf.1.1 hx
    rw [x1] at hy
    obtain ⟨y1, y2⟩ := eval_alu hw ha.1.2 hf.1.2 hy
    rw [y1] at hz
    obtain ⟨z1, z2⟩ := eval_alu hw ha.2 hf.2 hz
    rw [z1]
    refine ⟨rfl, rfl, rfl, rfl, fun p' bl => ?_⟩
    obtain ⟨x', xa, xb⟩ := x2 _ _ bl.state bl.temps
    obtain ⟨y', ya, yb⟩ := y2 _ _ bl.state bl.temps
    obtain ⟨z', za, zb⟩ := z2 _ _ bl.state bl.temps
    refine ⟨p'.withFlags p'.state (Machine.arithmeticFlags (x'.resize 16) (y'.resize 16) (z'.resize 1)), by
      rw [perform, xa]; simp only [andThen_next]; rw [ya]; simp only [andThen_next]; rw [za]; rfl, ?_,
      bl.temps, bl.pcAssigned⟩
    obtain e | e := arithmeticFlags_blurs (xb.resize 16) (yb.resize 16) (zb.resize 1)
    · exact bl.state.setFlags (.inl (congrArg FlagValues.z e)) (.inl (congrArg FlagValues.s e))
        (.inl (congrArg FlagValues.c e)) (.inl (congrArg FlagValues.v e))
    · exact bl.state.setFlags (.inr (congrArg FlagValues.z e)) (.inr (congrArg FlagValues.s e))
        (.inr (congrArg FlagValues.c e)) (.inr (congrArg FlagValues.v e))
  | logicalFlags e =>
    obtain ⟨x, hx, h⟩ := andThen_eq_next.mp h
    obtain rfl := Host.Outcome.next.inj h
    simp [Operation.any, Operation.aluPart] at ha
    obtain ⟨x1, x2⟩ := eval_alu hw ha hf hx
    rw [x1]
    refine ⟨rfl, rfl, rfl, rfl, fun p' bl => ?_⟩
    obtain ⟨x', xa, xb⟩ := x2 _ _ bl.state bl.temps
    exact ⟨p'.withFlags p'.state (Machine.logicalFlags (x'.resize 16)), by rw [perform, xa]; rfl,
      bl.state.setFlags ((xb.resize 16).map _) ((xb.resize 16).map _) (.inl rfl) (.inl rfl), bl.temps,
      bl.pcAssigned⟩

end Sys2Proof.Machine
end

