-- ==== Sys2Proof/Laws/Encoding.lean ====
section
/-!
SUPPORT. What gathering the bits of a field and scattering them over a word do.
-/

namespace Sys2Proof

/-- Words that agree on the bits of a field hold the same number in it. -/
theorem gatherBits_congr {w w' : Word} {l : List Nat} (h : ∀ q ∈ l, w.getLsbD q = w'.getLsbD q) :
    gatherBits w l = gatherBits w' l := by
  induction l with
  | nil => rfl
  | cons a l ih => rw [gatherBits, gatherBits, h a (by simp), ih fun q hq => h q (by simp [hq])]

/-- Scattering a number over different places of a word sets no other bit, and gathering them gives the number back, cut
to the length of the field. -/
theorem scatterBits_spec (l : List Nat) (v : Nat) (h16 : ∀ p ∈ l, p < 16) (hn : l.Nodup) :
    (∀ q, q ∉ l → (scatterBits v l).getLsbD q = false) ∧ gatherBits (scatterBits v l) l = v % 2 ^ l.length := by
  induction l generalizing v with
  | nil => simp [scatterBits, gatherBits, Nat.mod_one]
  | cons p ps ih =>
    have hp : p < 16 := h16 p (by simp)
    have hn' := List.nodup_cons.mp hn
    obtain ⟨i1, i2⟩ := ih (v / 2) (fun q hq => h16 q (by simp [hq])) hn'.2
    have hb : ∀ q, q ≠ p → (BitVec.ofNat 16 (v % 2) <<< p).getLsbD q = false := by
      intro q hq
      have : v % 2 = 0 ∨ v % 2 = 1 := by omega
      rcases this with e | e <;> rw [e] <;> simp [BitVec.getLsbD_shiftLeft]
      intro h1 h2
      omega
    constructor
    · intro q hq
      simp at hq
      rw [scatterBits, BitVec.getLsbD_or, hb q hq.1, i1 q hq.2]; rfl
    · rw [gatherBits]
      rw [gatherBits_congr (w' := scatterBits (v / 2) ps), i2]
      · rw [scatterBits, BitVec.getLsbD_or, i1 p hn'.1]
        have : (BitVec.ofNat 16 (v % 2) <<< p).getLsbD p = decide (v % 2 = 1) := by
          have : v % 2 = 0 ∨ v % 2 = 1 := by omega
          rcases this with e | e <;> rw [e] <;> simp [hp]
        rw [this]
        simp [Nat.pow_succ]
        have := Nat.mod_mul (x := v) (a := 2) (b := 2 ^ ps.length)
        rw [Nat.mul_comm] at this
        rw [this]
        by_cases hh : v % 2 = 1 <;> simp [hh]; omega
      · intro q hq
        rw [scatterBits, BitVec.getLsbD_or, hb q (fun e => hn'.1 (e ▸ hq))]; simp

end Sys2Proof
end

