-- ==== Sys2Proof/Laws/Finish.lean ====
section
/-!
SUPPORT. How the operation of an ALU page ends (40_alu_families.md R93, R94): the temporaries are computed first, and the finish
sets flags and a register from operands that are the same at each evaluation.
-/

namespace Sys2Proof.Machine

/-! ### The parts of an operation in sequence -/

/-- Perform operations one after another. -/
def performAll (insn : Word) : List Operation → Progress → Result Progress
  | [], p => .next p
  | o :: os, p => andThen (perform insn o p) (performAll insn os)

theorem performAll_append (insn : Word) (l m : List Operation) (p : Progress) :
    performAll insn (l ++ m) p = andThen (performAll insn l p) (performAll insn m) := by
  induction l generalizing p with
  | nil => rfl
  | cons o os ih =>
    simp only [List.cons_append, performAll]
    rw [andThen_assoc]
    congr 1
    funext q
    exact ih q

/-- An operation is its parts, one after another. -/
theorem perform_steps (insn : Word) (op : Operation) (p : Progress) :
    perform insn op p = performAll insn op.steps p := by
  have one : ∀ o p, perform insn o p = performAll insn [o] p := by
    intro o p
    simp only [performAll]
    cases perform insn o p <;> rfl
  induction op generalizing p with
  | skip => rfl
  | seq a b iha ihb =>
    rw [Operation.steps, performAll_append, perform, iha]
    congr 1
    funext q
    exact ihb q
  | _ => exact one _ p

/-- An operation that assigns temporaries alone assigns nothing else. -/
theorem temporariesOnly_assigns {op : Operation} (h : op.temporariesOnly = true) :
    (∀ f, op.assignsFlag f = false) ∧ op.storesToMemory = false := by
  induction op with
  | assign pl e =>
    cases pl with
    | temp i n => exact ⟨fun _ => rfl, rfl⟩
    | _ => cases h
  | seq a b iha ihb =>
    simp only [Operation.temporariesOnly, Bool.and_eq_true] at h
    simp only [Operation.assignsFlag, Operation.storesToMemory, Operation.any, Bool.false_or] at iha ihb ⊢
    simp [iha h.1, ihb h.2]
  | ite c a b iha ihb =>
    simp only [Operation.temporariesOnly, Bool.and_eq_true] at h
    simp only [Operation.assignsFlag, Operation.storesToMemory, Operation.any, Bool.false_or] at iha ihb ⊢
    simp [iha h.1, ihb h.2]
  | skip => exact ⟨fun _ => rfl, rfl⟩
  | _ => cases h

theorem performAll_temporaries {insn : Word} {l : List Operation} (hl : ∀ o ∈ l, o.temporariesOnly = true)
    {p q : Progress} (h : performAll insn l p = .next q) :
    (∀ f, q.state.flag f = p.state.flag f) ∧ q.state.mem = p.state.mem := by
  induction l generalizing p with
  | nil => obtain rfl := Host.Outcome.next.inj h; exact ⟨fun _ => rfl, rfl⟩
  | cons o os ih =>
    obtain ⟨r, hr, h⟩ := andThen_eq_next.mp h
    obtain ⟨k1, k2⟩ := temporariesOnly_assigns (hl o (by simp))
    obtain ⟨i1, i2⟩ := ih (fun o ho => hl o (by simp [ho])) h
    exact ⟨fun f => (i1 f).trans ((perform_frame hr).flag f (k1 f)), i2.trans ((perform_frame hr).mem k2)⟩

/-- Before its finish an operation has changed no flag and no word. -/
theorem perform_finish {insn : Word} {op : Operation} {p q : Progress} (h : perform insn op p = .next q) :
    ∃ r, performAll insn op.finish r = .next q ∧ (∀ f, r.state.flag f = p.state.flag f) ∧ r.state.mem = p.state.mem := by
  rw [perform_steps, ← List.takeWhile_append_dropWhile (p := Operation.temporariesOnly) (l := op.steps),
    performAll_append] at h
  obtain ⟨r, hr, h⟩ := andThen_eq_next.mp h
  obtain ⟨h1, h2⟩ := performAll_temporaries (fun o ho => by simpa using List.mem_takeWhile_imp ho) hr
  exact ⟨r, h, h1, h2⟩

/-- What no part of an operation has, no part of its finish has. -/
theorem finish_any {op o : Operation} (h : o ∈ op.finish) (q : Operation → Bool) (hq : op.any q = false) : q o = false := by
  replace h : o ∈ op.steps := (List.dropWhile_sublist _).subset h
  induction op with
  | skip => cases h
  | seq a b iha ihb =>
    rcases List.mem_append.mp h with h | h
    · exact iha (any_seq hq).1 h
    · exact ihb (any_seq hq).2 h
  | ite c t f =>
    obtain rfl := List.mem_singleton.mp h
    simp only [Operation.any, Bool.or_eq_false_iff] at hq
    exact hq.1.1
  | _ => obtain rfl := List.mem_singleton.mp h; exact hq

/-- The register fields of the finish are fields of three bits if those of the operation are. -/
theorem finish_registerFields {op o : Operation} (h : o ∈ op.finish) (hq : op.registerFields.all isField3 = true) :
    o.registerFields.all isField3 = true := by
  replace h : o ∈ op.steps := (List.dropWhile_sublist _).subset h
  induction op with
  | skip => cases h
  | seq a b iha ihb =>
    simp only [Operation.registerFields, List.all_append, Bool.and_eq_true] at hq
    rcases List.mem_append.mp h with h | h
    · exact iha hq.1 h
    · exact ihb hq.2 h
  | _ => obtain rfl := List.mem_singleton.mp h; exact hq

/-! ### Operands at a second evaluation -/

/-- The states agree on all that an ALU operand reads but the flags and the registers. -/
structure SameOperands (s s' : State) : Prop where
  w : s'.w = s.w
  pc : s'.pc = s.pc
  ext13 : s'.ext13 = s.ext13
  hasExt13 : s'.hasExt13 = s.hasExt13
  params : s'.params = s.params

theorem SameOperands.of {s s' : State} (h : ReadsOnly s s') : SameOperands s s' :=
  ⟨h.w, h.pc, h.ext13, h.hasExt13, h.params⟩

theorem SameOperands.symm {s s' : State} (h : SameOperands s s') : SameOperands s' s :=
  ⟨h.w.symm, h.pc.symm, h.ext13.symm, h.hasExt13.symm, h.params.symm⟩

theorem SameOperands.trans {s t u : State} (h : SameOperands s t) (k : SameOperands t u) : SameOperands s u :=
  ⟨k.w.trans h.w, k.pc.trans h.pc, k.ext13.trans h.ext13, k.hasExt13.trans h.hasExt13, k.params.trans h.params⟩

/-- An immediate built from `ext13` has the same value when it is evaluated again. -/
theorem eval_extendedImm_again {insn : Word} {ts : Temporaries} {e : Expr} {s s' : State} {r r' : Val e.len × State}
    (he : e.isExtendedImm = true) (L : SameOperands s s') (h : eval insn ts e s = .next r)
    (h' : eval insn ts e s' = .next r') : r'.1 = r.1 := by
  simp only [Expr.isExtendedImm, Bool.and_eq_true] at he
  rw [(eval_madeOfExt13 (ts' := ts) he.1 L.ext13 h).2] at h'
  rw [← Host.Outcome.next.inj h']

/-- An operand that reads no flag has the same value when it is evaluated again, after a store too if it reads no register. -/
theorem eval_again {insn : Word} {ts : Temporaries} {e : Expr} {s s' : State} {r r' : Val e.len × State}
    (he : e.aluOperands = true) (hf : e.registerFields.all isField3 = true) (nf : e.readsFlags = false)
    (L : SameOperands s s') (M : s'.mem = s.mem ∨ e.readsRegisters = false) (h : eval insn ts e s = .next r)
    (h' : eval insn ts e s' = .next r') : r'.1 = r.1 := by
  induction e generalizing s s' with
  | const n v =>
    obtain rfl := Host.Outcome.next.inj h
    obtain rfl := Host.Outcome.next.inj h'
    rfl
  | undef n =>
    obtain rfl := Host.Outcome.next.inj h
    obtain rfl := Host.Outcome.next.inj h'
    rfl
  | temp n =>
    obtain rfl := Host.Outcome.next.inj h
    obtain rfl := Host.Outcome.next.inj h'
    rfl
  | read x =>
    obtain rfl := Host.Outcome.next.inj h
    obtain rfl := Host.Outcome.next.inj h'
    cases x with
    | insn => cases he
    | flag f => cases nf
    | pc => exact L.pc
    | w => exact L.w
    | ext13 => exact L.ext13
    | hasExt13 => exact congrArg Val.known L.hasExt13
  | un o a iha =>
    simp only [Expr.aluOperands, Bool.or_eq_true] at he
    obtain he | he := he
    · exact eval_extendedImm_again he L h h'
    obtain ⟨q, hq, hr⟩ := andThen_eq_next.mp h
    obtain ⟨q', hq', hr'⟩ := andThen_eq_next.mp h'
    obtain rfl := Host.Outcome.next.inj hr
    obtain rfl := Host.Outcome.next.inj hr'
    have := iha he (by simpa [Expr.registerFields] using hf)
      (by simpa [Expr.readsFlags, Expr.any] using nf) L (M.imp id (by simp [Expr.readsRegisters, Expr.any])) hq hq'
    exact congrArg o.apply this
  | bin o a b iha ihb =>
    simp only [Expr.aluOperands, Bool.or_eq_true, Bool.and_eq_true] at he
    obtain he | he := he
    · exact eval_extendedImm_again he L h h'
    obtain ⟨q, hq, hr⟩ := andThen_eq_next.mp h
    obtain ⟨q', hq', hr'⟩ := andThen_eq_next.mp h'
    obtain ⟨p, hp, hr⟩ := andThen_eq_next.mp hr
    obtain ⟨p', hp', hr'⟩ := andThen_eq_next.mp hr'
    obtain rfl := Host.Outcome.next.inj hr
    obtain rfl := Host.Outcome.next.inj hr'
    simp only [Expr.registerFields, List.all_append, Bool.and_eq_true] at hf
    simp only [Expr.readsFlags, Expr.any, Bool.or_eq_false_iff] at nf
    have M1 : s'.mem = s.mem ∨ a.readsRegisters = false ∧ b.readsRegisters = false := by
      simpa [Expr.readsRegisters, Expr.any] using M
    have A := iha he.1 hf.1 nf.1.2 L (M1.imp id And.left) hq hq'
    have L2 := (SameOperands.of (eval_readsOnly hq)).symm.trans (L.trans (SameOperands.of (eval_readsOnly hq')))
    have M2 : q'.2.mem = q.2.mem ∨ b.readsRegisters = false := by
      rw [(eval_readsOnly hq).mem, (eval_readsOnly hq').mem]
      exact M1.imp id And.right
    have B := ihb he.2 hf.2 nf.2 L2 M2 hp hp'
    show o.apply q'.1 p'.1 = o.apply q.1 p.1
    rw [A, B]
  | load sp a =>
    cases sp with
    | mem | ext => cases he
    | reg =>
      have mem : s'.mem = s.mem := M.elim id (fun k => by cases k)
      obtain ⟨f, hf⟩ := eval_insnBits insn (insnBits_of_isField3 (f := a.insnBits) (by
        simpa [Expr.registerFields] using hf))
      obtain ⟨q, hq, h⟩ := andThen_eq_next.mp h
      obtain ⟨q', hq', h'⟩ := andThen_eq_next.mp h'
      rw [hf ts s] at hq
      rw [hf ts s'] at hq'
      obtain rfl := Host.Outcome.next.inj hq
      obtain rfl := Host.Outcome.next.inj hq'
      have e : s'.regAddr ((Val.known f).resize 3) = s.regAddr ((Val.known f).resize 3) := by
        simp [State.regAddr, L.w]
      simp only [loadFrom] at h h'
      rw [e] at h'
      unfold memRead at h h'
      split at h
      · split at h'
        · cases k : s.regAddr ((Val.known f).resize 3) with
          | known a =>
            rw [k] at h h'
            obtain rfl := Host.Outcome.next.inj h
            obtain rfl := Host.Outcome.next.inj h'
            simp only [State.word, mem]; rfl
          | undefined =>
            rw [k] at h h'
            obtain rfl := Host.Outcome.next.inj h
            obtain rfl := Host.Outcome.next.inj h'
            rfl
        · cases h'
      · cases h
  | decodeImm t a =>
    obtain ⟨f, hf⟩ := eval_insnBits insn (insnBits_of_isField3 he)
    obtain ⟨q, hq, h⟩ := andThen_eq_next.mp h
    obtain ⟨q', hq', h'⟩ := andThen_eq_next.mp h'
    rw [hf ts s] at hq
    rw [hf ts s'] at hq'
    obtain rfl := Host.Outcome.next.inj hq
    obtain rfl := Host.Outcome.next.inj hq'
    obtain ⟨v, hv, h⟩ := andThen_eq_next.mp h
    obtain ⟨v', hv', h'⟩ := andThen_eq_next.mp h'
    obtain rfl := Host.Outcome.next.inj h
    obtain rfl := Host.Outcome.next.inj h'
    rw [decodeImm_same L.params] at hv'
    exact Host.Outcome.next.inj (hv'.symm.trans hv)
  | imm k a =>
    cases k with
    | sext => cases he
    | table t =>
    obtain ⟨f, hf⟩ := eval_insnBits insn (insnBits_of_isField3 he)
    obtain ⟨q, hq, h⟩ := andThen_eq_next.mp h
    obtain ⟨q', hq', h'⟩ := andThen_eq_next.mp h'
    rw [hf ts s] at hq
    rw [hf ts s'] at hq'
    obtain rfl := Host.Outcome.next.inj hq
    obtain rfl := Host.Outcome.next.inj hq'
    obtain ⟨v, hv, h⟩ := andThen_eq_next.mp h
    obtain ⟨v', hv', h'⟩ := andThen_eq_next.mp h'
    obtain rfl := Host.Outcome.next.inj h
    obtain rfl := Host.Outcome.next.inj h'
    rw [immediate_same L.params L.ext13 L.hasExt13] at hv'
    exact Host.Outcome.next.inj (hv'.symm.trans hv)

/-! ### A store to a register -/

/-- A store to a register keeps the flags, and every word is what it was or is the value stored. -/
theorem storeReg_words {insn : Word} {a e : Expr} {p q : Progress} (wf : p.state.mem.wf = true)
    (h : perform insn (.assign (.store .reg a) e) p = .next q) :
    ∃ r, eval insn p.temps e p.state = .next r ∧ (∀ f, q.state.flag f = p.state.flag f) ∧
      ∀ x, q.state.word x = p.state.word x ∨ q.state.word x = r.1.resize 16 := by
  have F := (perform_frame h).flag
  obtain ⟨r, hr, h⟩ := andThen_eq_next.mp h
  refine ⟨r, hr, fun f => F f rfl, ?_⟩
  have R := eval_readsOnly hr
  obtain ⟨u, hu, h⟩ := andThen_eq_next.mp h
  have U := eval_readsOnly hu
  obtain ⟨-, rfl⟩ := storeMem_eq_next.mp h
  intro x
  have m : u.2.mem = p.state.mem := U.mem.trans R.mem
  by_cases hx : x = u.2.force (u.2.regAddr (u.1.resize 3))
  · right
    rw [hx]
    show (u.2.mem.write _ _).read _ = _
    rw [m]
    exact Memory.read_write_same _ _ wf
  · left
    show (u.2.mem.write _ _).read _ = _
    rw [m]
    exact Memory.read_write_other _ _ fun e => hx (BitVec.eq_of_toNat_eq e)

/-- Retiring changes no flag and no word. -/
theorem retire_keeps (s : State) (b : Bool) :
    (∀ f, (s.retire b).flag f = s.flag f) ∧ ∀ a, (s.retire b).word a = s.word a := by
  unfold State.retire
  cases b <;> exact ⟨fun f => by cases f <;> rfl, fun _ => rfl⟩

end Sys2Proof.Machine
end

