-- ==== Sys2Proof/Laws/PerInstr.lean ====
section
/-!
SUPPORT. Statements about every instruction, one lemma for each constructor.
-/

namespace Sys2Proof.Laws

/-- What the decoder makes of a well-formed page is well formed. -/
theorem decoded_wellFormed {p : Page} {w : Word} {i : Instr} (hp : p.wellFormed = true) (h : p.decoded w = .instr i) :
    i.wellFormed = true := by
  have hop : p.op.lawfulFor p.family = true := by
    unfold Page.wellFormed at hp; simp at hp; exact hp.1.2
  unfold Page.decoded at h
  split at h
  all_goals first
    | (next hf => rw [hf] at hop; obtain rfl := Decoded.instr.inj h; exact hop)
    | cases h

/-- Under well-formed pages the decoder only gives well-formed instructions. -/
theorem decode_wellFormed {ps : InsnPages} {w : Word} {i : Instr} (hps : ps.wellFormed = true)
    (h : decode ps w = .instr i) : i.wellFormed = true := by
  have each : ∀ p ∈ ps.pages, p.wellFormed = true := by
    unfold InsnPages.wellFormed at hps
    simp only [Bool.and_eq_true, List.all_eq_true] at hps
    exact hps.1.1
  have inPages : ∀ j, decodePages ps.pages w = .instr j → j.wellFormed = true := by
    intro j hj
    unfold decodePages at hj
    split at hj
    · next p hp => exact decoded_wellFormed (each p (List.mem_of_find?_eq_some hp)) hj
    · cases hj
  unfold decode at h
  split at h
  · exact inPages i h
  · split at h
    · obtain rfl := Decoded.instr.inj h; rfl
    · exact inPages i h

/-- The family: an instruction that well-formed pages give for some word is well formed (40_alu_families.md R98). -/
def DecodedWellFormed.Statement (i : Instr) : Prop :=
  ∀ (ps : InsnPages) (w : Word), ps.wellFormed = true → decode ps w = .instr i → i.wellFormed = true

theorem DecodedWellFormed.adjw (insn : Word) (op : Operation) : DecodedWellFormed.Statement (.adjw insn op) :=
  fun _ _ hps h => decode_wellFormed hps h

theorem DecodedWellFormed.exti (imm13 : BitVec 13) : DecodedWellFormed.Statement (.exti imm13) :=
  fun _ _ hps h => decode_wellFormed hps h

theorem DecodedWellFormed.ldw (insn : Word) (op : Operation) : DecodedWellFormed.Statement (.ldw insn op) :=
  fun _ _ hps h => decode_wellFormed hps h

theorem DecodedWellFormed.stw (insn : Word) (op : Operation) : DecodedWellFormed.Statement (.stw insn op) :=
  fun _ _ hps h => decode_wellFormed hps h

theorem DecodedWellFormed.xchw (insn : Word) (op : Operation) : DecodedWellFormed.Statement (.xchw insn op) :=
  fun _ _ hps h => decode_wellFormed hps h

end Sys2Proof.Laws
end

