-- ==== Sys2Proof/Laws/Step.lean ====
section
/-!
SUPPORT. What pages a machine runs with, and everything a fetch and a step can do, said once.
-/

namespace Sys2Proof

/-- The pages that a machine runs with obey the family rules (40_alu_families.md R98). -/
theorem InsnPages.accepted_wellFormed (ps : InsnPages) : ps.accepted.wellFormed = true := by
  unfold InsnPages.accepted
  split
  · assumption
  · rfl

/-- Pages that obey the family rules are accepted as they are. -/
theorem InsnPages.accepted_of_wellFormed {ps : InsnPages} (h : ps.wellFormed = true) : ps.accepted = ps :=
  if_pos h

end Sys2Proof

namespace Sys2Proof.Machine

/-- A fetch only reads. -/
theorem fetch_readsOnly {s : State} {r : Word × State} (h : fetch s = .next r) : ReadsOnly s r.2 := by
  obtain ⟨q, hq, hr⟩ := andThen_eq_next.mp h
  obtain rfl := Host.Outcome.next.inj hr
  exact (memRead_readsOnly hq).trans (readsOnly_afterForce _ _)

/-- A fetch of a known word at a known, populated address. -/
theorem fetch_known {s : State} {a insn : Word} (hpc : s.pc = .known a) (hp : s.populated a = true)
    (hw : s.word a = .known insn) : fetch s = .next (insn, s) := by
  simp [fetch, memRead_eq, hpc, hp, hw]

/-- A step goes on exactly when the fetch does and the instruction that the pages make of the word does. -/
theorem step_eq_next {s t : State} :
    step s = .next t ↔
      ∃ insn s₁, fetch s = .next (insn, s₁) ∧ executeDecoded insn (decode s.params.pages insn) s₁ = .next t := by
  unfold step
  rw [andThen_eq_next]
  constructor
  · rintro ⟨⟨insn, s₁⟩, hf, h⟩
    exact ⟨insn, s₁, hf, by rw [← (fetch_readsOnly hf).params]; exact h⟩
  · rintro ⟨insn, s₁, hf, h⟩
    exact ⟨(insn, s₁), hf, by
      show executeDecoded insn (decode s₁.params.pages insn) s₁ = _
      rw [(fetch_readsOnly hf).params]; exact h⟩

/-- What the instruction of a step that goes on was: an `EXTI`, a window instruction with the operation of its page, or
an instruction of a lawful page whose name is lost. -/
theorem executeDecoded_eq_next {insn : Word} {d : Decoded} {s t : State} (h : executeDecoded insn d s = .next t) :
    (∃ imm13, d = .instr (.exti imm13) ∧ execExti imm13 s = .next t) ∨
    (∃ w op, (d = .instr (.adjw w op) ∨ d = .instr (.ldw w op) ∨ d = .instr (.stw w op) ∨ d = .instr (.xchw w op)) ∧
      runOperation w op s = .next t) ∨
    (∃ p, d = .unnamed p ∧ runOperation insn p.op s = .next t) := by
  cases d with
  | instr i =>
    cases i with
    | exti imm13 => exact .inl ⟨imm13, rfl, h⟩
    | adjw w op => exact .inr (.inl ⟨w, op, .inl rfl, h⟩)
    | ldw w op => exact .inr (.inl ⟨w, op, .inr (.inl rfl), h⟩)
    | stw w op => exact .inr (.inl ⟨w, op, .inr (.inr (.inl rfl)), h⟩)
    | xchw w op => exact .inr (.inl ⟨w, op, .inr (.inr (.inr rfl)), h⟩)
  | unnamed p => exact .inr (.inr ⟨p, rfl, h⟩)
  | undefinedEncoding => cases h

end Sys2Proof.Machine
end

