-- ==== Sys2Proof/Tests/Slice0.lean ====
section
/-!
SUPPORT. Tests of the model. Expected results are those of spec/95_test_vectors.md (named by their ids) or worked out by hand from
the rule cited. No encoding survives in the manual, so words are written under SAMPLE pages, made up here to exercise the
decoder; they are not the manual's.
-/

namespace Sys2Proof.Tests

open Sys2Proof.Machine Sys2Proof.Claims

/-! ### Sample operations, pages and states -/

/-- `W ← W + 0xFFF8`: an adjustment of `W` by -8 (vector W4). -/
def setsW : Operation := .assign .w (.bin .add (.read .w) (.const 16 0xFFF8))

/-- `Rn ← W`, with the register number in bits 5 to 3 of the word. -/
def readsW : Operation := .assign (.store .reg (.un (.slice 5 3) (.read .insn))) (.read .w)

/-- `W ← mem[0x0200]`. -/
def loadsW : Operation := .assign .w (.load .mem (.const 16 0x0200))

/-- `old ← W; W ← Rn; Rn ← old`, the register, of bits 5 to 3, written in the new window. -/
def swapsW : Operation :=
  .seq (.assign (.temp 0 16) (.read .w))
    (.seq (.assign .w (.load .reg (field3 3))) (.assign (.store .reg (field3 3)) (.temp 0 16)))

/-- `Rd ← Rn`, with `d` in bits 8 to 6 and `n` in bits 5 to 3 of the word. -/
def copies : Operation := .assign (.store .reg (field3 6)) (.load .reg (field3 3))

/-- `Rd ← imm16` with the immediate of an arithmetic or logical instruction in bits 8 to 6, `d` in bits 5 to 3. -/
def loadsImm : Operation := .assign (.store .reg (field3 3)) (.imm (.table .al) (field3 6))

/-- `Z`, `S`, `C`, `V` of `Ra and Rb`, and the result to `Rd`; the fields as in `additionOp`. -/
def conjunction : Operation :=
  .seq (.assign (.temp 0 16) (.bin .and (.load .reg (field3 6)) (.load .reg (field3 3))))
    (.seq (.logicalFlags (.temp 0 16)) (.assign (.store .reg (field3 9)) (.temp 0 16)))

/-- A page of the low three bits 1. -/
def pageOf (family : Family) (op : Operation) : Page :=
  { mnemonic := "sample", family := family, mask := 7, value := 1, op := op }

/-- A sample `INSN_PAGES`: the three lowest bits choose the page. -/
def samplePages : InsnPages :=
  { exti := some sampleLayout
    pages :=
      [{ mnemonic := "ADJW", family := .adjw, mask := 7, value := 0, op := setsW },
       { mnemonic := "LDW", family := .ldw, mask := 7, value := 1, op := readsW },
       { mnemonic := "STW", family := .stw, mask := 7, value := 2, op := loadsW },
       { mnemonic := "XCHW", family := .xchw, mask := 7, value := 3, op := swapsW },
       { mnemonic := "sum", family := .arithmetic, mask := 7, value := 4, op := additionOp },
       { mnemonic := "jump", family := .conditionalJump, mask := 7, value := 7, op := jumpIf .z 0x0210 }] }

/-- A launch state with the sample pages, `PC = 0x0010`, `W = 0x0100` and the given words. -/
def sample (words : List (Nat × Word)) : State :=
  State.launch { pages := samplePages, immAl3 := none, unpopulated := [] } 0x0010 0x0100 words

/-- What `f` sees of a next state. -/
def seen {α β : Type} (r : Result α) (f : α → β) : Option β :=
  match r with
  | .next a => some (f a)
  | .fault _ => none
  | .refused _ => none

/-! ### EXTI (vectors X1, X2, X5) -/

theorem test_exti_sets_the_pending_immediate :
    seen (exec (.exti 0x0ABC) (sample [])) (fun t => (t.pc, t.ext13, t.hasExt13)) =
      some (.known 0x0011, .known 0x0ABC, 1#1) ∧
    seen (exec (.exti 0x0ABC) (sample [])) (fun t => (t.w, t.flagC, t.mem)) =
      some (.known 0x0100, .undefined, []) := by decide

theorem test_exti_wraps_pc_and_overwrites :
    seen (exec (.exti 0) ((sample []).setPc (.known 0xFFFF) |>.setExt13 (.known 0x0ABC) 1#1))
      (fun t => (t.pc, t.ext13, t.hasExt13)) = some (.known 0x0000, .known 0x0000, 1#1) := by decide

/-! ### The window instructions, each with a sample operation -/

/-- The worked example of R110: with `W = 0xFFF8`, an adjustment by -8; vector W4. -/
theorem test_adjw_moves_every_register_and_no_word :
    seen (exec (.adjw 0 setsW) ((sample [(0xFFF9, 0x1111), (0xFFF1, 0x2222)]).setW (.known 0xFFF8)))
      (fun t => (t.w, t.reg 1, t.word 0xFFF9, t.pc)) =
      some (.known 0xFFF0, .known 0x2222, .known 0x1111, .known 0x0011) := by decide

/-- R42: a pending immediate is dropped by an instruction that uses none (vector X3). -/
theorem test_adjw_drops_the_pending_immediate :
    seen (exec (.adjw 0 setsW) ((sample []).setExt13 (.known 0x1FFF) 1#1)) (fun t => (t.ext13, t.hasExt13)) =
      some (.undefined, 0#1) := by decide

/-- `Rn ← W` with `n` from bits 5 to 3 of the word `0b110001`, which is 6; vector W2 for the wrap of the address. -/
theorem test_ldw_stores_w_in_the_register_its_word_names :
    seen (exec (.ldw 0b110001 readsW) ((sample []).setW (.known 0xFFFC))) (fun t => (t.mem, t.w, t.pc)) =
      some ([(2, 0xFFFC)], .known 0xFFFC, .known 0x0011) := by decide

/-- An access where there is no memory is stuck (R61): register 6 of the window at `0x0100` is at `0x0106`. -/
theorem test_ldw_is_stuck_without_memory :
    (match exec (.ldw 0b110001 readsW)
        { sample [] with params := { pages := samplePages, immAl3 := none, unpopulated := [0x0106] } } with
      | .fault (.stuck a) => some a
      | _ => none) = some 0x0106 := by decide

theorem test_stw_sets_w_from_memory :
    seen (exec (.stw 0 loadsW) (sample [(0x0200, 0x0300), (0x0301, 0x5555)])) (fun t => (t.w, t.reg 1)) =
      some (.known 0x0300, .known 0x5555) := by decide

/-- An UNDEFINED word makes `W`, and so every register, UNDEFINED (R16); the machine goes on. -/
theorem test_stw_of_an_undefined_word_goes_on :
    seen (exec (.stw 0 loadsW) (sample [(0x0101, 0x5555)])) (fun t => (t.w, t.reg 1, t.word 0x0101)) =
      some (.undefined, .undefined, .known 0x5555) := by decide

/-- The last assignment addresses `R1` through the new `W` (R110). -/
theorem test_xchw_addresses_the_new_window :
    seen (exec (.xchw 0b001011 swapsW) (sample [(0x0101, 0x0400)])) (fun t => (t.w, t.mem)) =
      some (.known 0x0400, [(0x0101, 0x0400), (0x0401, 0x0100)]) := by decide

/-! ### Decoding under the sample pages -/

theorem test_sample_pages_are_well_formed : samplePages.wellFormed = true := by decide

theorem test_decode_exti : decode samplePages 0b1001000110100101 = .instr (.exti 0b1001000110100) := by decide

theorem test_decode_adjw : decode samplePages 0b1010101010101000 = .instr (.adjw 0b1010101010101000 setsW) := by decide

theorem test_decode_ldw : decode samplePages 0b0000000000110001 = .instr (.ldw 0b0000000000110001 readsW) := by decide

theorem test_decode_stw : decode samplePages 0b1111111111111010 = .instr (.stw 0b1111111111111010 loadsW) := by decide

theorem test_decode_xchw : decode samplePages 0b0000000000000011 = .instr (.xchw 0b0000000000000011 swapsW) := by decide

theorem test_decode_word_without_a_page : decode samplePages 0b0000000000000110 = .undefinedEncoding := by decide

theorem test_encode_exti : encode samplePages (.exti 0b1001000110100) = some 0b1001000110100101 := by decide

/-- Without pages every word is an undefined encoding. -/
theorem test_decode_without_pages : decode { exti := none, pages := [] } 0xC000 = .undefinedEncoding := by decide

/-- Pages are checked as they are supplied: those that contradict their family are no `INSN_PAGES` (R98, R79). -/
theorem test_supplied_pages_are_checked :
    (State.launch { pages := samplePages, immAl3 := none, unpopulated := [] } 0 0 []).params.pages = samplePages ∧
    (State.launch { pages := { exti := some sampleLayout, pages := [pageOf .other setsW] }, immAl3 := none, unpopulated := [] }
      0 0 []).params.pages = { exti := none, pages := [] } := by decide

/-! ### The step -/

theorem test_step_fetches_and_executes :
    seen (step (sample [(0x0010, 0b1001000110100101)])) (fun t => (t.pc, t.ext13)) =
      some (.known 0x0011, .known 0b1001000110100) := by decide

/-- Vector X6. -/
theorem test_step_on_an_undefined_encoding :
    (match step (sample [(0x0010, 0b110)]) with
      | .fault (.unpredictable .undefinedEncoding) => true
      | _ => false) = true := by decide

/-- Vector J1, and J4: after a jump nothing is pending. -/
theorem test_step_jumps_when_the_flag_is_set :
    seen (step (((sample [(0x0010, 7)]).setFlag .z (.known 1#1)).setExt13 (.known 1) 1#1)) (fun t => (t.pc, t.hasExt13)) =
      some (.known 0x0210, 0#1) := by decide

/-- The arithmetic instruction of program D, step 4: `0x00F0 + 0x0F00`, here `R3 ← R1 + R2`. -/
theorem test_step_adds_registers :
    seen (step (sample [(0x0010, 0b011001010100), (0x0101, 0x00F0), (0x0102, 0x0F00)]))
      (fun t => (t.reg 3, t.flagZ, t.flagS, t.flagC, t.flagV)) =
      some (.known 0x0FF0, .known 0, .known 0, .known 0, .known 0) := by decide

theorem test_placed_word_runs :
    seen (step ((sample []).withFetchWord 16 0b1001000110100101)) (fun t => t.ext13) =
      some (.known 0b1001000110100) := by decide

/-! ### Flags (vectors F2, F3, F4, F8, F9, L1) -/

theorem test_arithmetic_flags_F2 :
    arithmeticFlags (.known 0xFFFF) (.known 0x0001) (.known 0) = ⟨.known 1, .known 0, .known 1, .known 0⟩ := by decide

theorem test_arithmetic_flags_F3 :
    arithmeticFlags (.known 0x7FFF) (.known 0x0001) (.known 0) = ⟨.known 0, .known 1, .known 0, .known 1⟩ := by decide

theorem test_arithmetic_flags_F4 :
    arithmeticFlags (.known 0x8000) (.known 0x8000) (.known 0) = ⟨.known 1, .known 0, .known 1, .known 1⟩ := by decide

theorem test_arithmetic_flags_F8 :
    arithmeticFlags (.known 0x7FFF) (.known 0x0000) (.known 1) = ⟨.known 0, .known 1, .known 0, .known 1⟩ := by decide

theorem test_arithmetic_flags_F9 :
    arithmeticFlags (.known 0x8000) (.known 0xFFFF) (.known 0) = ⟨.known 0, .known 0, .known 1, .known 1⟩ := by decide

theorem test_logical_flags_L1 :
    logicalFlags (BinOp.and.apply (.known 0x00F0#16) (.known 0x0F00#16)) =
      ⟨.known 1, .known 0, .undefined, .undefined⟩ := by decide

/-! ### Operators and immediates (vectors V1, V3, V9, V12 to V15, V18, V24, I4, I9, I11, I13, I15) -/

theorem test_operators :
    (BinOp.add.bits 0xFFFF#16 0x0001#16).toNat = 0x10000 ∧ (BinOp.add.bits 0b101#3 0x00FF#16).toNat = 0x00104 ∧
    (UnOp.bits .not 0b101#3).toNat = 0b010 ∧ (BinOp.cat.bits 0x1234#13 0b101#3).toNat = 0x91A5 ∧
    (UnOp.bits (.rep 3) 0b10#2).toNat = 0b101010 ∧ (UnOp.bits (.slice 15 12) 0xABCD#16).toNat = 0xA ∧
    (UnOp.bits .signExtend16 0b10000#5).toNat = 0xFFF0 ∧ (BinOp.eq.bits 0x0005#16 0b101#3).toNat = 1 := by decide

theorem test_undefined_operand :
    BinOp.and.apply (.undefined : Val 16) (.known 0x0000#16) = .undefined := by decide

theorem test_extended_immediates :
    seen (immediate (.table .al) (.known 0b101#3) ((sample []).setExt13 (.known 0x1234) 1#1)) id = some (.known 0x91A5) ∧
    seen (immediate (.table .al) (.known 0b010#3) ((sample []).setExt13 (.known 0) 1#1)) id = some (.known 0x0002) ∧
    seen (immediate (.table .sr) (.known 0b000#3) ((sample []).setExt13 (.known 0) 1#1)) id = some (.known 0x0000) := by
  decide

theorem test_short_immediates :
    seen (immediate (.table .sr) (.known 0b000#3) (sample [])) id = some (.known 8) ∧
    seen (immediate (.table .al) (.known 0b110#3) (sample [])) id = some (.known 0x7FFF) ∧
    seen (immediate (.table .al) (.known 0b011#3) (sample [])) id = none ∧
    seen (immediate .sext (.known 0b10000#5) (sample [])) id = some (.known 0xFFF0) := by decide

/-! ### Registers, memory, the bus, reset -/

/-- Vectors W2, W3: the addresses of `R0` and `R7`. -/
theorem test_register_addresses :
    ((sample []).setW (.known 0xFFFC)).regAddr (.known 4) = .known 0x0000 ∧
    ((sample []).setW (.known 0x0000)).regAddr (.known 7) = .known 0x0007 := by decide

/-- Vector S8: the address is ANDed with 0xFFFF. -/
theorem test_memory_addresses_wrap :
    seen (loadFrom .mem (.known 0x1ABCD#17) (sample [(0xABCD, 0x1234)])) (fun r => r.1) = some (.known 0x1234) := by decide

/-- A write of UNDEFINED takes the word out of the canonical form. -/
theorem test_memory_canonical_form :
    Memory.write [(1, 7), (5, 8)] 5 .undefined = [(1, 7)] ∧ Memory.write [(1, 7), (5, 8)] 3 (.known 9) = [(1, 7), (3, 9), (5, 8)] ∧
    Memory.wf [(1, 7), (3, 9), (5, 8)] = true ∧ Memory.wf [(3, 7), (3, 9)] = false ∧ Memory.wf [(65536, 7)] = false := by
  decide

theorem test_bus_write_is_recorded :
    (extWrite (.known 0x0042) (.known 0x1234) (sample [])).extLog = [.write 0x0042 0x1234] := by decide

theorem test_reset_values :
    State.reset.pc = .known 0x0000 ∧ State.reset.w = .known 0xFFF8 ∧ State.reset.flagZ = .undefined ∧
    State.reset.hasExt13 = 0#1 ∧ State.reset.mem = [] := by decide

/-! ### WellFormed: one ill-formed term for each check -/

/-- Each length of an expression. A repetition of count 0 fits (R7). -/
theorem test_ill_formed_lengths :
    Expr.fits (.un (.rep 0) (.read .insn)) = true ∧
    Expr.fits (.un (.slice 16 0) (.read .insn)) = false ∧ Expr.fits (.un (.slice 0 1) (.read .insn)) = false ∧
    Expr.fits (.un .signExtend16 (.un (.rep 0) (.read .insn))) = false ∧
    Expr.fits (.un .signExtend16 (.bin .add (.read .pc) (.read .pc))) = false ∧
    Expr.fits (.load .reg (.const 4 0)) = false ∧ Expr.fits (.decodeImm .al (.const 4 0)) = false ∧
    Expr.fits (.imm (.table .sr) (.const 2 0)) = false ∧ Expr.fits (.imm .sext (.const 2 0)) = false ∧
    Expr.fits (.imm .sext (.const 17 0)) = false := by decide

/-- Each length of an operation, and one deep inside it. -/
theorem test_ill_formed_operation_lengths :
    Operation.fits (.assign (.store .reg (.const 4 0)) (.read .pc)) = false ∧
    Operation.fits (.ite (.read .pc) .skip .skip) = false ∧
    Operation.fits (.arithmeticFlags (.const 3 0) (.read .pc) (.const 1 0)) = false ∧
    Operation.fits (.arithmeticFlags (.read .pc) (.const 3 0) (.const 1 0)) = false ∧
    Operation.fits (.arithmeticFlags (.read .pc) (.read .pc) (.read .pc)) = false ∧
    Operation.fits (.logicalFlags (.const 3 0)) = false ∧
    Operation.lengthsFit (.seq .skip (.ite (.read .pc) .skip .skip)) = false ∧
    Operation.lengthsFit (.seq .skip (.assign .pc (.un .not (.load .reg (.const 4 0))))) = false := by decide

/-- Each check of a window instruction, for each of the four. -/
theorem test_ill_formed_window_instructions :
    Instr.wellFormed (.adjw 0 .skip) = false ∧
    Instr.wellFormed (.ldw 0 (.assign .pc (.un (.rep 16) (.read (.flag .z))))) = false ∧
    Instr.wellFormed (.ldw 0 (.seq setsW (.assign (.flag .z) (.const 1 0)))) = true ∧
    Instr.wellFormed (.stw 0 (.assign .w (.imm (.table .al) (.const 3 0)))) = false ∧
    Instr.wellFormed (.xchw 0 (.assign .w (.decodeImm .sr (.const 3 0)))) = false ∧
    Instr.wellFormed (.adjw 0 (.assign .w (.un (.slice 16 0) (.read .insn)))) = false ∧
    Instr.wellFormed (.ldw 0 (.assign (.store .reg (.const 3 5)) (.read .w))) = false := by decide

/-- Register numbers (R26, R91): a fixed one, one of two bits, one that is no field, two fields with a bit in common, one
whose bits decide something as well; and an encoding that fixes a bit of one. -/
theorem test_ill_formed_register_numbers :
    Operation.registersInterchangeable (.assign .pc (.load .reg (.const 3 5))) = false ∧
    Operation.registersInterchangeable (.assign .pc (.load .reg (.un (.slice 4 3) (.read .insn)))) = false ∧
    Operation.registersInterchangeable (.assign .pc (.load .reg (.un (.slice 2 0) (.load .reg (field3 3))))) = false ∧
    Operation.registersInterchangeable (.assign (.store .reg (field3 3)) (.load .reg (field3 4))) = false ∧
    Operation.registersInterchangeable (.assign (.store .reg (field3 3)) (.load .reg (field3 3))) = true ∧
    Operation.registersInterchangeable (.ite (.bin .eq (field3 3) (.const 3 0)) .skip copies) = false ∧
    Page.wellFormed { pageOf .other copies with mask := 15 } = false ∧ Page.wellFormed (pageOf .other copies) = true := by
  decide

/-- `Rd ← e`, with `d` in bits 11 to 9 of the word. -/
def sets (e : Expr) : Operation := .assign (.store .reg (field3 9)) e

/-- `t ← 0; if Ra[15] = 1 then t ← 0xFFFF; Rd ← t`: the sign of `Ra`, by a choice that only computes. -/
def signOf : Operation :=
  .seq (.assign (.temp 1 16) (.load .reg (field3 6)))
    (.seq (.assign (.temp 0 16) (.const 16 0))
      (.seq (.ite (.un (.slice 15 15) (.temp 1 16)) (.assign (.temp 0 16) (.const 16 0xFFFF)) .skip) (sets (.temp 0 16))))

/-- Lawful pages of the three ALU families: with immediates from `ext13` in ways of their own too (R41). -/
theorem test_lawful_alu_pages :
    Operation.lawfulFor additionOp .arithmetic = true ∧ Operation.lawfulFor conjunction .logical = true ∧
    Operation.lawfulFor loadsImm .arithmetic = true ∧
    Operation.lawfulFor (sets (.imm (.table .sr) (field3 6))) .shiftRotate = true ∧
    Operation.lawfulFor signOf .shiftRotate = true ∧
    Operation.lawfulFor (sets (.un .signExtend16 (.read .ext13))) .logical = true ∧
    Operation.lawfulFor (sets (.bin .cat (.un (.slice 10 0) (.read .ext13)) (.un (.slice 4 0) (.read .insn)))) .arithmetic =
      true := by
  decide

/-- `t ← Ra + Rb`, a temporary of 17 bits. -/
def sum17 : Operation := .assign (.temp 0 17) (.bin .add (.load .reg (field3 6)) (.load .reg (field3 3)))

/-- The result of an addition is `r[15:0]` (R92): a page that saturates, and one that stores `r[16:1]`. -/
theorem test_results_of_additions :
    Operation.lawfulFor (.seq sum17 (sets (.un (.slice 15 0) (.temp 0 17)))) .arithmetic = true ∧
    Operation.lawfulFor (.seq sum17 (.seq (.assign (.temp 1 16) (.un (.slice 15 0) (.temp 0 17)))
      (.seq (.ite (.un (.slice 16 16) (.temp 0 17)) (.assign (.temp 1 16) (.const 16 0xFFFF)) .skip)
        (sets (.temp 1 16))))) .arithmetic = false ∧
    Operation.lawfulFor (.seq sum17 (sets (.un (.slice 16 1) (.temp 0 17)))) .arithmetic = false := by decide

/-- Two destinations (R91 leaves their number open), and a result stored before the flags are set; a second result of a register
that the first store may have changed is refused. -/
theorem test_results_in_any_number_and_order :
    Operation.lawfulFor (.seq sum17 (.seq (sets (.temp 0 17)) (.assign (.store .reg (field3 6)) (.temp 0 17)))) .arithmetic =
      true ∧
    Operation.lawfulFor (.seq (.assign (.temp 0 16) (.bin .or (.load .reg (field3 6)) (.load .reg (field3 3))))
      (.seq (sets (.temp 0 16)) (.logicalFlags (.temp 0 16)))) .logical = true ∧
    Operation.lawfulFor (.seq (sets (.const 16 0)) (.assign (.store .reg (field3 6)) (.load .reg (field3 3)))) .arithmetic =
      false := by decide

/-- `if has_ext13 then t ← {ext13, n} else t ← Rn; PC ← t`, `n` in bits 5 to 3: a field that is part of an immediate or the
number of a register, as `has_ext13` says (R41). -/
def extOrRegister : Operation :=
  .seq (.ite (.read .hasExt13) (.assign (.temp 0 16) (.bin .cat (.read .ext13) (field3 3)))
    (.assign (.temp 0 16) (.load .reg (field3 3)))) (.assign .pc (.temp 0 16))

theorem test_a_field_may_depend_on_has_ext13 :
    Operation.lawfulFor extOrRegister .other = true ∧
    Operation.lawfulFor (.seq (.ite (.read .hasExt13) (.assign (.temp 0 16) (.bin .cat (.read .ext13) (field3 3)))
      (.assign (.temp 0 16) (.load .reg (field3 3)))) (sets (.temp 0 16))) .logical = true ∧
    seen (runOperation 0b010000 extOrRegister ((sample [(0x0102, 7)]).setExt13 (.known 0x1FFF) 1#1)) (fun t => t.pc) =
      some (.known 0xFFFA) ∧
    seen (runOperation 0b010000 extOrRegister (sample [(0x0102, 7)])) (fun t => t.pc) = some (.known 7) := by decide

/-- `Rd ← {Z, S, C, V}; PC ← Rn`: flags may be read by any instruction (R33), and a copied UNDEFINED flag is UNDEFINED, unless `d`
is `n`. -/
def flagsAndJump : Operation :=
  .seq (.assign (.store .reg (field3 6)) (.bin .cat (.bin .cat (.read (.flag .z)) (.read (.flag .s)))
    (.bin .cat (.read (.flag .c)) (.read (.flag .v))))) (.assign .pc (.load .reg (field3 3)))

theorem test_any_page_may_read_flags :
    Operation.lawfulFor flagsAndJump .other = true ∧
    seen (runOperation 0b001010000 flagsAndJump (sample [(0x0101, 9), (0x0102, 7)])) (fun t => (t.pc, t.reg 1, t.draws)) =
      some (.known 7, .undefined, 0) ∧
    flagsAndJump.flagsReachPc 0b001010000 = false ∧ flagsAndJump.flagsReachPc 0b010010000 = true := by decide

/-- `W ← PC + 1 + (16{Z} and 5); PC ← W`, a window page. -/
def flagOffset : Operation :=
  .seq (.assign .w (.bin .add (.bin .add (.read .pc) (.const 16 1)) (.bin .and (.un (.rep 16) (.read (.flag .z))) (.const 16 5))))
    (.assign .pc (.read .w))

/-- On an UNDEFINED `Z` it goes where it would go for a `Z` of 0 or of 1 (R119), and `Z` stays UNDEFINED. -/
theorem test_an_undefined_flag_in_a_target :
    Operation.lawfulFor flagOffset .ldw = true ∧ flagOffset.flagsReachPc 0 = true ∧
    (seen (runOperation 0 flagOffset (sample [])) (fun t => t.pc) = some (.known 0x0011) ∨
      seen (runOperation 0 flagOffset (sample [])) (fun t => t.pc) = some (.known 0x0016)) ∧
    seen (runOperation 0 flagOffset (sample [])) (fun t => t.flagZ) = some .undefined := by
  refine ⟨by decide, by decide, ?_, rfl⟩
  have h : Config.undefinedBits 0 1 = 0#1 ∨ Config.undefinedBits 0 1 = 1#1 := by
    generalize Config.undefinedBits 0 1 = b
    revert b
    decide
  have key : seen (runOperation 0 flagOffset (sample [])) (fun t => t.pc) =
      some (.known (((BinOp.add.bits (BinOp.add.bits 0x0010#16 1#16)
        (BinOp.and.bits (UnOp.bits (.rep 16) (Config.undefinedBits 0 1)) 5#16)).setWidth 16).setWidth 16)) := rfl
  rcases h with h | h <;> rw [key, h] <;> decide

/-- What R91 to R97 forbid every ALU page: a sign-extended immediate, bits of the word as an operand, an operand or a
destination in memory, a choice on an operand that stores, an addition of 8 bits, one of 17 bits and 1. -/
theorem test_unlawful_alu_pages :
    Operation.lawfulFor (sets (.imm .sext (field3 6))) .shiftRotate = false ∧
    Operation.lawfulFor (sets (.read .insn)) .arithmetic = false ∧
    Operation.lawfulFor (sets (.load .mem (.read .pc))) .arithmetic = false ∧
    Operation.lawfulFor (.assign (.store .mem (.read .pc)) (.load .reg (field3 3))) .logical = false ∧
    Operation.lawfulFor (.ite (.un (.slice 0 0) (.load .reg (field3 3))) copies .skip) .shiftRotate = false ∧
    Operation.lawfulFor (.ite (.read (.flag .c)) copies .skip) .arithmetic = false ∧
    Operation.lawfulFor (sets (.bin .add (.un (.slice 7 0) (.load .reg (field3 3))) (.const 8 1))) .arithmetic = false ∧
    Operation.lawfulFor (sets (.bin .add (.bin .cat (.read (.flag .c)) (.load .reg (field3 3))) (.const 1 1))) .arithmetic =
      false := by decide

/-- Flags and result: of a logical page `C` alone known, `Z` alone written, the flags of a constant beside a store (R94); of
an arithmetic page the flags of another sum than the one stored (R93). -/
theorem test_unlawful_flags_of_the_result :
    Operation.lawfulFor (.seq conjunction (.assign (.flag .c) (.const 1 0))) .logical = false ∧
    Operation.lawfulFor (.seq copies (.assign (.flag .z) (.const 1 0))) .logical = false ∧
    Operation.lawfulFor (.seq (.logicalFlags (.const 16 0)) copies) .logical = false ∧
    Operation.lawfulFor (.seq (.arithmeticFlags (.load .reg (field3 6)) (.const 16 1) (.const 1 0)) copies) .arithmetic =
      false := by decide

/-- A choice that only computes makes its value UNDEFINED with its condition (R97, R16), and takes its branch when it is known:
`R1` is UNDEFINED, `R2` is `0x8000`. -/
theorem test_choice_of_a_value :
    seen (runOperation 0b011001000000 signOf (sample [(0x0102, 0x8000), (0x0103, 7)])) (fun t => (t.reg 3, t.draws)) =
      some (.undefined, 0) ∧
    seen (runOperation 0b011010000000 signOf (sample [(0x0102, 0x8000), (0x0103, 7)])) (fun t => (t.reg 3, t.draws)) =
      some (.known 0xFFFF, 0) := by decide

/-- Each rule of each other family. -/
theorem test_unlawful_for_the_family :
    Operation.lawfulFor setsW .arithmetic = false ∧ Operation.lawfulFor readsW .logical = false ∧
    Operation.lawfulFor (.assign .pc (.const 16 0)) .arithmetic = false ∧
    Operation.lawfulFor (.assign .pc (.const 16 0)) .logical = false ∧
    Operation.lawfulFor (.assign .pc (.const 16 0)) .shiftRotate = false ∧
    Operation.lawfulFor (.logicalFlags (.read .pc)) .arithmetic = false ∧
    Operation.lawfulFor (.arithmeticFlags (.read .pc) (.read .pc) (.const 1 0)) .logical = false ∧
    Operation.lawfulFor (.assign (.temp 0 16) (.imm (.table .sr) (field3 0))) .arithmetic = false ∧
    Operation.lawfulFor (.assign (.temp 0 16) (.imm (.table .al) (field3 0))) .shiftRotate = false ∧
    Operation.lawfulFor (.assign .pc (.const 16 0)) .conditionalJump = false ∧
    Operation.lawfulFor (.ite (.read (.flag .z)) .skip .skip) .conditionalJump = false ∧
    Operation.lawfulFor (.assign .pc (.bin .add (.read .pc) (.bin .and (.un (.rep 16) (.read (.flag .z))) (.const 16 5))))
      .conditionalJump = false ∧
    Operation.lawfulFor (.ite (.read (.flag .z)) (.assign .pc (.const 16 0)) (.assign .pc (.const 16 1))) .conditionalJump =
      false ∧
    Operation.lawfulFor (.seq (jumpIf .z 5) (jumpIf .z 6)) .conditionalJump = false ∧
    Operation.lawfulFor (jumpIf .z 0) .conditionalJump = true ∧ Operation.lawfulFor setsW .other = false ∧
    Operation.lawfulFor (.assign .pc (.un (.slice 16 0) (.read .insn))) .other = false := by decide

/-- A layout of `EXTI` with 12 bits, with a place outside the word, with one place twice, with an identifying bit where the
immediate stands. -/
theorem test_ill_formed_layouts :
    ExtiLayout.wellFormed { immBits := [3, 4, 5, 6, 7, 8, 9, 10, 11, 12, 13, 14], opcode := 5 } = false ∧
    ExtiLayout.wellFormed { immBits := [3, 4, 5, 6, 7, 8, 9, 10, 11, 12, 13, 14, 16], opcode := 5 } = false ∧
    ExtiLayout.wellFormed { immBits := [3, 4, 5, 6, 7, 8, 9, 10, 11, 12, 13, 14, 14], opcode := 5 } = false ∧
    ExtiLayout.wellFormed { sampleLayout with opcode := 13 } = false := by decide

/-- A page whose value leaves its mask; two pages for one word; a page on a word of `EXTI`; an ill-formed page among the
pages; an ill-formed layout. -/
theorem test_ill_formed_pages :
    Page.wellFormed { mnemonic := "a", family := .other, mask := 1, value := 2, op := .skip } = false ∧
    InsnPages.wellFormed { exti := none, pages :=
      [{ mnemonic := "a", family := .other, mask := 1, value := 1, op := .skip },
       { mnemonic := "b", family := .other, mask := 2, value := 2, op := .skip }] } = false ∧
    InsnPages.wellFormed { exti := some sampleLayout, pages :=
      [{ mnemonic := "a", family := .other, mask := 0x8000, value := 0x8000, op := .skip }] } = false ∧
    InsnPages.wellFormed { exti := none, pages :=
      [{ mnemonic := "a", family := .other, mask := 1, value := 1, op := setsW }] } = false ∧
    InsnPages.wellFormed { exti := some { sampleLayout with opcode := 13 }, pages := [] } = false := by decide

/-! ### Witnesses: for each statement with hypotheses, a state and operands that meet them together -/

theorem witness_SecondExtiOverwritesTheFirst : ∃ t, exec (.exti 1) (sample []) = .next t := ⟨_, rfl⟩

/-- At the boundary constants, with a 3-bit and a 16-bit field. -/
theorem witness_ExtendedImmediateReachesEveryConstant :
    (∃ t, exec (.exti ((0xFFFF : Word).extractLsb' 3 13)) (sample []) = .next t) ∧
    (7#3).setWidth 3 = (0xFFFF : Word).setWidth 3 ∧ (0x0000#16).setWidth 3 = (0x0000 : Word).setWidth 3 :=
  ⟨⟨_, rfl⟩, by decide, by decide⟩

/-- First clause: an `EXTI` word at `PC`. -/
theorem witness_ExtendedImmediateRegisters_exti :
    fetch (sample [(0x0010, 5)]) = .next (5, sample [(0x0010, 5)]) ∧ (∃ t, step (sample [(0x0010, 5)]) = .next t) ∧
    decode samplePages 5 = .instr (.exti 0) :=
  ⟨rfl, ⟨_, rfl⟩, by decide⟩

/-- Second clause: a word that is no `EXTI`. -/
theorem witness_ExtendedImmediateRegisters_other :
    fetch (sample [(0x0010, 0)]) = .next (0, sample [(0x0010, 0)]) ∧ (∃ t, step (sample [(0x0010, 0)]) = .next t) ∧
    ∀ imm13, decode (sample [(0x0010, 0)]).params.pages 0 ≠ .instr (.exti imm13) := by
  refine ⟨rfl, ⟨_, rfl⟩, fun imm13 h => ?_⟩
  have : decode samplePages 0 = .instr (.adjw 0 setsW) := by decide
  exact absurd ((show decode samplePages 0 = .instr (.exti imm13) from h).symm.trans this) (by simp)

theorem witness_WindowInstructionsComplete :
    (∀ form ∈ windowForms, (form 0 setsW).wellFormed = true) ∧ setsW.windowLawful = true ∧ setsW.assignsPc = false ∧
    (sample []).params.unpopulated = [] := by
  refine ⟨fun form h => ?_, by decide, by decide, rfl⟩
  simp only [windowForms, List.mem_cons, List.not_mem_nil, or_false] at h
  rcases h with rfl | rfl | rfl | rfl <;> decide

theorem witness_WindowInstructionsGoOnOrAreStuck :
    setsW.windowLawful = true ∧ readsW.windowLawful = true ∧ loadsW.windowLawful = true ∧ swapsW.windowLawful = true := by
  decide

/-- An operation that sets `W` and stores nothing, and one that stores a register and leaves `W` alone. -/
theorem witness_WindowInstructionFrame :
    (setsW.windowLawful = true ∧ setsW.storesToMemory = false ∧ setsW.usesBus = false ∧
      (∃ p, performInstruction 0 setsW (sample []) = .next p) ∧ ∃ t, exec (.stw 0 setsW) (sample []) = .next t) ∧
    (readsW.windowLawful = true ∧ readsW.assignsW = false ∧
      (∃ p, performInstruction 0 readsW (sample []) = .next p ∧ (0x0107 : Word) ∉ p.stored) ∧
      (sample []).regAddr (.known 7) = .known 0x0107 ∧ ∃ t, exec (.ldw 0 readsW) (sample []) = .next t) :=
  ⟨⟨by decide, by decide, by decide, ⟨_, rfl⟩, ⟨_, rfl⟩⟩,
    ⟨by decide, by decide, ⟨_, rfl, by decide⟩, by decide, ⟨_, rfl⟩⟩⟩

/-- A known and an UNDEFINED value for `W`, the known one at the top of the address space. -/
theorem witness_SettingWMovesEveryRegisterAndNoWord :
    eval 0 [] (.const 16 0xFFFF) (sample []) = .next (.known 0xFFFF, sample []) ∧
    eval 0 [] (.undef 16) (sample []) = .next (.undefined, sample []) := ⟨rfl, rfl⟩

/-- With memory at the address, and without; the address wraps. -/
theorem witness_ReadingWIntoARegister :
    eval 0 [] (.const 3 7) ((sample []).setW (.known 0xFFFF)) = .next (.known 7, (sample []).setW (.known 0xFFFF)) ∧
    (Val.known 7#3).resize 3 = .known 7#3 ∧ ((sample []).setW (.known 0xFFFF)).populated (0xFFFF + (7#3).setWidth 16) = true ∧
    ({ sample [] with w := .known 0xFFFF, params := { pages := samplePages, immAl3 := none, unpopulated := [6] } }).populated
      (0xFFFF + (7#3).setWidth 16) = false :=
  ⟨rfl, by decide, by decide, by decide⟩

theorem witness_OrderOfAssignmentsDecidesTheWindow :
    (sample []).w = .known 0x0100 ∧ (sample []).params.unpopulated = [] := ⟨rfl, rfl⟩

theorem witness_OnlyWindowInstructionsChangeW :
    (sample [(0x0010, 0)]).params.pages.wellFormed = true ∧
    fetch (sample [(0x0010, 0)]) = .next (0, sample [(0x0010, 0)]) ∧
    ∃ t, step (sample [(0x0010, 0)]) = .next t ∧ t.w ≠ (sample [(0x0010, 0)]).w :=
  ⟨by decide, rfl, _, rfl, by decide⟩

theorem witness_OperationsThatNameNoRegisterIgnoreW :
    (jumpIf .z 5).namesW = false ∧ (jumpIf .z 5).usesRegisters = false ∧
    ∃ t, runOperation 0 (jumpIf .z 5) ((sample []).setFlag .z (.known 1#1)) = .next t :=
  ⟨by decide, by decide, _, rfl⟩

theorem witness_StepRunsTheDecodedInstruction :
    (sample [(0x0010, 5)]).pc = .known 0x0010 ∧ (sample [(0x0010, 5)]).populated 0x0010 = true ∧
    (sample [(0x0010, 5)]).word 0x0010 = .known 5 ∧ decode (sample [(0x0010, 5)]).params.pages 5 = .instr (.exti 0) := by
  decide

/-- A state and a word for each clause. -/
theorem witness_StepOnOtherWords :
    decode (sample []).params.pages 4 =
      .unnamed { mnemonic := "sum", family := .arithmetic, mask := 7, value := 4, op := additionOp } ∧
    decode (sample []).params.pages 6 = .undefinedEncoding ∧ (sample [(0x0010, 6)]).pc = .known 0x0010 ∧
    (sample [(0x0010, 6)]).populated 0x0010 = true ∧ (sample [(0x0010, 6)]).word 0x0010 = .known 6 ∧
    (sample [(0x0010, 4)]).word 0x0010 = .known 4 := by decide

theorem witness_StepOnAnUndefinedWord :
    (sample []).pc = .known 0x0010 ∧ (sample []).populated 0x0010 = true ∧ (sample []).word 0x0010 = .undefined := by
  decide

theorem witness_EveryStepKeepsTheInvariant :
    Inv (sample [(0x0010, 5)]) ∧ ∃ t, step (sample [(0x0010, 5)]) = .next t :=
  ⟨⟨by decide, by simp [sample, State.launch], by decide⟩, _, rfl⟩

/-- The pages of the two launch clauses. -/
theorem witness_LaunchStatesMeetTheInvariant :
    samplePages.wellFormed = true ∧ InsnPages.wellFormed { exti := none, pages := [pageOf .other setsW] } = false := by decide

theorem witness_OnlyInstructionsThatAssignAFlagChangeIt :
    let s := sample [(0x0010, 0b011001010100), (0x0101, 1), (0x0102, 2)]
    fetch s = .next (0b011001010100, s) ∧ ∃ t, step s = .next t ∧ t.flag .c ≠ s.flag .c :=
  ⟨rfl, _, rfl, by decide⟩

theorem witness_StepKeepsParametersAndBusRecord : ∃ t, step (sample [(0x0010, 5)]) = .next t := ⟨_, rfl⟩

/-- One for each clause; the two jumps are one that is not taken and one that is. -/
theorem witness_PcAdvancesUnlessAssigned :
    (copies.assignsPc = false ∧ ∃ t, runOperation 0 copies (sample []) = .next t) ∧
    (∃ t, exec (.exti 0) (sample []) = .next t) ∧
    (setsW.assignsPc = false ∧ ∃ t, exec (.xchw 0 setsW) (sample []) = .next t) ∧
    (∃ p, performInstruction 0 (jumpIf .z 5) ((sample []).setFlag .z (.known 0#1)) = .next p ∧ p.pcAssigned = false) ∧
    (∃ p, performInstruction 0 (jumpIf .z 5) ((sample []).setFlag .z (.known 1#1)) = .next p ∧ p.pcAssigned = true) ∧
    Expr.readsFlags (.const 17 0x1FFFE) = false ∧
    eval 0 [] (.const 17 0x1FFFE) (sample []) = .next (.known 0x1FFFE, sample []) :=
  ⟨⟨by decide, _, rfl⟩, ⟨_, rfl⟩, ⟨by decide, _, rfl⟩, ⟨_, rfl, rfl⟩, ⟨_, rfl, rfl⟩, by decide, rfl⟩

/-- `R0 ← R0` stores to 0x0100 alone; the jump stores nothing. -/
theorem witness_UnassignedRegistersArePreserved :
    (∃ p, performInstruction 0 copies (sample []) = .next p ∧ (0x0101 : Word) ∉ p.stored) ∧
    (∃ t, runOperation 0 copies (sample []) = .next t) ∧ copies.assignsW = false ∧ copies.assignsFlag .c = false ∧
    (jumpIf .z 5).storesToMemory = false ∧
    (∃ p, performInstruction 0 (jumpIf .z 5) ((sample []).setFlag .z (.known 0#1)) = .next p) ∧
    ∃ t, runOperation 0 (jumpIf .z 5) ((sample []).setFlag .z (.known 0#1)) = .next t :=
  ⟨⟨_, rfl, by decide⟩, ⟨_, rfl⟩, by decide, by decide, by decide, ⟨_, rfl⟩, _, rfl⟩

/-- A page that goes on, one that is stuck, one that needs the absent entry. -/
theorem witness_LawfulPagesGoOnOrStopForAReason :
    Page.wellFormed (pageOf .other copies) = true ∧ Page.wellFormed (pageOf .logical loadsImm) = true := by decide

/-- A known `PC`, and an UNDEFINED one. -/
theorem witness_PlacedWordIsFetched :
    (sample []).pc = .known 0x0010 ∧ ((sample []).setPc .undefined).pc = .undefined := ⟨rfl, rfl⟩

/-- The pages hold an instruction of every row of the opcode table. -/
theorem witness_DecodeOfEncodeIsTheInstruction :
    samplePages.wellFormed = true ∧ HeldBy samplePages (.exti 0x1FFF) ∧ HeldBy samplePages (.adjw 0xFFF8 setsW) ∧
    HeldBy samplePages (.ldw 1 readsW) ∧ HeldBy samplePages (.stw 2 loadsW) ∧ HeldBy samplePages (.xchw 3 swapsW) := by
  refine ⟨by decide, by simp [HeldBy, samplePages], ?_, ?_, ?_, ?_⟩ <;> (unfold HeldBy; decide)

theorem witness_EncodeOfDecodeIsTheWord :
    samplePages.wellFormed = true ∧ decode samplePages 0xFFFD = .instr (.exti 0x1FFF) ∧
    decode samplePages 0xFFF8 = .instr (.adjw 0xFFF8 setsW) := by decide

theorem witness_ExtiOccupiesOneEighthOfTheEncodings : sampleLayout.wellFormed = true := by decide

/-- With `IMM_AL_3` absent and with it supplied. -/
theorem witness_ShortImmediatesAreTableEntries :
    (sample []).hasExt13 = 0#1 ∧ (sample []).params.immAl3 = none ∧
    ({ sample [] with params := { pages := samplePages, immAl3 := some 9, unpopulated := [] } }).params.immAl3 = some 9 := by
  decide

/-- The lengths at the ends of the range, and both clauses of the comparison. -/
theorem witness_SignExtensionReplicatesTheHighBit :
    (1 ≤ 1 ∧ 1 ≤ 16 ∧ (signExtend16 1#1).getLsbD 15 = true) ∧
    (1 ≤ 16 ∧ 16 ≤ 16 ∧ (signExtend16 0x8000#16).getLsbD 15 = true) := by decide

theorem witness_UndefinedInputsGiveUndefinedResults :
    BinOp.add.apply (.undefined : Val 16) (.known 1#16) = .undefined ∧
    BinOp.add.apply (.known 1#16) (.undefined : Val 16) = .undefined ∧
    ((sample []).setExt13 .undefined 1#1).hasExt13 = 1#1 ∧ ((sample []).setExt13 .undefined 1#1).ext13 = .undefined := by
  decide

/-- Two fields of one operation, and one field twice. -/
theorem witness_AnyRegisterFitsAnyRegisterField :
    Page.wellFormed (pageOf .arithmetic additionOp) = true ∧ some [9, 10, 11] ∈ (additionOp.under 0#1).registerFields ∧
    some [6, 7, 8] ∈ (additionOp.under 0#1).registerFields ∧ ([9, 10, 11] : List Nat) ≠ [6, 7, 8] := by decide

/-- A logical page that sets flags, and one that sets none. -/
theorem witness_LogicalInstructionsLeaveCarryAndOverflowUndefined :
    (sample []).mem.wf = true ∧ Page.wellFormed (pageOf .logical conjunction) = true ∧
    (conjunction.under (sample []).hasExt13).results.length ≤ 1 ∧
    (∃ t, execUnnamed 1 (pageOf .logical conjunction) (sample []) = .next t) ∧
    Page.wellFormed (pageOf .logical copies) = true ∧
    ∃ t, execUnnamed 1 (pageOf .logical copies) (sample []) = .next t :=
  ⟨by decide, by decide, by decide, ⟨_, rfl⟩, by decide, _, rfl⟩

theorem witness_ArithmeticInstructionsSetTheFlagsOfTheirResult :
    Page.wellFormed (pageOf .arithmetic additionOp) = true ∧ setsFlagsByDefinition (additionOp.under (sample []).hasExt13) = true ∧
    (sample []).mem.wf = true ∧ ∃ t, execUnnamed 1 (pageOf .arithmetic additionOp) (sample []) = .next t :=
  ⟨by decide, by decide, by decide, _, rfl⟩

/-- A known condition, an UNDEFINED one before branches that only compute, and one before branches that do not. -/
theorem witness_ChoicesOnKnownAndUndefinedConditions :
    eval 0 [] (.const 1 1) (sample []) = .next (.known 1, sample []) ∧
    eval 0 [] (.read (.flag .z)) (sample []) = .next (.undefined, sample []) ∧
    (Operation.isPure (.assign (.temp 0 16) (.const 16 5)) && Operation.isPure .skip) = true ∧
    (Operation.isPure (.assign .pc (.const 16 5)) && Operation.isPure .skip) = false :=
  ⟨rfl, rfl, by decide, by decide⟩

/-- One state with the operand known, one with it UNDEFINED. -/
theorem witness_UndefinedOperandsOnlyMakeAluResultsUndefined :
    Page.wellFormed (pageOf .arithmetic additionOp) = true ∧ Family.arithmetic ∈ aluFamilies ∧
    (sample [(0x0100, 5)]).w = .known 0x0100 ∧ (sample [(0x0100, 5)]).mem.wf = true ∧ (sample []).mem.wf = true ∧
    Blurs (sample [(0x0100, 5)]) (sample []) ∧
    ∃ t, execUnnamed 1 (pageOf .arithmetic additionOp) (sample [(0x0100, 5)]) = .next t := by
  refine ⟨by decide, by decide, rfl, by decide, by decide, ⟨rfl, fun f => .inl ?_, fun a => .inr rfl⟩, _, rfl⟩
  cases f <;> rfl

theorem witness_AluInstructionsDrawNothing :
    Page.wellFormed (pageOf .shiftRotate (.assign (.store .reg (field3 3)) (.imm (.table .sr) (field3 6)))) = true ∧
    Family.shiftRotate ∈ aluFamilies ∧ (sample []).w = .known 0x0100 ∧
    ∃ t, execUnnamed 1 (pageOf .shiftRotate (.assign (.store .reg (field3 3)) (.imm (.table .sr) (field3 6))))
      (sample []) = .next t :=
  ⟨by decide, by decide, rfl, _, rfl⟩

/-- `R1 ← R1 + R1`: the three registers may be the same one. -/
theorem witness_AdditionOfRegisters :
    (1 : BitVec 3) = (0b001001001000 : Word).extractLsb' 9 3 ∧ (1 : BitVec 3) = (0b001001001000 : Word).extractLsb' 6 3 ∧
    (1 : BitVec 3) = (0b001001001000 : Word).extractLsb' 3 3 ∧
    (sample [(0x0101, 0x7FFF)]).w = .known 0x0100 ∧ (sample [(0x0101, 0x7FFF)]).params.unpopulated = [] ∧
    (sample [(0x0101, 0x7FFF)]).reg 1 = .known 0x7FFF := by decide

/-- `R3 ← R1 + R2` with `R1` known and `R2` UNDEFINED. -/
theorem witness_AdditionOfAnUndefinedRegister :
    (3 : BitVec 3) = (0b011001010000 : Word).extractLsb' 9 3 ∧ (1 : BitVec 3) = (0b011001010000 : Word).extractLsb' 6 3 ∧
    (2 : BitVec 3) = (0b011001010000 : Word).extractLsb' 3 3 ∧
    (sample [(0x0101, 0x7FFF)]).w = .known 0x0100 ∧ (sample [(0x0101, 0x7FFF)]).mem.wf = true ∧
    (sample [(0x0101, 0x7FFF)]).params.unpopulated = [] ∧ (sample [(0x0101, 0x7FFF)]).reg 2 = .undefined := by decide

/-- Each value of a condition and of a flag. -/
theorem witness_ConditionalJumpFollowsTheFlag :
    Expr.readsFlags (.read .pc) = false ∧
    (eval 0 [] (.const 1 1) (sample []) = .next (.known 1, sample []) ∧
      eval 0 [] (.const 1 0) (sample []) = .next (.known 0, sample []) ∧
      eval 0 [] (.undef 1) (sample []) = .next (.undefined, sample []) ∧
      eval 0 [] (.read .pc) (sample []) = .next (.known 0x0010, sample [])) ∧
    ((sample []).setFlag .v (.known 1#1)).flag .v = .known 1#1 ∧ ((sample []).setFlag .v (.known 0#1)).flag .v = .known 0#1 ∧
    (sample []).flag .v = .undefined :=
  ⟨by decide, ⟨rfl, rfl, rfl, rfl⟩, by decide⟩

/-- A target of a flag, and two jumps on one flag, with the flag known and with it UNDEFINED. -/
theorem witness_FlagsThatReachThePcAreDrawnOnce :
    (flagOffset.under (sample []).hasExt13).flagsReachPc 0 = true ∧
    ((Operation.seq (jumpIf .z 5) (jumpIf .z 6)).under (sample []).hasExt13).flagsReachPc 0 = true ∧
    (∃ t, runOperation 0 flagOffset (sample []) = .next t) ∧ (∃ t, runOperation 0 flagOffset (sample []).drawFlags = .next t) ∧
    (sample []).flag .z = .undefined ∧ ((sample []).setFlag .z (.known 1#1)).flag .z = .known 1#1 :=
  ⟨by decide, by decide, ⟨_, rfl⟩, ⟨_, rfl⟩, by decide, by decide⟩

theorem witness_RegistersAreWordsOfTheWindow : ((sample []).setW (.known 0xFFFC)).w = .known 0xFFFC := by decide

/-- A store into the window, and one just outside it. -/
theorem witness_AStoreIntoTheWindowChangesTheRegister :
    (sample []).mem.wf = true ∧ (∃ t, memWrite (.known 0x0107) (.known 1) (sample []) = .next t) ∧
    (0x0107 : Word) = 0x0100 + (7#3).setWidth 16 ∧ (∃ t, memWrite (.known 0x0108) (.known 1) (sample []) = .next t) ∧
    (0x0108 : Word) ≠ 0x0100 + (7#3).setWidth 16 :=
  ⟨by decide, ⟨_, rfl⟩, by decide, ⟨_, rfl⟩, by decide⟩

theorem witness_OverlappingWindowsShareWords : 0 + 7 < 8 ∧ 7 + 0 < 8 := by decide

theorem witness_RegisterCopySetsTheDestinationAlone :
    (sample [(0x0101, 5)]).mem.wf = true ∧ (sample [(0x0101, 5)]).w = .known 0x0100 ∧
    (sample [(0x0101, 5)]).params.unpopulated = [] := by decide

theorem witness_MemoryReadsGiveTheLatestWrite :
    (sample [(0xFFFF, 5)]).mem.wf = true ∧ (sample [(0xFFFF, 5)]).populated 0xFFFF = true := by decide

/-- The hole lies at a register's word and, in another state, at `PC`. -/
theorem witness_AccessesWithoutMemoryAreStuck :
    ({ sample [] with params := { pages := samplePages, immAl3 := none, unpopulated := [0x0107] } }).populated 0x0107 = false ∧
    (sample []).regAddr (.known 7) = .known 0x0107 ∧
    ({ sample [] with params := { pages := samplePages, immAl3 := none, unpopulated := [0x0010] } }).populated 0x0010 = false ∧
    (sample []).pc = .known 0x0010 := by decide

theorem witness_AStoreIsSeenByTheNextFetch :
    ∃ t, memWrite (.known 0x0010) (.known 5) (sample []) = .next t ∧ t.pc = .known 0x0010 := ⟨_, rfl, rfl⟩

/-- With memory at every address, and with none at the one drawn. -/
theorem witness_AccessesAtAnUndefinedAddress :
    (sample []).populated (Config.undefinedBits (sample []).draws 16) = true ∧ (sample []).mem.wf = true ∧
    ({ sample [] with params :=
        { pages := samplePages, immAl3 := none, unpopulated := [Config.undefinedBits (sample []).draws 16] } }).populated
      (Config.undefinedBits (sample []).draws 16) = false :=
  ⟨rfl, by decide, by simp [State.populated]⟩

/-- An odd and an even image. -/
theorem witness_ByteImagesGiveWordsInTheChosenOrder :
    ([1, 2, 3] : List (BitVec 8)).length % 2 = 1 ∧ ([1, 2] : List (BitVec 8)).length % 2 = 0 ∧
    initMemOfBytes .little 0x10 [0x34, 0x12] = some [(0x10, 0x1234)] ∧
    initMemOfBytes .big 0x10 [0x12, 0x34] = some [(0x10, 0x1234)] := by decide

end Sys2Proof.Tests
end

section
/-!
PROOFS of the statements of 00_scope.md: the operators and immediates, choices, and accesses at an UNDEFINED address.
-/

namespace Sys2Proof

/-! ### Operators on bit patterns, said of the numbers and of the bits -/

/-- A sum of `m` and `n` bits has room in one bit more than the longer (00_scope.md R9). -/
theorem addWithCarryBit_toNat {m n : Nat} (a : BitVec m) (b : BitVec n) :
    (addWithCarryBit a b).toNat = a.toNat + b.toNat := by
  have ha : a.toNat < 2 ^ max m n := BitVec.toNat_lt_twoPow_of_le (Nat.le_max_left m n)
  have hb : b.toNat < 2 ^ max m n := BitVec.toNat_lt_twoPow_of_le (Nat.le_max_right m n)
  have ea : (a.setWidth (max m n + 1)).toNat = a.toNat := BitVec.toNat_setWidth_of_le (by omega)
  have eb : (b.setWidth (max m n + 1)).toNat = b.toNat := BitVec.toNat_setWidth_of_le (by omega)
  have fits : (a.setWidth (max m n + 1)).toNat + (b.setWidth (max m n + 1)).toNat < 2 ^ (max m n + 1) := by
    rw [ea, eb, Nat.pow_succ]
    omega
  rw [addWithCarryBit, BitVec.toNat_add_of_lt fits, ea, eb]

theorem signExtend16_getLsbD {n i : Nat} (v : BitVec n) (hi : i < 16) :
    (signExtend16 v).getLsbD i = if i < n then v.getLsbD i else v.getLsbD (n - 1) := by
  rw [signExtend16, BitVec.getLsbD_signExtend, BitVec.msb_eq_getLsbD_last]
  simp [hi]

theorem decodeImmSr_toNat (op : BitVec 3) :
    (decodeImmSr op).toNat = if op.toNat = 0 then 8 else op.toNat := by
  have zero : op = 0#3 ↔ op.toNat = 0 := BitVec.toNat_eq
  simp only [decodeImmSr, zero]
  split
  · rfl
  · exact BitVec.toNat_setWidth_of_le (by decide)

/-- The first operand of a concatenation makes the high-order bits (00_scope.md R6). -/
theorem BinOp.bits_cat_toNat {m n : Nat} (a : BitVec m) (b : BitVec n) :
    (BinOp.cat.bits a b).toNat = a.toNat * 2 ^ n + b.toNat := by
  calc (a ++ b).toNat = a.toNat <<< n ||| b.toNat := BitVec.toNat_append a b
    _ = a.toNat <<< n + b.toNat := (Nat.shiftLeft_add_eq_or_of_lt b.isLt a.toNat).symm
    _ = a.toNat * 2 ^ n + b.toNat := by rw [Nat.shiftLeft_eq]

/-- Brought to the length of the longer operand, an operand keeps every bit: those it lacks were 0 (00_scope.md R8). -/
theorem getLsbD_setWidth_of_le {m k : Nat} (a : BitVec m) (h : m ≤ k) (i : Nat) :
    (a.setWidth k).getLsbD i = a.getLsbD i := by
  rw [BitVec.getLsbD, BitVec.toNat_setWidth_of_le h, BitVec.getLsbD]

theorem BinOp.bits_and_getLsbD {m n : Nat} (a : BitVec m) (b : BitVec n) (i : Nat) :
    (BinOp.and.bits a b).getLsbD i = (a.getLsbD i && b.getLsbD i) :=
  BitVec.getLsbD_and.trans <| congrArg₂ (· && ·) (getLsbD_setWidth_of_le a (Nat.le_max_left m n) i)
    (getLsbD_setWidth_of_le b (Nat.le_max_right m n) i)

theorem BinOp.bits_or_getLsbD {m n : Nat} (a : BitVec m) (b : BitVec n) (i : Nat) :
    (BinOp.or.bits a b).getLsbD i = (a.getLsbD i || b.getLsbD i) :=
  BitVec.getLsbD_or.trans <| congrArg₂ (· || ·) (getLsbD_setWidth_of_le a (Nat.le_max_left m n) i)
    (getLsbD_setWidth_of_le b (Nat.le_max_right m n) i)

theorem BinOp.bits_xor_getLsbD {m n : Nat} (a : BitVec m) (b : BitVec n) (i : Nat) :
    (BinOp.xor.bits a b).getLsbD i = (a.getLsbD i ^^ b.getLsbD i) :=
  BitVec.getLsbD_xor.trans <| congrArg₂ (· ^^ ·) (getLsbD_setWidth_of_le a (Nat.le_max_left m n) i)
    (getLsbD_setWidth_of_le b (Nat.le_max_right m n) i)

/-- Two operands zero-extended to one length are equal exactly when their numbers are (00_scope.md R8, R11). -/
theorem setWidth_max_eq_iff {m n : Nat} (a : BitVec m) (b : BitVec n) :
    a.setWidth (max m n) = b.setWidth (max m n) ↔ a.toNat = b.toNat := by
  rw [BitVec.toNat_eq, BitVec.toNat_setWidth_of_le (Nat.le_max_left m n),
    BitVec.toNat_setWidth_of_le (Nat.le_max_right m n)]

/-- A comparison as a bit is 1 exactly when it holds. -/
theorem ofBool_decide_eq_one (q : Prop) [Decidable q] : BitVec.ofBool (decide q) = 1#1 ↔ q :=
  BitVec.ofBool_eq_iff_eq (b' := true).trans decide_eq_true_iff

theorem BinOp.bits_eq_eq_one {m n : Nat} (a : BitVec m) (b : BitVec n) :
    BinOp.eq.bits a b = 1#1 ↔ a.toNat = b.toNat :=
  (ofBool_decide_eq_one _).trans (setWidth_max_eq_iff a b)

theorem BinOp.bits_ne_eq_one {m n : Nat} (a : BitVec m) (b : BitVec n) :
    BinOp.ne.bits a b = 1#1 ↔ a.toNat ≠ b.toNat :=
  (ofBool_decide_eq_one _).trans (setWidth_max_eq_iff a b).not

/-! ### Operators on UNDEFINED -/

@[simp] theorem UnOp.apply_undefined (o : UnOp) (n : Nat) : o.apply (.undefined : Val n) = .undefined := rfl

@[simp] theorem Val.map₂_undefined_left {l m n : Nat} (f : BitVec l → BitVec m → BitVec n) (b : Val m) :
    Val.map₂ f .undefined b = .undefined := rfl

@[simp] theorem Val.map₂_undefined_right {l m n : Nat} (f : BitVec l → BitVec m → BitVec n) (a : Val l) :
    Val.map₂ f a .undefined = .undefined := by
  cases a <;> rfl

/-- One UNDEFINED operand is enough, whichever it is (00_scope.md R16 (b)). -/
theorem BinOp.apply_undefined (o : BinOp) {m n : Nat} {a : Val m} {b : Val n} (h : a = .undefined ∨ b = .undefined) :
    o.apply a b = .undefined := by
  rw [BinOp.apply]
  rcases h with rfl | rfl
  · exact Val.map₂_undefined_left _ b
  · exact Val.map₂_undefined_right _ a

end Sys2Proof

namespace Sys2Proof.Machine

/-! ### Sums and immediates -/

theorem sumBits_toNat (a b : Word) (c : BitVec 1) : (sumBits a b c).toNat = a.toNat + b.toNat + c.toNat := by
  have hc : c.toNat < 2 := c.isLt
  simp only [sumBits, BitVec.toNat_add, BitVec.toNat_setWidth]
  omega

@[simp] theorem decodeImm_undefined (t : ImmTable) (s : State) : decodeImm t .undefined s = .next .undefined := rfl

@[simp] theorem extendedImm_undefined {n : Nat} (s : State) : extendedImm (.undefined : Val n) s = .undefined :=
  Val.map₂_undefined_right _ _

theorem extendedImm_of_ext13_undefined {n : Nat} (field : Val n) {s : State} (h : s.ext13 = .undefined) :
    extendedImm field s = .undefined := by
  rw [extendedImm, h, Val.map₂_undefined_left]

/-- While `has_ext13` is 1 every kind of immediate is the extended one (30_encoding.md R73). -/
theorem immediate_extended (k : ImmKind) {n : Nat} (field : Val n) {s : State} (h : s.hasExt13 = 1#1) :
    immediate k field s = .next (extendedImm field s) :=
  if_pos h

/-- An UNDEFINED field makes the immediate UNDEFINED, in the extended form and in either short one. -/
theorem immediate_undefined (k : ImmKind) (n : Nat) (s : State) :
    immediate k (.undefined : Val n) s = .next .undefined := by
  by_cases h : s.hasExt13 = 1#1
  · rw [immediate_extended k _ h, extendedImm_undefined]
  · unfold immediate
    rw [if_neg h]
    cases k with
    | table t => exact decodeImm_undefined t s
    | sext => rfl

/-! ### Choices -/

section Choice

variable {insn : Word} {c : Expr} {p : Progress} {s₁ : State} (a b : Operation)

/-- A choice that is not spoiled performs the branch that its condition, forced to a bit, chooses (decision D10). -/
theorem perform_ite_branch {v : Val c.len} (h : eval insn p.temps c p.state = .next (v, s₁))
    (hv : (v.isUndefined && a.isPure && b.isPure) = false) :
    perform insn (.ite c a b) p =
      perform insn (if s₁.force (v.resize 1) = 1#1 then a else b) { p with state := s₁.afterForce (v.resize 1) } := by
  rw [perform, h, apply_ite (perform insn), ite_apply]
  simp only [andThen_next, hv, Bool.false_eq_true, if_false]

/-- A known condition decides the choice, and nothing is drawn. -/
theorem perform_ite_known {x : BitVec c.len} (h : eval insn p.temps c p.state = .next (.known x, s₁)) :
    perform insn (.ite c a b) p = perform insn (if x.setWidth 1 = 1#1 then a else b) { p with state := s₁ } :=
  perform_ite_branch a b h rfl

/-- An UNDEFINED condition of a choice that only computes spoils what either branch could assign (log 13). -/
theorem perform_ite_pure (h : eval insn p.temps c p.state = .next (.undefined, s₁))
    (hpure : (a.isPure && b.isPure) = true) :
    perform insn (.ite c a b) p = .next (Progress.spoil { p with state := s₁ } (a.temporaries ++ b.temporaries)) := by
  rw [perform, h]
  simp only [andThen_next, Val.isUndefined, Bool.true_and]
  exact if_pos hpure

/-- An UNDEFINED condition of a choice that does more is drawn. -/
theorem perform_ite_drawn (h : eval insn p.temps c p.state = .next (.undefined, s₁))
    (hpure : (a.isPure && b.isPure) = false) :
    perform insn (.ite c a b) p =
      perform insn (if Config.undefinedBits s₁.draws 1 = 1#1 then a else b) { p with state := s₁.countDraw } :=
  perform_ite_branch a b h hpure

end Choice

/-! ### Accesses to `mem` -/

/-- A write where there is memory sets the word at the address, drawn if it is UNDEFINED, and no other; beside `mem` only
the draw of the address shows (20_memory.md R68). -/
theorem memWrite_of_populated {addr : Val 16} (v : Val 16) {s : State} (hm : s.mem.wf = true)
    (hp : s.populated (s.force addr) = true) :
    ∃ t, memWrite addr v s = .next t ∧ t.word (s.force addr) = v ∧ (∀ a, a ≠ s.force addr → t.word a = s.word a) ∧
      t = (s.afterForce addr).setMem t.mem := by
  refine ⟨_, memWrite_eq_next.mpr ⟨hp, rfl⟩, ?_, fun a ha => ?_, rfl⟩
  · exact Memory.read_write_same _ v hm
  · exact Memory.read_write_other _ v (fun h => ha (BitVec.eq_of_toNat_eq h))

theorem memRead_of_not_populated {addr : Val 16} {s : State} (hp : s.populated (s.force addr) = false) :
    memRead addr s = .fault (.stuck (s.force addr)) := by
  rw [memRead_eq, hp]
  rfl

theorem memWrite_of_not_populated {addr : Val 16} (v : Val 16) {s : State} (hp : s.populated (s.force addr) = false) :
    memWrite addr v s = .fault (.stuck (s.force addr)) := by
  rw [memWrite, hp]
  rfl

theorem memRead_undefined_of_populated {s : State} (hp : s.populated (s.force (.undefined : Val 16)) = true) :
    memRead .undefined s = .next (.undefined, s.countDraw) := by
  rw [memRead_eq, hp]
  rfl

end Sys2Proof.Machine

namespace Sys2Proof.Proofs

open Sys2Proof Sys2Proof.Machine

/-- Settles O36: one law of each operator, put together. -/
theorem operatorsOnKnownBits : Obligations.OperatorsOnKnownBits :=
  ⟨fun _ _ => BinOp.bits_cat_toNat,
    fun _ _ a b i => ⟨BinOp.bits_and_getLsbD a b i, BinOp.bits_or_getLsbD a b i, BinOp.bits_xor_getLsbD a b i⟩,
    fun _ _ a b => ⟨BinOp.bits_eq_eq_one a b, BinOp.bits_ne_eq_one a b⟩,
    fun _ _ _ _ => BitVec.getLsbD_replicate,
    fun _ _ _ _ _ => BitVec.getLsbD_extractLsb,
    fun _ _ _ => BitVec.getLsbD_not⟩

/-- Settles O31: the number of the count, for 0 and for every other `op`. -/
theorem shiftAmountsAreOneToEight : Obligations.ShiftAmountsAreOneToEight := by
  intro op
  have hop : op.toNat < 8 := op.isLt
  rw [decodeImmSr_toNat]
  refine ⟨rfl, ?_⟩
  split <;> omega

/-- Settles O33: the bits of a sign extension, the high bit of which is bit `n - 1`. -/
theorem signExtensionReplicatesTheHighBit : Obligations.SignExtensionReplicatesTheHighBit :=
  fun _ v _ _ _ hi => signExtend16_getLsbD v hi

/-- Settles O34: neither sum overflows its length. -/
theorem sumsKeepTheirCarry : Obligations.SumsKeepTheirCarry :=
  ⟨fun _ _ => addWithCarryBit_toNat, sumBits_toNat⟩

/-- Settles O35: for operators, tables and immediates in turn. -/
theorem undefinedInputsGiveUndefinedResults : Obligations.UndefinedInputsGiveUndefinedResults := by
  refine ⟨UnOp.apply_undefined, fun o _ _ _ _ => o.apply_undefined, decodeImm_undefined, immediate_undefined, ?_⟩
  intro k n field s has undef
  rw [immediate_extended k field has, extendedImm_of_ext13_undefined field undef]

/-- Settles O42: the three cases of `perform` on a choice. -/
theorem choicesOnKnownAndUndefinedConditions : Obligations.ChoicesOnKnownAndUndefinedConditions := by
  intro insn c a b p s₁ v h
  refine ⟨?_, ?_, ?_⟩
  · rintro x rfl
    exact perform_ite_known a b h
  · rintro rfl hpure
    exact ⟨_, perform_ite_pure a b h hpure, rfl, rfl, rfl, spoil_read _ _⟩
  · rintro rfl hpure
    exact perform_ite_drawn a b h hpure

/-- Settles O54: the accesses to `mem` with memory at the drawn address and without; those to `ext`, which cannot stop, draw
the address first and the word after it. -/
theorem accessesAtAnUndefinedAddress : Obligations.AccessesAtAnUndefinedAddress := by
  rintro s b rfl
  exact ⟨memRead_undefined_of_populated, memRead_of_not_populated (addr := .undefined),
    fun v => memWrite_of_populated (addr := .undefined) v, fun v => memWrite_of_not_populated (addr := .undefined) v,
    rfl, fun _ => rfl, fun _ => rfl, rfl⟩

end Sys2Proof.Proofs
end

section
/-!
PROOFS of the statements of 10_state.md: the step and what it keeps, the registers, the flags, reset and launch.
-/

namespace Sys2Proof

open Sys2Proof.Claims

/-! ### What the pages make of a word -/

/-- The families of the four window instructions (41_window.md R105). -/
def windowFamilies : List Family := [.adjw, .ldw, .stw, .xchw]

/-- A page of a window family gives a window instruction that carries the word; any other page gives itself. -/
theorem Page.decoded_cases (p : Page) (w : Word) :
    (p.family ∈ windowFamilies ∧ ∃ form ∈ windowForms, p.decoded w = .instr (form w p.op)) ∨
      (p.family ∉ windowFamilies ∧ p.decoded w = .unnamed p) := by
  unfold Page.decoded
  cases p.family with
  | adjw => exact .inl ⟨by decide, Instr.adjw, by simp [windowForms], rfl⟩
  | ldw => exact .inl ⟨by decide, Instr.ldw, by simp [windowForms], rfl⟩
  | stw => exact .inl ⟨by decide, Instr.stw, by simp [windowForms], rfl⟩
  | xchw => exact .inl ⟨by decide, Instr.xchw, by simp [windowForms], rfl⟩
  | _ => exact .inr ⟨by decide, rfl⟩

/-- What the pages make of a word: an `EXTI`, what one of the other pages gives for it, or nothing. -/
theorem decode_cases (ps : InsnPages) (w : Word) :
    (∃ imm13, decode ps w = .instr (.exti imm13)) ∨ (∃ p ∈ ps.pages, decode ps w = p.decoded w) ∨
      decode ps w = .undefinedEncoding := by
  have inPages : (∃ p ∈ ps.pages, decodePages ps.pages w = p.decoded w) ∨ decodePages ps.pages w = .undefinedEncoding := by
    unfold decodePages
    split
    · next p hp => exact .inl ⟨p, List.mem_of_find?_eq_some hp, rfl⟩
    · exact .inr rfl
  unfold decode
  split
  · exact .inr inPages
  · split
    · exact .inl ⟨_, rfl⟩
    · exact .inr inPages

/-- No instruction but the four window instructions names `W` (41_window.md R105 (a)). -/
theorem Operation.namesW_of_lawfulFor {op : Operation} {f : Family} (hf : f ∉ windowFamilies)
    (h : op.lawfulFor f = true) : op.namesW = false := by
  cases f with
  | adjw | ldw | stw | xchw => exact absurd (by decide) hf
  | arithmetic | logical | shiftRotate =>
    simp only [Operation.lawfulFor, Operation.aluFamilyLawful, Bool.and_eq_true, Bool.not_eq_true'] at h
    obtain ⟨⟨⟨-, noW⟩, -⟩, -⟩ := h
    exact noW
  | conditionalJump =>
    simp only [Operation.lawfulFor, Bool.and_eq_true, Bool.not_eq_true'] at h
    obtain ⟨⟨⟨-, noW⟩, -⟩, -⟩ := h
    exact noW
  | other =>
    simp only [Operation.lawfulFor, Bool.and_eq_true, Bool.not_eq_true'] at h
    obtain ⟨-, noW⟩ := h
    exact noW

/-- What a well-formed page is: its value lies inside its mask, its operation obeys the rules of its family, and its
encoding leaves the register numbers free. -/
theorem Page.wellFormed_iff (p : Page) :
    p.wellFormed = true ↔ p.value &&& ~~~p.mask = 0#16 ∧ p.op.lawfulFor p.family = true ∧
      p.op.underBoth (Operation.registersFree p.mask) = true := by
  simp only [Page.wellFormed, Bool.and_eq_true, decide_eq_true_eq, and_assoc]

theorem InsnPages.page_wellFormed {ps : InsnPages} (h : ps.wellFormed = true) {p : Page} (hp : p ∈ ps.pages) :
    p.wellFormed = true := by
  simp only [InsnPages.wellFormed, Bool.and_eq_true, List.all_eq_true] at h
  obtain ⟨⟨each, -⟩, -⟩ := h
  exact each p hp

/-- Under well-formed pages an instruction whose name is lost does not assign `W`. -/
theorem assignsW_of_decode_unnamed {ps : InsnPages} {w : Word} {q : Page} (hps : ps.wellFormed = true)
    (h : decode ps w = .unnamed q) : q.op.assignsW = false := by
  obtain ⟨imm13, hd⟩ | ⟨p, hp, hd⟩ | hd := decode_cases ps w
  · cases hd.symm.trans h
  · obtain ⟨-, form, -, hw⟩ | ⟨hf, hu⟩ := p.decoded_cases w
    · cases (hd.trans hw).symm.trans h
    · obtain rfl := Decoded.unnamed.inj ((hd.trans hu).symm.trans h)
      obtain ⟨-, lawful, -⟩ := p.wellFormed_iff.mp (InsnPages.page_wellFormed hps hp)
      exact Operation.assignsW_of_namesW (Operation.namesW_of_lawfulFor hf lawful)
  · cases hd.symm.trans h

end Sys2Proof

namespace Sys2Proof.Machine

open Sys2Proof.Claims

/-! ### The end of an instruction -/

theorem nextPc_eq_advanced (pc : Val 16) : nextPc pc = advanced pc := by
  cases pc with
  | known a => exact nextPc_known a
  | undefined => rfl

/-- An instruction other than `EXTI` that has not assigned `PC` leaves besides its own effect what `retired` says. -/
theorem retire_default_eq_retired (s : State) : s.retire false = retired s := by
  rw [retired, ← nextPc_eq_advanced]
  rfl

/-- The whole next state of an `EXTI` (43_extended_immediate.md R123). -/
theorem execExti_eq_next {imm13 : BitVec 13} {s t : State} :
    execExti imm13 s = .next t ↔ t = { s with pc := advanced s.pc, ext13 := .known imm13, hasExt13 := 1#1 } := by
  rw [← nextPc_eq_advanced]
  exact ⟨fun h => (Host.Outcome.next.inj h).symm, fun h => congrArg _ h.symm⟩

/-! ### The step -/

/-- The four window instructions perform the operation that they carry. -/
theorem exec_windowForm {form : Word → Operation → Instr} (h : form ∈ windowForms) (insn : Word) (op : Operation)
    (s : State) : exec (form insn op) s = runOperation insn op s := by
  simp only [windowForms, List.mem_cons, List.not_mem_nil, or_false] at h
  rcases h with rfl | rfl | rfl | rfl <;> rfl

/-- After its fetch a step executes what the pages make of the word (10_state.md R49). -/
theorem step_of_fetch {s s₁ : State} {insn : Word} (h : fetch s = .next (insn, s₁)) :
    step s = executeDecoded insn (decode s.params.pages insn) s₁ := by
  rw [step, h, andThen_next, (fetch_readsOnly h).params]

/-- A fetch of an UNDEFINED word at a known, populated address draws the word. -/
theorem fetch_undefined {s : State} {a : Word} (hpc : s.pc = .known a) (hp : s.populated a = true)
    (hw : s.word a = .undefined) : fetch s = .next (Config.undefinedBits s.draws 16, s.countDraw) := by
  simp [fetch, memRead_eq, hpc, hp, hw]

/-- The pages give the operation `op` for the word, under the name of a window instruction or without a name. -/
def GivesOperation (ps : InsnPages) (insn : Word) (op : Operation) : Prop :=
  (∃ form ∈ windowForms, decode ps insn = .instr (form insn op)) ∨ ∃ p, decode ps insn = .unnamed p ∧ p.op = op

/-- Everything that a step can be: after a fetch, which only reads, it is an `EXTI` or performs the operation that the
pages give for the word. -/
inductive Stepped (s t s₁ : State) (insn : Word) : Prop
  | exti (imm13 : BitVec 13) (decoded : decode s.params.pages insn = .instr (.exti imm13))
      (next : t = { s₁ with pc := advanced s₁.pc, ext13 := .known imm13, hasExt13 := 1#1 })
  | operation (op : Operation) (given : GivesOperation s.params.pages insn op) (run : runOperation insn op s₁ = .next t)

theorem stepped_of_fetch {s t s₁ : State} {insn : Word} (hf : fetch s = .next (insn, s₁)) (h : step s = .next t) :
    Stepped s t s₁ insn := by
  rw [step_of_fetch hf] at h
  obtain ⟨imm13, hd⟩ | ⟨p, -, hd⟩ | hd := decode_cases s.params.pages insn
  · rw [hd] at h
    exact .exti imm13 hd (execExti_eq_next.mp h)
  · obtain ⟨-, form, hform, hw⟩ | ⟨-, hu⟩ := p.decoded_cases insn
    · rw [hd, hw] at h
      exact .operation p.op (.inl ⟨form, hform, hd.trans hw⟩) ((exec_windowForm hform insn p.op s₁).symm.trans h)
    · rw [hd, hu] at h
      exact .operation p.op (.inr ⟨p, hd.trans hu, rfl⟩) h
  · rw [hd] at h
    cases h

theorem GivesOperation.not_exti {ps : InsnPages} {insn : Word} {op : Operation} (h : GivesOperation ps insn op)
    (imm13 : BitVec 13) : decode ps insn ≠ .instr (.exti imm13) := by
  intro hd
  obtain ⟨form, hform, hw⟩ | ⟨p, hp, -⟩ := h
  · simp only [windowForms, List.mem_cons, List.not_mem_nil, or_false] at hform
    have e := Decoded.instr.inj (hw.symm.trans hd)
    rcases hform with rfl | rfl | rfl | rfl <;> cases e
  · cases hp.symm.trans hd

/-! ### What a whole instruction leaves -/

/-- What every step leaves as it was: the parameters, the words of the bus record there were, the canonical form of `mem`. -/
structure StepFrame (s t : State) : Prop where
  params : t.params = s.params
  log : s.extLog <+: t.extLog
  wf : s.mem.wf = true → t.mem.wf = true

theorem ReadsOnly.stepFrame {s t : State} (h : ReadsOnly s t) : StepFrame s t where
  params := h.params
  log := h.log
  wf := fun k => by rwa [h.mem]

theorem StepFrame.trans {s t u : State} (h : StepFrame s t) (k : StepFrame t u) : StepFrame s u where
  params := k.params.trans h.params
  log := h.log.trans k.log
  wf := fun e => k.wf (h.wf e)

/-- What performing the operation of a whole instruction leaves, seen after the instruction has retired. -/
structure RunFrame (op : Operation) (s t : State) : Prop extends StepFrame s t where
  ext13 : t.ext13 = .undefined
  hasExt13 : t.hasExt13 = 0#1
  flag : ∀ f, op.assignsFlag f = false → t.flag f = s.flag f
  w : op.assignsW = false → t.w = s.w
  pc : op.assignsPc = false → t.pc = advanced s.pc
  mem : op.storesToMemory = false → t.mem = s.mem

theorem runOperation_frame {insn : Word} {op : Operation} {s t : State} (h : runOperation insn op s = .next t) :
    RunFrame op s t := by
  obtain ⟨p, hp, rfl⟩ := runOperation_eq_next.mp h
  have F := performInstruction_frame hp
  obtain ⟨flags, -⟩ := retire_keeps p.state p.pcAssigned
  refine { params := ?_, log := ?_, wf := ?_, ext13 := rfl, hasExt13 := rfl, flag := ?_, w := ?_, pc := ?_, mem := ?_ }
  · rw [State.retire_params]; exact F.params
  · rw [State.retire_extLog]; exact F.log
  · rw [State.retire_mem]; exact F.wf
  · exact fun f e => (flags f).trans (F.flag f e)
  · rw [State.retire_w]; exact F.w
  · intro e
    obtain ⟨unassigned, kept⟩ := F.pc e
    rw [unassigned, ← nextPc_eq_advanced]
    exact congrArg nextPc kept
  · rw [State.retire_mem]; exact F.mem

/-- What every step leaves as it was. -/
theorem Stepped.stepFrame {s t s₁ : State} {insn : Word} (h : Stepped s t s₁ insn)
    (hf : fetch s = .next (insn, s₁)) : StepFrame s t := by
  refine (fetch_readsOnly hf).stepFrame.trans ?_
  cases h with
  | exti imm13 _ next =>
    subst next
    exact ⟨rfl, List.prefix_refl _, id⟩
  | operation op _ run => exact (runOperation_frame run).toStepFrame

/-- Whatever a step executed, `ext13` is known afterwards exactly if `has_ext13` is 1 (10_state.md R42). -/
theorem Stepped.ext13_known_iff {s t s₁ : State} {insn : Word} (h : Stepped s t s₁ insn) :
    t.hasExt13 = 1#1 ↔ ∃ v, t.ext13 = .known v := by
  cases h with
  | exti imm13 _ next => subst next; simp
  | operation op _ run =>
    have R := runOperation_frame run
    simp [R.ext13, R.hasExt13]

end Sys2Proof.Machine

namespace Sys2Proof.Proofs

open Sys2Proof Sys2Proof.Machine Sys2Proof.Claims

/-- Settles O18: each part of the invariant is one part of what a step can do. -/
theorem everyStepKeepsTheInvariant : Obligations.EveryStepKeepsTheInvariant := by
  intro s t ⟨canonical, _, lawful⟩ h
  obtain ⟨insn, s₁, hf, _⟩ := step_eq_next.mp h
  have S := stepped_of_fetch hf h
  have F := S.stepFrame hf
  exact ⟨F.wf canonical, S.ext13_known_iff, by rw [F.params]; exact lawful⟩

/-- Settles O21: the frame of a step. -/
theorem stepKeepsParametersAndBusRecord : Obligations.StepKeepsParametersAndBusRecord := by
  intro s t h
  obtain ⟨insn, s₁, hf, _⟩ := step_eq_next.mp h
  have F := (stepped_of_fetch hf h).stepFrame hf
  exact ⟨F.params, F.log⟩

/-- Settles O5: the two kinds of step, of which the word decides. -/
theorem extendedImmediateRegistersAfterEveryStep : Obligations.ExtendedImmediateRegistersAfterEveryStep := by
  intro s t s₁ insn hf h
  cases stepped_of_fetch hf h with
  | exti imm13 decoded next =>
    subst next
    refine ⟨fun imm13' hd => ?_, fun none => absurd decoded (none imm13)⟩
    obtain rfl : imm13 = imm13' := by simpa using decoded.symm.trans hd
    exact ⟨rfl, rfl⟩
  | operation op given run =>
    have R := runOperation_frame run
    exact ⟨fun imm13 hd => absurd hd (given.not_exti imm13), fun _ => ⟨R.ext13, R.hasExt13⟩⟩

/-- Settles O12: `EXTI` keeps `W`, and a lawful page outside the window families does not assign it. -/
theorem onlyWindowInstructionsChangeW : Obligations.OnlyWindowInstructionsChangeW := by
  intro s t s₁ insn lawful hf h changed
  have kept : s₁.w = s.w := (fetch_readsOnly hf).w
  cases stepped_of_fetch hf h with
  | exti imm13 _ next =>
    subst next
    exact absurd kept changed
  | operation op given run =>
    obtain ⟨form, hform, hd⟩ | ⟨p, hd, rfl⟩ := given
    · exact ⟨form, hform, op, hd⟩
    · exact absurd (((runOperation_frame run).w (assignsW_of_decode_unnamed lawful hd)).trans kept) changed

/-- Settles O20: an operation keeps every flag that it does not assign, and `EXTI` keeps all. -/
theorem onlyInstructionsThatAssignAFlagChangeIt : Obligations.OnlyInstructionsThatAssignAFlagChangeIt := by
  intro s t s₁ insn f hf h changed
  have kept : s₁.flag f = s.flag f := (fetch_readsOnly hf).flag f
  cases stepped_of_fetch hf h with
  | exti imm13 _ next =>
    subst next
    have same : State.flag { s₁ with pc := advanced s₁.pc, ext13 := .known imm13, hasExt13 := 1#1 } f = s₁.flag f := by
      cases f <;> rfl
    exact absurd (same.trans kept) changed
  | operation op given run =>
    have assigned : op.assignsFlag f = true := by
      by_contra unassigned
      exact changed (((runOperation_frame run).flag f (by simpa using unassigned)).trans kept)
    obtain ⟨form, hform, hd⟩ | ⟨p, hd, rfl⟩ := given
    · exact .inl ⟨form, hform, op, hd, assigned⟩
    · exact .inr ⟨p, hd, assigned⟩

/-- Settles O14: a fetch at a known word, and nothing after it but `exec`. -/
theorem stepRunsTheDecodedInstruction : Obligations.StepRunsTheDecodedInstruction := by
  intro s a insn i hpc hp hw hd
  rw [step_of_fetch (fetch_known hpc hp hw), hd]
  rfl

/-- Settles O15: the same fetch, with the two other outcomes of the look-up. -/
theorem stepOnOtherWords : Obligations.StepOnOtherWords := by
  intro s a insn hpc hp hw
  rw [step_of_fetch (fetch_known hpc hp hw)]
  refine ⟨fun p hd => ?_, fun hd => ?_⟩
  · rw [hd]; rfl
  · rw [hd]; rfl

/-- Settles O16: a fetch at an UNDEFINED word. -/
theorem stepOnAnUndefinedWord : Obligations.StepOnAnUndefinedWord :=
  fun _ _ hpc hp hw => step_of_fetch (fetch_undefined hpc hp hw)

end Sys2Proof.Proofs
end

section
/-!
PROOFS of the statements of 10_state.md on whole operations: what they leave unchanged, `PC`, and register numbers in a word.
-/

namespace Sys2Proof

/-! ### Flags that do not reach `PC` -/

/-- Before an operation has begun, an expression depends on a flag only if it reads one. -/
theorem FlagFlow.reaches_none (same : Expr → Expr → Bool) {e : Expr} (h : e.readsFlags = false) :
    FlagFlow.none.reaches same e = false := by
  unfold Expr.readsFlags at h
  induction e with
  | const n v => rfl
  | undef n => rfl
  | read r =>
    cases r with
    | flag f => cases h
    | _ => rfl
  | temp i n => rfl
  | un o a iha => exact iha (by simpa [Expr.any] using h)
  | bin o a b iha ihb =>
    obtain ⟨ha, hb⟩ : a.any _ = false ∧ b.any _ = false := by simpa [Expr.any] using h
    simp [FlagFlow.reaches, iha ha, ihb hb]
  | load sp a iha =>
    have ha : FlagFlow.none.reaches same a = false := iha (by simpa [Expr.any] using h)
    cases sp <;> simp [FlagFlow.reaches, ha] <;> simp [FlagFlow.none]
  | decodeImm t a iha => exact iha (by simpa [Expr.any] using h)
  | imm k a iha => exact iha (by simpa [Expr.any] using h)

theorem Operation.flagsReachPc_assign_pc (insn : Word) {e : Expr} (h : e.readsFlags = false) :
    (Operation.assign .pc e).flagsReachPc insn = false := by
  simp [Operation.flagsReachPc, FlagFlow.through, FlagFlow.assign, FlagFlow.reaches_none _ h]
  simp [FlagFlow.none]

/-! ### Register numbers in a word -/

theorem Operation.underBoth_under {q : Operation → Bool} {op : Operation} (hq : op.underBoth q = true) (h : BitVec 1) :
    q (op.under h) = true := by
  obtain ⟨h0, h1⟩ : q (op.under 0#1) = true ∧ q (op.under 1#1) = true := by simpa [Operation.underBoth] using hq
  obtain rfl | rfl := BitVec.eq_zero_or_eq_one h
  · exact h0
  · exact h1

/-- Whatever its family, a lawful operation treats every register alike (10_state.md R26, 40_alu_families.md R91). -/
theorem Operation.registersInterchangeable_of_lawfulFor {op : Operation} {f : Family} (h : op.lawfulFor f = true)
    (has : BitVec 1) : (op.under has).registersInterchangeable = true := by
  have other : op.otherLawful = true → (op.under has).registersInterchangeable = true := by
    intro k
    simp only [Operation.otherLawful, Bool.and_eq_true] at k
    obtain ⟨⟨⟨-, both⟩, -⟩, -⟩ := k
    exact Operation.underBoth_under both has
  have alu : ∀ t ending, op.aluFamilyLawful t ending = true → (op.under has).registersInterchangeable = true := by
    intro t ending k
    simp only [Operation.aluFamilyLawful, Bool.and_eq_true] at k
    obtain ⟨-, both⟩ := k
    have lawful := Operation.underBoth_under both has
    simp only [Operation.aluLawful, Bool.and_eq_true] at lawful
    obtain ⟨⟨⟨⟨⟨interchangeable, -⟩, -⟩, -⟩, -⟩, -⟩ := lawful
    exact interchangeable
  cases f with
  | adjw | ldw | stw | xchw =>
    simp only [Operation.lawfulFor, Operation.windowLawful, Bool.and_eq_true] at h
    obtain ⟨lawful, -⟩ := h
    exact other lawful
  | arithmetic | logical | shiftRotate => exact alu _ _ h
  | conditionalJump =>
    simp only [Operation.lawfulFor, Bool.and_eq_true] at h
    obtain ⟨⟨⟨lawful, -⟩, -⟩, -⟩ := h
    exact other lawful
  | other =>
    simp only [Operation.lawfulFor, Bool.and_eq_true] at h
    obtain ⟨lawful, -⟩ := h
    exact other lawful

/-- A field of three bits of the instruction word: its places differ and lie in the word. -/
structure IsField3 (f : List Nat) : Prop where
  length : f.length = 3
  nodup : f.Nodup
  inWord : ∀ q ∈ f, q < 16

theorem isField3_some {f : List Nat} (h : isField3 (some f) = true) : IsField3 f := by
  simp only [isField3, Bool.and_eq_true, decide_eq_true_eq, List.all_eq_true] at h
  obtain ⟨⟨length, nodup⟩, inWord⟩ := h
  exact ⟨length, nodup, inWord⟩

/-- A number of three bits scattered over a field is the number that the field holds. -/
theorem IsField3.gather_scatter {f : List Nat} (h : IsField3 f) (n : BitVec 3) :
    gatherBits (scatterBits n.toNat f) f = n.toNat := by
  obtain ⟨-, number⟩ := scatterBits_spec f n.toNat h.inWord h.nodup
  rw [number, h.length]
  exact Nat.mod_eq_of_lt n.isLt

theorem IsField3.scatter_outside {f : List Nat} (h : IsField3 f) (v : Nat) {q : Nat} (hq : q ∉ f) :
    (scatterBits v f).getLsbD q = false :=
  (scatterBits_spec f v h.inWord h.nodup).1 q hq

/-- The register fields of a well-formed page are fields of three bits, the same one or with no bit in common, and no bit
of them is fixed by the page's encoding. -/
theorem Page.registerFields_spec {p : Page} (hp : p.wellFormed = true) (has : BitVec 1) {f g : List Nat}
    (hf : some f ∈ (p.op.under has).registerFields) (hg : some g ∈ (p.op.under has).registerFields) :
    IsField3 f ∧ (f = g ∨ ∀ q ∈ f, q ∉ g) ∧ ∀ q ∈ f, p.mask.getLsbD q = false := by
  obtain ⟨-, lawful, free⟩ := p.wellFormed_iff.mp hp
  have regs := Operation.registersInterchangeable_of_lawfulFor lawful has
  simp only [Operation.registersInterchangeable, Bool.and_eq_true, List.all_eq_true] at regs
  obtain ⟨⟨fields, apart⟩, -⟩ := regs
  have free := Operation.underBoth_under free has
  simp only [Operation.registersFree, List.all_eq_true, Bool.not_eq_true'] at free
  refine ⟨isField3_some (fields _ hf), ?_, free _ hf⟩
  simpa [fieldsApart, fieldsDisjoint] using apart _ hf _ hg

/-- The value of a page has no bit outside its mask. -/
theorem Page.value_outside_mask {p : Page} (hp : p.wellFormed = true) {q : Nat} (hq : p.mask.getLsbD q = false) :
    p.value.getLsbD q = false := by
  obtain ⟨inside, -, -⟩ := p.wellFormed_iff.mp hp
  have bit := congrArg (BitVec.getLsbD · q) inside
  simp only [BitVec.getLsbD_and, BitVec.getLsbD_not, hq, BitVec.getLsbD_zero, Bool.not_false, Bool.and_true] at bit
  by_cases h : q < 16
  · simpa [h] using bit
  · exact BitVec.getLsbD_of_ge _ _ (by omega)

/-- A page encodes its value with anything beside it outside the mask. -/
theorem Page.matches_value_or {p : Page} (hp : p.wellFormed = true) {w : Word}
    (hw : ∀ q, p.mask.getLsbD q = true → w.getLsbD q = false) : p.matches (p.value ||| w) = true := by
  rw [Page.matches, decide_eq_true_eq]
  refine BitVec.eq_of_getLsbD_eq fun q _ => ?_
  rw [BitVec.getLsbD_and, BitVec.getLsbD_or]
  cases hm : p.mask.getLsbD q with
  | false => rw [Page.value_outside_mask hp hm, Bool.and_false]
  | true => rw [hw q hm, Bool.or_false, Bool.and_true]

/-- The word of a page with the number `n` in the field `f` and `k` in the field `g`. -/
def Page.wordWith (p : Page) (f g : List Nat) (n k : BitVec 3) : Word :=
  p.value ||| (scatterBits n.toNat f ||| scatterBits k.toNat g)

theorem Page.wordWith_comm (p : Page) (f g : List Nat) (n k : BitVec 3) : p.wordWith f g n k = p.wordWith g f k n := by
  rw [Page.wordWith, Page.wordWith, BitVec.or_comm (scatterBits _ f)]

theorem Page.gather_wordWith {p : Page} (hp : p.wellFormed = true) (has : BitVec 1) {f g : List Nat} {n k : BitVec 3}
    (hf : some f ∈ (p.op.under has).registerFields) (hg : some g ∈ (p.op.under has).registerFields)
    (hnk : f = g → n = k) : gatherBits (p.wordWith f g n k) f = n.toNat := by
  obtain ⟨field, apart, free⟩ := Page.registerFields_spec hp has hf hg
  obtain ⟨field', -, -⟩ := Page.registerFields_spec hp has hg hf
  rw [← field.gather_scatter n]
  refine gatherBits_congr fun q hq => ?_
  rw [Page.wordWith, BitVec.getLsbD_or, BitVec.getLsbD_or, Page.value_outside_mask hp (free q hq), Bool.false_or]
  obtain rfl | disjoint := apart
  · rw [hnk rfl, Bool.or_self]
  · rw [field'.scatter_outside _ (disjoint q hq), Bool.or_false]

theorem Page.matches_wordWith {p : Page} (hp : p.wellFormed = true) (has : BitVec 1) {f g : List Nat}
    (hf : some f ∈ (p.op.under has).registerFields) (hg : some g ∈ (p.op.under has).registerFields) (n k : BitVec 3) :
    p.matches (p.wordWith f g n k) = true := by
  obtain ⟨field, -, free⟩ := Page.registerFields_spec hp has hf hg
  obtain ⟨field', -, free'⟩ := Page.registerFields_spec hp has hg hf
  refine Page.matches_value_or hp fun q hm => ?_
  rw [BitVec.getLsbD_or, field.scatter_outside _ fun hq => by simp [free q hq] at hm,
    field'.scatter_outside _ fun hq => by simp [free' q hq] at hm, Bool.or_false]

end Sys2Proof

namespace Sys2Proof.Machine

open Sys2Proof.Claims

/-! ### `PC` -/

/-- An operation that has not assigned `PC`, wherever its choices have led, has left it as it was. -/
theorem perform_pc_of_not_assigned {insn : Word} {op : Operation} {p q : Progress} (h : perform insn op p = .next q)
    (hq : q.pcAssigned = false) : p.pcAssigned = false ∧ q.state.pc = p.state.pc := by
  have fromFrame : ∀ {o : Operation} {p q : Progress}, perform insn o p = .next q → o.assignsPc = false →
      q.pcAssigned = false → p.pcAssigned = false ∧ q.state.pc = p.state.pc := by
    intro o p q h e hq
    obtain ⟨same, kept⟩ := (perform_frame h).pc e
    exact ⟨same.symm.trans hq, kept⟩
  induction op generalizing p q with
  | skip | arithmeticFlags | logicalFlags => exact fromFrame h rfl hq
  | assign pl e =>
    cases pl with
    | pc =>
      obtain ⟨r, -, h⟩ := andThen_eq_next.mp h
      obtain rfl := Host.Outcome.next.inj h
      cases hq
    | _ => exact fromFrame h rfl hq
  | seq a b iha ihb =>
    obtain ⟨r, hr, h⟩ := andThen_eq_next.mp h
    obtain ⟨unassigned, kept⟩ := ihb h hq
    obtain ⟨unassigned', kept'⟩ := iha hr unassigned
    exact ⟨unassigned', kept.trans kept'⟩
  | ite c t f iht ihf =>
    obtain ⟨r, hr, h⟩ := andThen_eq_next.mp h
    have read := eval_readsOnly hr
    have drawn := read.trans (readsOnly_afterForce r.2 (r.1.resize 1))
    split at h
    · obtain rfl := Host.Outcome.next.inj h
      exact ⟨hq, read.pc⟩
    split at h
    · obtain ⟨unassigned, kept⟩ := iht h hq
      exact ⟨unassigned, kept.trans drawn.pc⟩
    · obtain ⟨unassigned, kept⟩ := ihf h hq
      exact ⟨unassigned, kept.trans drawn.pc⟩

/-- An operation begins with `PC` as it stands. -/
theorem begin_pc (insn : Word) (op : Operation) (s : State) : (Progress.begin insn op s).state.pc = s.pc := by
  unfold Progress.begin
  split
  · exact (drawFlags_differs s).pc
  · rfl

theorem performInstruction_pc_of_not_assigned {insn : Word} {op : Operation} {s : State} {p : Progress}
    (h : performInstruction insn op s = .next p) (hp : p.pcAssigned = false) : p.state.pc = s.pc := by
  obtain ⟨q, hq, h⟩ := andThen_eq_next.mp h
  obtain rfl := Host.Outcome.next.inj h
  obtain ⟨-, kept⟩ := perform_pc_of_not_assigned hq hp
  exact (restore_differs q).pc.trans (kept.trans (begin_pc insn _ s))

/-- An instruction advances `PC` if its operation has not assigned it, and leaves the assigned value if it has
(10_state.md R23, R24). -/
theorem runOperation_pc {insn : Word} {op : Operation} {s : State} {p : Progress}
    (h : performInstruction insn op s = .next p) :
    ∃ t, runOperation insn op s = .next t ∧
      (p.pcAssigned = false → t.pc = advanced s.pc) ∧ (p.pcAssigned = true → t.pc = p.state.pc) := by
  refine ⟨_, runOperation_eq_next.mpr ⟨p, h, rfl⟩, fun e => ?_, fun e => ?_⟩
  · rw [e, State.retire_pc_default, nextPc_eq_advanced, performInstruction_pc_of_not_assigned h e]
  · rw [e, State.retire_pc_assigned]

/-- `PC ← e`, where `e` reads no flag, is performed on the state as it stands. -/
theorem performInstruction_assign_pc {insn : Word} {e : Expr} {s s₁ : State} {v : Val e.len}
    (hflags : e.readsFlags = false) (h : eval insn [] e s = .next (v, s₁)) :
    performInstruction insn (.assign .pc e) s =
      .next { Progress.start (s₁.setPc (v.resize 16)) with pcAssigned := true } := by
  rw [performInstruction, Operation.under, begin_of_flagsReachPc (Operation.flagsReachPc_assign_pc insn hflags), perform,
    Progress.start_temps, Progress.start_state, h]
  rfl

end Sys2Proof.Machine

namespace Sys2Proof.Proofs

open Sys2Proof Sys2Proof.Machine Sys2Proof.Claims

/-- Settles O22: `PC` follows whether the operation has assigned it, which one without an assignment never has. -/
theorem pcAdvancesUnlessAssigned : Obligations.PcAdvancesUnlessAssigned := by
  refine ⟨fun insn op s t unassigned h => (runOperation_frame h).pc unassigned, ?_, ?_, fun _ _ _ _ => runOperation_pc, ?_⟩
  · intro imm13 s t h
    rw [execExti_eq_next.mp h]
  · intro form hform insn op s t unassigned h
    rw [exec_windowForm hform] at h
    exact (runOperation_frame h).pc unassigned
  · intro insn e s s₁ v hflags h
    obtain ⟨t, run, -, assigned⟩ := runOperation_pc (performInstruction_assign_pc hflags h)
    exact ⟨t, run, assigned rfl⟩

/-- Settles O23: the frame of the instruction, and of its operation where the addresses stored to are asked for. -/
theorem unassignedRegistersArePreserved : Obligations.UnassignedRegistersArePreserved := by
  intro insn op s t p hp h
  have R := runOperation_frame h
  refine ⟨R.w, R.flag, fun stores a => congrArg (Memory.read · a.toNat) (R.mem stores), fun a ha => ?_⟩
  obtain ⟨q, hq, rfl⟩ := runOperation_eq_next.mp h
  obtain rfl := Host.Outcome.next.inj (hp.symm.trans hq)
  obtain ⟨stored, only, kept⟩ := (performInstruction_frame hp).stored
  obtain ⟨-, words⟩ := retire_keeps p.state p.pcAssigned
  rw [words]
  exact kept a fun m => ha (by rw [only]; exact List.mem_append_right _ m)

/-- Settles O29: the word is the page's value with the two numbers put in their fields. -/
theorem anyRegisterFitsAnyRegisterField : Obligations.AnyRegisterFitsAnyRegisterField := by
  intro p has f g n k hp hf hg hnk
  refine ⟨p.wordWith f g n k, Page.matches_wordWith hp has hf hg n k, Page.gather_wordWith hp has hf hg hnk, ?_⟩
  rw [Page.wordWith_comm]
  exact Page.gather_wordWith hp has hg hf fun e => (hnk e.symm).symm

end Sys2Proof.Proofs
end

section
/-!
PROOFS of the statements of 10_state.md on the flags of a result, the registers in the window, reset and launch.
-/

namespace Sys2Proof.Machine

open Sys2Proof.Claims

/-! ### The flags of a result, said of its number -/

theorem setWidth16_eq_zero_iff {n : Nat} (r : BitVec n) : r.setWidth 16 = 0#16 ↔ r.toNat % 65536 = 0 := by
  rw [BitVec.toNat_eq, BitVec.toNat_setWidth]
  rfl

theorem zeroFlag_eq {n : Nat} (r : BitVec n) : zeroFlag r = BitVec.ofBool (decide (r.toNat % 65536 = 0)) := by
  simp only [zeroFlag, setWidth16_eq_zero_iff]

theorem zeroFlag_eq_one {n : Nat} (r : BitVec n) : zeroFlag r = 1#1 ↔ r.toNat % 65536 = 0 := by
  rw [zeroFlag_eq, ofBool_decide_eq_one]

theorem zeroFlag_eq_zero {n : Nat} (r : BitVec n) : zeroFlag r = 0#1 ↔ r.toNat % 65536 ≠ 0 := by
  rw [Ne, ← zeroFlag_eq_one]
  obtain h | h := BitVec.eq_zero_or_eq_one (zeroFlag r) <;> simp [h]

/-- The sum of two words and a carry bit has 17 bits, of which the carry is the highest (10_state.md R36). -/
theorem carryFlag_sumBits (a b : Word) (c : BitVec 1) :
    carryFlag (sumBits a b c) = BitVec.ofBool (decide (65536 ≤ a.toNat + b.toNat + c.toNat)) := by
  have high : (sumBits a b c).getLsbD 16 = decide (65536 ≤ (sumBits a b c).toNat) := BitVec.msb_eq_decide (sumBits a b c)
  rw [carryFlag, high, sumBits_toNat]

/-- Bit 15 of a word is its sign. -/
theorem getLsbD_15_eq_decide (a : Word) : a.getLsbD 15 = decide (32768 ≤ a.toNat) :=
  BitVec.msb_eq_decide a

theorem signed_eq (a : Word) : signed a = if a.toNat < 32768 then (a.toNat : Int) else a.toNat - 65536 := by
  rw [signed, BitVec.toInt_eq_toNat_cond]
  split <;> split <;> omega

/-- The operands have one sign and the result has the other exactly if the result, read as a two's complement number, is
not the sum of the operands read so (10_state.md R37; log 12). -/
theorem overflowFlag_sumBits (a b : Word) (c : BitVec 1) :
    overflowFlag a b (sumBits a b c) = BitVec.ofBool
      (decide (signed (BitVec.ofNat 16 (a.toNat + b.toNat + c.toNat)) ≠ signed a + signed b + (c.toNat : Int))) := by
  have ha : a.toNat < 65536 := a.isLt
  have hb : b.toNat < 65536 := b.isLt
  have hc : c.toNat < 2 := c.isLt
  have low : (sumBits a b c).getLsbD 15 = decide (32768 ≤ (a.toNat + b.toNat + c.toNat) % 65536) := by
    rw [← sumBits_toNat, BitVec.getLsbD, Nat.testBit_eq_decide_div_mod_eq]
    simp only [decide_eq_decide]
    omega
  rw [overflowFlag, low, getLsbD_15_eq_decide, getLsbD_15_eq_decide, signed_eq, signed_eq, signed_eq, BitVec.toNat_ofNat]
  congr 1
  rw [Bool.eq_iff_iff]
  simp only [Bool.and_eq_true, beq_iff_eq, bne_iff_ne, decide_eq_decide, decide_eq_true_eq, ne_eq]
  split <;> split <;> split <;> omega

theorem flagsOfSum_arithmeticFlags (a b : Word) (c : BitVec 1) :
    FlagsOfSum a b c (arithmeticFlags (.known a) (.known b) (.known c)) := by
  refine ⟨?_, ?_, congrArg _ (carryFlag_sumBits a b c), congrArg _ (overflowFlag_sumBits a b c)⟩
  · rw [← sumBits_toNat, ← zeroFlag_eq]; rfl
  · rw [← sumBits_toNat]; rfl

/-- One UNDEFINED operand makes all four flags UNDEFINED (40_alu_families.md R97). -/
theorem arithmeticFlags_undefined {a b : Val 16} {c : Val 1} (h : a = .undefined ∨ b = .undefined ∨ c = .undefined) :
    arithmeticFlags a b c = { z := .undefined, s := .undefined, c := .undefined, v := .undefined } := by
  obtain rfl | rfl | rfl := h
  · rfl
  · cases a <;> rfl
  · cases a <;> cases b <;> rfl

/-! ### Registers in the window -/

theorem add_setWidth_eq_ofNat (w₀ : Word) (n : BitVec 3) :
    w₀ + n.setWidth 16 = BitVec.ofNat 16 (w₀.toNat + n.toNat) := by
  apply BitVec.eq_of_toNat_eq
  simp

/-- Register numbers that stay below 8 move with the window. -/
theorem add_ofNat_add_setWidth (w₀ : Word) {n d : Nat} (h : n + d < 8) :
    w₀ + BitVec.ofNat 16 d + (BitVec.ofNat 3 n).setWidth 16 = w₀ + (BitVec.ofNat 3 (n + d)).setWidth 16 := by
  apply BitVec.eq_of_toNat_eq
  simp
  omega

/-- Where there is memory, reading a register gives its word and changes nothing. -/
theorem eval_loadReg_const {insn : Word} {ts : Temporaries} {s : State} {w₀ : Word} {n : BitVec 3} (hw : s.w = .known w₀)
    (hp : s.populated (w₀ + n.setWidth 16) = true) :
    eval insn ts (.load .reg (.const 3 n)) s = .next (s.reg n, s) := by
  rw [reg_of_known hw]
  exact (loadFrom_reg hw n).trans (by rw [BitVec.setWidth_eq]; exact if_pos hp)

/-- Where there is memory, a value stored to a register is the content of the register's word; every other word stays, and
nothing but `mem` changes. -/
theorem perform_storeReg_const {insn : Word} {e : Expr} {p : Progress} {v : Val e.len} {w₀ : Word} {d : BitVec 3}
    (he : eval insn p.temps e p.state = .next (v, p.state)) (hm : p.state.mem.wf = true) (hw : p.state.w = .known w₀)
    (hp : p.state.populated (w₀ + d.setWidth 16) = true) :
    ∃ m, perform insn (.assign (.store .reg (.const 3 d)) e) p =
        .next { p with state := p.state.setMem m, stored := p.stored ++ [w₀ + d.setWidth 16] } ∧
      (p.state.setMem m).word (w₀ + d.setWidth 16) = v.resize 16 ∧
      ∀ a, a ≠ w₀ + d.setWidth 16 → (p.state.setMem m).word a = p.state.word a := by
  refine ⟨p.state.mem.write (w₀ + d.setWidth 16).toNat (v.resize 16), ?_, Memory.read_write_same _ _ hm, fun a ha => ?_⟩
  · have store : perform insn (.assign (.store .reg (.const 3 d)) e) p =
        p.storeMem (p.state.regAddr ((Val.known d).resize 3)) (v.resize 16) := by
      rw [perform, he]
      rfl
    rw [store, Val.resize_self, regAddr_of_known hw]
    exact storeMem_eq_next.mpr ⟨hp, rfl⟩
  · exact Memory.read_write_other _ _ fun e => ha (BitVec.eq_of_toNat_eq e)

theorem populated_of_unpopulated_nil {s : State} (h : s.params.unpopulated = []) (a : Word) : s.populated a = true := by
  simp [State.populated, h]

/-! ### Reset and launch -/

theorem Memory.ofWords_concat (init : List (Nat × Word)) (e : Nat × Word) :
    Memory.ofWords (init ++ [e]) = (Memory.ofWords init).insert (e.1 % 65536) e.2 := by
  rw [Memory.ofWords, List.foldl_append]
  rfl

/-- A word given at the end of the list is the last given for its address. -/
theorem lastGiven_concat (a : Word) (init : List (Nat × Word)) (k : Nat) (v : Word) :
    lastGiven a (init ++ [(k, v)]) = if k % 65536 = a.toNat then .known v else lastGiven a init := by
  induction init with
  | nil => rfl
  | cons e es ih =>
    obtain ⟨j, u⟩ := e
    rw [List.cons_append, lastGiven, ih]
    by_cases h : k % 65536 = a.toNat
    · rw [if_pos h, if_pos h]
    · rw [if_neg h, if_neg h]
      rfl

/-- `INIT_MEM` gives each word what the list gives for it last (10_state.md R48). -/
theorem Memory.read_ofWords (init : List (Nat × Word)) (a : Word) :
    (Memory.ofWords init).read a.toNat = lastGiven a init := by
  induction init using List.reverseRecOn with
  | nil => rfl
  | append_singleton es e ih =>
    obtain ⟨k, v⟩ := e
    rw [Memory.ofWords_concat, lastGiven_concat]
    split
    · next h => rw [h]; exact Memory.read_insert_same _ _ v
    · next h => rw [Memory.read_insert_other _ v (Ne.symm h), ih]

theorem inv_launch (params : Params) (resetPc resetW : Word) (init : List (Nat × Word)) :
    Inv (State.launch params resetPc resetW init) :=
  ⟨Memory.ofWords_wf init, by simp [State.launch], InsnPages.accepted_wellFormed params.pages⟩

/-- Pages that break a family rule are not taken: no word has a page then (30_encoding.md R79; log 10). -/
theorem decode_accepted_of_not_wellFormed {ps : InsnPages} (h : ps.wellFormed = false) (w : Word) :
    decode ps.accepted w = .undefinedEncoding := by
  rw [InsnPages.accepted, h]
  rfl

/-! ### The host's placing of a word -/

/-- The word is placed at `PC`, or at 0 if `PC` is UNDEFINED, and its address has memory then (log 16). -/
theorem placeAtPc_eq {s : State} {a : Word} (h : s.pc = .known a ∨ (s.pc = .undefined ∧ a = 0#16)) (w : Word) :
    s.placeAtPc w = { s with
      pc := .known a
      mem := s.mem.write a.toNat (.known w)
      params := { s.params with unpopulated := s.params.unpopulated.filter (fun b => b != a) } } := by
  unfold State.placeAtPc
  obtain hpc | ⟨hpc, rfl⟩ := h
  · rw [hpc]
  · rw [hpc]; rfl

theorem placeAtPc_spec {s : State} {a : Word} (h : s.pc = .known a ∨ (s.pc = .undefined ∧ a = 0#16)) (w : Word) :
    (s.placeAtPc w).pc = .known a ∧ (s.placeAtPc w).populated a = true ∧ (s.placeAtPc w).word a = .known w ∧
      ∀ b, b ≠ a → (s.placeAtPc w).word b = s.word b ∧ (s.placeAtPc w).populated b = s.populated b := by
  rw [placeAtPc_eq h]
  refine ⟨rfl, ?_, Memory.read_insert_same _ _ w, fun b hb => ⟨?_, ?_⟩⟩
  · simp [State.populated]
  · exact Memory.read_insert_other _ w fun e => hb (BitVec.eq_of_toNat_eq e)
  · simp [State.populated, hb]

end Sys2Proof.Machine

namespace Sys2Proof.Proofs

open Sys2Proof Sys2Proof.Machine Sys2Proof.Claims

/-- Settles O37: each flag said of the number of the sum; UNDEFINED operands apart. -/
theorem arithmeticFlagsDescribeTheSum : Obligations.ArithmeticFlagsDescribeTheSum :=
  ⟨flagsOfSum_arithmeticFlags, fun _ _ _ => arithmeticFlags_undefined⟩

/-- Settles O38: `Z` by the number of the result, the other flags as they are computed. -/
theorem zeroSignAndCarryFlags : Obligations.ZeroSignAndCarryFlags := by
  have known : ∀ {x y : BitVec 1}, Val.known x = .known y ↔ x = y := iff_of_eq (Val.known.injEq ..)
  refine ⟨fun a b c => ⟨known.trans (zeroFlag_eq_one _), known.trans (zeroFlag_eq_zero _), rfl, rfl⟩, fun r => ?_, rfl⟩
  have zero : r.toNat % 65536 = 0 ↔ r = 0#16 := by rw [← setWidth16_eq_zero_iff, BitVec.setWidth_eq]
  exact ⟨known.trans ((zeroFlag_eq_one r).trans zero), known.trans ((zeroFlag_eq_zero r).trans zero.not), rfl, rfl⟩

/-- Settles O59: `mem` by the words in the order given; the rest stands in the definition of a launch. -/
theorem launchStateHoldsInitMem : Obligations.LaunchStateHoldsInitMem :=
  fun _ _ _ init => ⟨rfl, rfl, rfl, rfl, rfl, rfl, rfl, Memory.read_ofWords init⟩

/-- Settles O1: the whole next state of an `EXTI`. -/
theorem extiSetsExt13AndHasExt13 : Obligations.ExtiSetsExt13AndHasExt13 :=
  fun _ _ => ⟨_, execExti_eq_next.mpr rfl, rfl, rfl⟩

/-- Settles O19: pages are checked where they are supplied, with either outcome. -/
theorem launchStatesMeetTheInvariant : Obligations.LaunchStatesMeetTheInvariant := by
  refine ⟨fun params resetPc resetW init => ⟨inv_launch .., fun lawful => ?_, fun unlawful => ?_⟩, inv_launch ..⟩
  · rw [State.launch, InsnPages.accepted_of_wellFormed lawful]
  · exact decode_accepted_of_not_wellFormed unlawful

/-- Settles O25: the fetch of the known word that was placed, and the frame of the placing. -/
theorem placedWordIsFetched : Obligations.PlacedWordIsFetched := by
  intro s w a h
  have whole : BitVec.ofNat 16 (w % 2 ^ 16) = BitVec.ofNat 16 w := BitVec.eq_of_toNat_eq (by simp)
  rw [State.withFetchWord, whole]
  obtain ⟨pc, populated, word, others⟩ := placeAtPc_spec h (BitVec.ofNat 16 w)
  exact ⟨fetch_known pc populated word, pc, populated, others, _, _, placeAtPc_eq h _⟩

/-- Settles O49: the address of a register as a number modulo 2^16. -/
theorem registersAreWordsOfTheWindow : Obligations.RegistersAreWordsOfTheWindow := by
  intro s w₀ n hw
  rw [← add_setWidth_eq_ofNat]
  exact ⟨regAddr_of_known hw n, reg_of_known hw n⟩

/-- Settles O50: the register is the word at its address, before the write and after it. -/
theorem aStoreIntoTheWindowChangesTheRegister : Obligations.AStoreIntoTheWindowChangesTheRegister := by
  intro s t w₀ a v n hm hw h
  obtain ⟨-, ht⟩ := memWrite_eq_next.mp h
  have same : t.w = .known w₀ := by rw [ht]; exact hw
  rw [reg_of_known same, reg_of_known hw, ht]
  refine ⟨?_, fun ha => ?_⟩
  · rintro rfl
    exact Memory.read_write_same _ v hm
  · exact Memory.read_write_other _ v fun e => ha (BitVec.eq_of_toNat_eq e).symm

/-- Settles O51: the two registers have one address. -/
theorem overlappingWindowsShareWords : Obligations.OverlappingWindowsShareWords := by
  intro s w₀ n d h
  rw [reg_of_known (State.setW_w ..), reg_of_known (State.setW_w ..), add_ofNat_add_setWidth w₀ h]
  rfl

/-- Settles O52: a read of `Rn` and a store of `Rd`, after which the instruction retires with `PC` not assigned. -/
theorem registerCopySetsTheDestinationAlone : Obligations.RegisterCopySetsTheDestinationAlone := by
  intro insn s w₀ d n hm hw memory
  have populated := populated_of_unpopulated_nil memory
  obtain ⟨m, run, same, others⟩ := perform_storeReg_const (p := Progress.start s) (insn := insn) (d := d)
    (eval_loadReg_const (n := n) hw (populated _)) hm hw (populated _)
  refine ⟨retired (s.setMem m), ?_, ?_, others, rfl⟩
  · rw [runOperation_eq_next]
    exact ⟨_, (performInstruction_of_assignsPc rfl).mpr run, (retire_default_eq_retired _).symm⟩
  · have window : (retired (s.setMem m)).w = .known w₀ := hw
    rw [reg_of_known window]
    exact same.trans (Val.resize_self _)

/-- Settles O58: both values stand in the definition of a launch, and the defaults in that of the reset state. -/
theorem resetValuesOfPcAndW : Obligations.ResetValuesOfPcAndW :=
  ⟨fun _ _ _ _ => ⟨rfl, rfl⟩, rfl, rfl⟩

end Sys2Proof.Proofs
end

section
/-!
PROOFS of the statements of 20_memory.md: accesses to `mem`, the fetch after a store, the external bus, byte images.
-/

namespace Sys2Proof.Machine

/-! ### Accesses to `mem` at a known address -/

/-- Where there is memory, a read at a known address gives the content and changes nothing (20_memory.md R68). -/
theorem memRead_known_of_populated {s : State} {a : Word} (hp : s.populated a = true) :
    memRead (.known a) s = .next (s.word a, s) :=
  if_pos hp

/-- A register is read at its address, wherever the window lies (10_state.md R27). -/
theorem loadFrom_reg_eq_memRead (n : Val 3) (s : State) : loadFrom .reg n s = memRead (s.regAddr n) s := by
  rw [loadFrom, Val.resize_self]

/-- A fetch where there is no memory is stuck (20_memory.md R61). -/
theorem fetch_of_not_populated {s : State} (hp : s.populated (s.force s.pc) = false) :
    fetch s = .fault (.stuck (s.force s.pc)) := by
  rw [fetch, memRead_of_not_populated hp, andThen_fault]

/-- A step whose fetch stops executes nothing: it stops for the same reason. -/
theorem step_of_fetch_fault {s : State} {e : Fault} (h : fetch s = .fault e) : step s = .fault e := by
  rw [step, h, andThen_fault]

/-- After a write of a known word at a known address the address has memory and holds the word; `mem` need not be canonical
for that. -/
theorem populated_word_of_memWrite_known {s t : State} {a v : Word} (h : memWrite (.known a) (.known v) s = .next t) :
    t.populated a = true ∧ t.word a = .known v := by
  obtain ⟨hp, rfl⟩ := memWrite_eq_next.mp h
  exact ⟨hp, Memory.read_insert_same _ _ v⟩

/-! ### The external bus -/

/-- A read at a known address answers, and records, what the environment gives after the events so far (D14). -/
theorem extRead_known (a : Word) (s : State) :
    extRead (.known a) s = (.known (s.extAnswer a), s.record (.read a (s.extAnswer a))) := rfl

/-- A write of a known word at a known address is recorded, with nothing drawn (20_memory.md R69). -/
theorem extWrite_known (a v : Word) (s : State) : extWrite (.known a) (.known v) s = s.record (.write a v) := rfl

/-! ### Images given as bytes -/

/-- An image that begins with two bytes gives words exactly when the rest does: the word of the two, then those. -/
theorem initMemOfBytes_cons_cons_eq_some {order : ByteOrder} {base : Nat} {b c : BitVec 8} {bs : List (BitVec 8)}
    {m : List (Nat × Word)} :
    initMemOfBytes order base (b :: c :: bs) = some m ↔
      ∃ ws, initMemOfBytes order (base + 1) bs = some ws ∧ (base, wordOfBytes order b c) :: ws = m := by
  rw [initMemOfBytes, Option.map_eq_some_iff]

/-- There is an image exactly for an even number of bytes (log 15). -/
theorem initMemOfBytes_isSome_iff (order : ByteOrder) (base : Nat) (bytes : List (BitVec 8)) :
    (initMemOfBytes order base bytes).isSome = true ↔ bytes.length % 2 = 0 := by
  induction base, bytes using initMemOfBytes.induct with
  | case1 base => exact iff_of_true rfl rfl
  | case2 base b => exact iff_of_false Bool.false_ne_true Nat.one_ne_zero
  | case3 base b c bs ih =>
    rw [initMemOfBytes, Option.isSome_map, ih, List.length_cons, List.length_cons]
    omega

/-- Each word of an image takes two bytes. -/
theorem initMemOfBytes_length {order : ByteOrder} {base : Nat} {bytes : List (BitVec 8)} {m : List (Nat × Word)}
    (h : initMemOfBytes order base bytes = some m) : 2 * m.length = bytes.length := by
  induction base, bytes using initMemOfBytes.induct generalizing m with
  | case1 base => obtain rfl := Option.some.inj h; rfl
  | case2 base b => cases h
  | case3 base b c bs ih =>
    obtain ⟨ws, hws, rfl⟩ := initMemOfBytes_cons_cons_eq_some.mp h
    simp only [List.length_cons, ← ih hws]
    omega

/-- Word `k` of an image stands `k` words after the base and is made of the bytes `2k` and `2k + 1` (20_memory.md R55). -/
theorem initMemOfBytes_getElem? {order : ByteOrder} {base : Nat} {bytes : List (BitVec 8)} {m : List (Nat × Word)}
    {k : Nat} {b c : BitVec 8} (h : initMemOfBytes order base bytes = some m)
    (hb : bytes[2 * k]? = some b) (hc : bytes[2 * k + 1]? = some c) :
    m[k]? = some (base + k, wordOfBytes order b c) := by
  induction base, bytes using initMemOfBytes.induct generalizing m k with
  | case1 base => cases hb
  | case2 base x => cases h
  | case3 base x y bs ih =>
    obtain ⟨ws, hws, rfl⟩ := initMemOfBytes_cons_cons_eq_some.mp h
    cases k with
    | zero =>
      obtain rfl := Option.some.inj hb
      obtain rfl := Option.some.inj hc
      rfl
    | succ k =>
      rw [List.getElem?_cons_succ, ih hws hb hc, Nat.add_right_comm]
      rfl

end Sys2Proof.Machine

namespace Sys2Proof.Proofs

open Sys2Proof Sys2Proof.Machine

/-- Settles O60: the parity of the image decides whether it gives words; how many and which, by induction over its pairs of
bytes. -/
theorem byteImagesGiveWordsInTheChosenOrder : Obligations.ByteImagesGiveWordsInTheChosenOrder := by
  intro order base bytes
  have someIff := initMemOfBytes_isSome_iff order base bytes
  refine ⟨fun odd => ?_, fun even => ?_⟩
  · rw [← Option.not_isSome_iff_eq_none, someIff]
    omega
  · obtain ⟨m, hm⟩ := Option.isSome_iff_exists.mp (someIff.mpr even)
    refine ⟨m, hm, initMemOfBytes_length hm, fun k b c hb hc => ?_⟩
    rw [initMemOfBytes_getElem? hm hb hc]
    cases order <;> rfl

/-- Settles O53: the read and the write of a populated word, with the frame of the write. -/
theorem memoryReadsGiveTheLatestWrite : Obligations.MemoryReadsGiveTheLatestWrite :=
  fun _ a v hm hp => ⟨memRead_known_of_populated hp, memWrite_of_populated (addr := .known a) v hm hp⟩

/-- Settles O55: a register and the fetch are reads of `mem`, and a step stops with its fetch. -/
theorem accessesWithoutMemoryAreStuck : Obligations.AccessesWithoutMemoryAreStuck := by
  intro s a hp
  have read : memRead (.known a) s = .fault (.stuck a) := memRead_of_not_populated (addr := .known a) hp
  refine ⟨read, fun v => memWrite_of_not_populated (addr := .known a) v hp, fun n hn => ?_, fun hpc => ?_⟩
  · rw [loadFrom_reg_eq_memRead, hn, read]
  · have address : s.force s.pc = a := by rw [hpc, State.force_known]
    rw [← address] at hp ⊢
    exact step_of_fetch_fault (fetch_of_not_populated hp)

/-- Settles O56: the write has gone to memory, so the fetch finds the word there. -/
theorem aStoreIsSeenByTheNextFetch : Obligations.AStoreIsSeenByTheNextFetch := by
  intro s t a insn h hpc
  obtain ⟨populated, word⟩ := populated_word_of_memWrite_known h
  exact fetch_known hpc populated word

/-- Settles O57: each access is recorded at the end, and recording changes nothing else. -/
theorem busAccessesAreRecordedInOrder : Obligations.BusAccessesAreRecordedInOrder :=
  fun s a v => ⟨extRead_known a s, extWrite_known a v s⟩

end Sys2Proof.Proofs
end

section
/-!
PROOFS of the statements of 30_encoding.md: the layout of `EXTI`, decoding and encoding, short immediates.
-/

namespace Sys2Proof

open Sys2Proof.Claims

/-! ### The number in a field -/

theorem gatherBits_lt (w : Word) (l : List Nat) : gatherBits w l < 2 ^ l.length := by
  induction l with
  | nil => exact Nat.one_pos
  | cons p ps ih =>
    have bit : (w.getLsbD p).toNat < 2 := Bool.toNat_lt _
    rw [gatherBits, List.length_cons, Nat.pow_succ]
    omega

/-- The number in a field determines its bits. -/
theorem gatherBits_eq_iff {w w' : Word} {l : List Nat} :
    gatherBits w l = gatherBits w' l ↔ ∀ q ∈ l, w.getLsbD q = w'.getLsbD q := by
  refine ⟨fun h => ?_, gatherBits_congr⟩
  induction l with
  | nil => simp
  | cons p ps ih =>
    have bit : (w.getLsbD p).toNat < 2 := Bool.toNat_lt _
    have bit' : (w'.getLsbD p).toNat < 2 := Bool.toNat_lt _
    rw [gatherBits, gatherBits] at h
    have first : w.getLsbD p = w'.getLsbD p := Function.LeftInverse.injective Bool.ofNat_toNat (by omega)
    exact List.forall_mem_cons.mpr ⟨first, ih (by omega)⟩

/-- A field of ones only holds the greatest number of its length. -/
theorem gatherBits_allOnes {l : List Nat} (h16 : ∀ q ∈ l, q < 16) :
    gatherBits (BitVec.allOnes 16) l = 2 ^ l.length - 1 := by
  induction l with
  | nil => rfl
  | cons p ps ih =>
    obtain ⟨hp, hps⟩ := List.forall_mem_cons.mp h16
    have positive : 0 < 2 ^ ps.length := Nat.two_pow_pos _
    rw [gatherBits, ih hps, BitVec.getLsbD_allOnes, decide_eq_true hp, Bool.toNat_true, List.length_cons, Nat.pow_succ]
    omega

/-- Scattering the number that a word holds in a field copies the bits of the field. -/
theorem scatterBits_gatherBits_getLsbD {l : List Nat} (h16 : ∀ q ∈ l, q < 16) (hn : l.Nodup) (w : Word) {q : Nat}
    (hq : q ∈ l) : (scatterBits (gatherBits w l) l).getLsbD q = w.getLsbD q := by
  obtain ⟨-, number⟩ := scatterBits_spec l (gatherBits w l) h16 hn
  rw [Nat.mod_eq_of_lt (gatherBits_lt w l)] at number
  exact gatherBits_eq_iff.mp number q hq

/-! ### The layout of `EXTI` -/

/-- 30_encoding.md R77: 13 different places of the word hold the immediate, and the opcode has no bit there. -/
structure ExtiLayout.Lawful (l : ExtiLayout) : Prop where
  length : l.immBits.length = 13
  inWord : ∀ q ∈ l.immBits, q < 16
  nodup : l.immBits.Nodup
  opcode_clear : ∀ q ∈ l.immBits, l.opcode.getLsbD q = false

theorem ExtiLayout.lawful_of_wellFormed {l : ExtiLayout} (h : l.wellFormed = true) : l.Lawful := by
  simp only [ExtiLayout.wellFormed, Bool.and_eq_true, decide_eq_true_eq, List.all_eq_true, Bool.not_eq_true'] at h
  obtain ⟨⟨⟨length, inWord⟩, nodup⟩, opcode_clear⟩ := h
  exact ⟨length, inWord, nodup, opcode_clear⟩

namespace ExtiLayout.Lawful

variable {l : ExtiLayout} (h : l.Lawful)
include h

theorem scatter_outside (v : Nat) {q : Nat} (hq : q ∉ l.immBits) : (scatterBits v l.immBits).getLsbD q = false :=
  (scatterBits_spec l.immBits v h.inWord h.nodup).1 q hq

/-- The identifying places are those of the word that the immediate leaves. -/
theorem opcodeMask_getLsbD {q : Nat} (hq : q < 16) : l.opcodeMask.getLsbD q = decide (q ∉ l.immBits) := by
  rw [ExtiLayout.opcodeMask, BitVec.getLsbD_not, decide_eq_true hq, Bool.true_and]
  by_cases place : q ∈ l.immBits
  · have ones : gatherBits (BitVec.allOnes 16) l.immBits = 0x1FFF := by rw [gatherBits_allOnes h.inWord, h.length]; rfl
    rw [← ones, scatterBits_gatherBits_getLsbD h.inWord h.nodup _ place, BitVec.getLsbD_allOnes]
    simp [hq, place]
  · rw [h.scatter_outside _ place]
    simp [place]

/-- A word is an `EXTI` exactly when it has the opcode's bits outside the immediate. -/
theorem matches_iff {w : Word} :
    l.matches w = true ↔ ∀ q < 16, q ∉ l.immBits → w.getLsbD q = l.opcode.getLsbD q := by
  rw [ExtiLayout.matches, decide_eq_true_eq, BitVec.eq_of_getLsbD_eq_iff]
  refine forall₂_congr fun q hq => ?_
  rw [BitVec.getLsbD_and, h.opcodeMask_getLsbD hq]
  by_cases place : q ∈ l.immBits
  · simp [place, h.opcode_clear q place]
  · simp [place]

theorem encode_getLsbD_inside (v : BitVec 13) {q : Nat} (hq : q ∈ l.immBits) :
    (l.encode v).getLsbD q = (scatterBits v.toNat l.immBits).getLsbD q := by
  rw [ExtiLayout.encode, BitVec.getLsbD_or, h.opcode_clear q hq, Bool.false_or]

theorem encode_getLsbD_outside (v : BitVec 13) {q : Nat} (hq : q ∉ l.immBits) :
    (l.encode v).getLsbD q = l.opcode.getLsbD q := by
  rw [ExtiLayout.encode, BitVec.getLsbD_or, h.scatter_outside _ hq, Bool.or_false]

theorem matches_encode (v : BitVec 13) : l.matches (l.encode v) = true :=
  h.matches_iff.mpr fun _ _ place => h.encode_getLsbD_outside v place

theorem imm13_encode (v : BitVec 13) : l.imm13 (l.encode v) = v := by
  obtain ⟨-, number⟩ := scatterBits_spec l.immBits v.toNat h.inWord h.nodup
  rw [ExtiLayout.imm13, gatherBits_congr fun _ => h.encode_getLsbD_inside v, number, h.length,
    Nat.mod_eq_of_lt v.isLt, BitVec.ofNat_toNat, BitVec.setWidth_eq]

theorem imm13_toNat (w : Word) : (l.imm13 w).toNat = gatherBits w l.immBits := by
  have fits := gatherBits_lt w l.immBits
  rw [h.length] at fits
  exact Nat.mod_eq_of_lt fits

/-- An `EXTI` word is its identifying bits and its immediate, with nothing besides. -/
theorem encode_imm13 {w : Word} (hw : l.matches w = true) : l.encode (l.imm13 w) = w := by
  refine BitVec.eq_of_getLsbD_eq fun q hq => ?_
  by_cases place : q ∈ l.immBits
  · rw [h.encode_getLsbD_inside _ place, h.imm13_toNat, scatterBits_gatherBits_getLsbD h.inWord h.nodup w place]
  · rw [h.encode_getLsbD_outside _ place, h.matches_iff.mp hw q hq place]

/-- The words of `EXTI` are as many as the immediates, which `encode` and `imm13` pair with them. -/
theorem card_matches : (Finset.univ.filter fun w : Word => l.matches w = true).card = 2 ^ 13 := by
  calc (Finset.univ.filter fun w : Word => l.matches w = true).card
      = (Finset.univ : Finset (BitVec 13)).card :=
        Finset.card_bij' (fun w _ => l.imm13 w) (fun v _ => l.encode v) (fun _ _ => Finset.mem_univ _)
          (fun v _ => Finset.mem_filter.mpr ⟨Finset.mem_univ _, h.matches_encode v⟩)
          (fun _ hw => h.encode_imm13 (Finset.mem_filter.mp hw).2) (fun v _ => h.imm13_encode v)
    _ = 2 ^ 13 := by rw [Finset.card_univ, ← FinEnum.card_eq_fintypeCard, FinEnum.card_bitVec]

end ExtiLayout.Lawful

/-! ### Which page a word belongs to -/

theorem decode_of_exti {ps : InsnPages} {l : ExtiLayout} (hl : ps.exti = some l) (w : Word) :
    decode ps w = if l.matches w then .instr (.exti (l.imm13 w)) else decodePages ps.pages w := by
  rw [decode, hl]

/-- The decoder asks the page of `EXTI` first, where it is supplied, and the other pages only of words that it leaves. -/
theorem decode_exti_or_pages (ps : InsnPages) (w : Word) :
    (∃ l, ps.exti = some l ∧ l.matches w = true ∧ decode ps w = .instr (.exti (l.imm13 w))) ∨
      (∀ l, ps.exti = some l → l.matches w = false) ∧ decode ps w = decodePages ps.pages w := by
  cases hl : ps.exti with
  | none => exact .inr ⟨nofun, by rw [decode, hl]⟩
  | some l =>
    rw [decode_of_exti hl]
    cases hm : l.matches w with
    | true => exact .inl ⟨l, rfl, hm, rfl⟩
    | false => exact .inr ⟨fun _ h => Option.some.inj h ▸ hm, rfl⟩

/-- A page gives an instruction, with a name or without, for every word. -/
theorem Page.decoded_ne_undefinedEncoding (p : Page) (w : Word) : p.decoded w ≠ .undefinedEncoding := by
  obtain ⟨-, form, -, hd⟩ | ⟨-, hd⟩ := p.decoded_cases w <;> rw [hd] <;> nofun

theorem decodePages_cons_of_matches {p : Page} {w : Word} (h : p.matches w = true) (ps : List Page) :
    decodePages (p :: ps) w = p.decoded w := by
  simp only [decodePages, List.find?_cons, h]

theorem decodePages_cons_of_not_matches {p : Page} {w : Word} (h : p.matches w = false) (ps : List Page) :
    decodePages (p :: ps) w = decodePages ps w := by
  simp only [decodePages, List.find?_cons, h]

theorem decodePages_eq_undefinedEncoding {ps : List Page} {w : Word} :
    decodePages ps w = .undefinedEncoding ↔ ∀ p ∈ ps, p.matches w = false := by
  induction ps with
  | nil => exact iff_of_true rfl nofun
  | cons p ps ih =>
    rw [List.forall_mem_cons]
    cases h : p.matches w with
    | true =>
      rw [decodePages_cons_of_matches h]
      exact iff_of_false (p.decoded_ne_undefinedEncoding w) nofun
    | false => rw [decodePages_cons_of_not_matches h, ih, and_iff_right rfl]

/-- Where two pages differ in a bit that both fix, no word belongs to both. -/
theorem Page.not_matches_of_apart {p q : Page} (h : p.apart q = true) {w : Word} (hp : p.matches w = true) :
    q.matches w = false := by
  have same : ∀ x m n : Bool, (m && n && ((x && m) ^^ (x && n))) = false := by decide
  rw [Page.apart, decide_eq_true_eq] at h
  rw [Page.matches, decide_eq_true_eq] at hp
  rw [Page.matches, decide_eq_false_iff_not]
  refine fun hq => h (BitVec.eq_of_getLsbD_eq fun k _ => ?_)
  rw [← hp, ← hq]
  simpa only [BitVec.getLsbD_and, BitVec.getLsbD_xor, BitVec.getLsbD_zero] using same _ _ _

/-- Among pages that are apart, a word belongs to the one page that it matches, wherever it stands in the list. -/
theorem decodePages_of_matches {ps : List Page} (apart : pagesApart ps = true) {p : Page} (hp : p ∈ ps) {w : Word}
    (hm : p.matches w = true) : decodePages ps w = p.decoded w := by
  induction ps with
  | nil => cases hp
  | cons q qs ih =>
    simp only [pagesApart, Bool.and_eq_true, List.all_eq_true] at apart
    obtain ⟨first, rest⟩ := apart
    obtain rfl | hp := List.mem_cons.mp hp
    · exact decodePages_cons_of_matches hm qs
    · cases hq : q.matches w with
      | true => cases (Page.not_matches_of_apart (first p hp) hq).symm.trans hm
      | false => rw [decodePages_cons_of_not_matches hq, ih rest hp]

theorem InsnPages.pages_apart {ps : InsnPages} (h : ps.wellFormed = true) : pagesApart ps.pages = true := by
  simp only [InsnPages.wellFormed, Bool.and_eq_true] at h
  obtain ⟨⟨-, apart⟩, -⟩ := h
  exact apart

/-- Under well-formed pages the layout of `EXTI` is lawful, and every other page fixes an identifying bit of `EXTI` to the
opposite value. -/
theorem InsnPages.exti_spec {ps : InsnPages} (h : ps.wellFormed = true) {l : ExtiLayout} (hl : ps.exti = some l) :
    l.Lawful ∧ ∀ p ∈ ps.pages, ∃ k < 16, k ∉ l.immBits ∧ p.mask.getLsbD k = true ∧
      p.value.getLsbD k ≠ l.opcode.getLsbD k := by
  simp only [InsnPages.wellFormed, hl, Bool.and_eq_true, List.all_eq_true, List.any_eq_true, List.mem_range,
    Bool.not_eq_true', List.contains_eq_mem, decide_eq_false_iff_not, bne_iff_ne, and_assoc] at h
  obtain ⟨-, -, layout, bits⟩ := h
  exact ⟨ExtiLayout.lawful_of_wellFormed layout, bits⟩

/-- A word of another page is no `EXTI`. -/
theorem InsnPages.exti_not_matches {ps : InsnPages} (h : ps.wellFormed = true) {p : Page} (hp : p ∈ ps.pages) {w : Word}
    (hm : p.matches w = true) {l : ExtiLayout} (hl : ps.exti = some l) : l.matches w = false := by
  obtain ⟨lawful, bits⟩ := InsnPages.exti_spec h hl
  obtain ⟨k, hk, place, fixed, differ⟩ := bits p hp
  rw [Page.matches, decide_eq_true_eq] at hm
  have bit : p.value.getLsbD k = w.getLsbD k := by rw [← hm, BitVec.getLsbD_and, fixed, Bool.and_true]
  rw [← Bool.not_eq_true]
  exact fun he => differ (bit.trans (lawful.matches_iff.mp he k hk place))

/-- Under well-formed pages a word that a page matches is that page's, whatever the other pages are. -/
theorem decode_of_matches {ps : InsnPages} (h : ps.wellFormed = true) {p : Page} (hp : p ∈ ps.pages) {w : Word}
    (hm : p.matches w = true) : decode ps w = p.decoded w := by
  obtain ⟨l, hl, he, -⟩ | ⟨-, hd⟩ := decode_exti_or_pages ps w
  · cases (InsnPages.exti_not_matches h hp hm hl).symm.trans he
  · rw [hd, decodePages_of_matches (InsnPages.pages_apart h) hp hm]

/-- Under well-formed pages the word of an immediate is an `EXTI` of that immediate. -/
theorem decode_exti_encode {ps : InsnPages} (h : ps.wellFormed = true) {l : ExtiLayout} (hl : ps.exti = some l)
    (v : BitVec 13) : decode ps (l.encode v) = .instr (.exti v) := by
  obtain ⟨lawful, -⟩ := InsnPages.exti_spec h hl
  rw [decode_of_exti hl, if_pos (lawful.matches_encode v), lawful.imm13_encode]

/-- What the pages other than that of `EXTI` give under a name carries its word. -/
theorem decodePages_eq_instr {ps : List Page} {w : Word} {i : Instr} (h : decodePages ps w = .instr i) :
    ∃ form ∈ windowForms, ∃ op, i = form w op := by
  induction ps with
  | nil => cases h
  | cons p ps ih =>
    cases hm : p.matches w with
    | false => exact ih ((decodePages_cons_of_not_matches hm ps).symm.trans h)
    | true =>
      rw [decodePages_cons_of_matches hm] at h
      obtain ⟨-, form, hform, hd⟩ | ⟨-, hd⟩ := p.decoded_cases w
      · exact ⟨form, hform, p.op, Decoded.instr.inj (h.symm.trans hd)⟩
      · cases hd.symm.trans h

/-- A window instruction carries its word (41_window.md R106 to R109). -/
theorem encode_windowForm {form : Word → Operation → Instr} (h : form ∈ windowForms) (ps : InsnPages) (w : Word)
    (op : Operation) : encode ps (form w op) = some w := by
  simp only [windowForms, List.mem_cons, List.not_mem_nil, or_false] at h
  obtain rfl | rfl | rfl | rfl := h <;> rfl

end Sys2Proof

namespace Sys2Proof.Machine

/-! ### Short immediates -/

/-- With `has_ext13` 0 an immediate of a table is an entry of that table (30_encoding.md R74, R75). -/
theorem immediate_table_short {s : State} (h : s.hasExt13 = 0#1) (t : ImmTable) (op : BitVec 3) :
    immediate (.table t) (.known op) s = decodeImm t (.known op) s := by
  rw [immediate, if_neg (by rw [h]; decide), Val.resize_self]

theorem immediate_sext_short {s : State} (h : s.hasExt13 = 0#1) {n : Nat} (field : BitVec n) :
    immediate .sext (.known field) s = .next (.known (signExtend16 field)) :=
  if_neg (by rw [h]; decide)

theorem decodeImm_al_entry {s : State} {op : BitVec 3} {v : Word} (h : decodeImmAl s.params.immAl3 op = some v) :
    decodeImm .al (.known op) s = .next (.known v) := by
  simp only [decodeImm, h]

/-- An entry that the table lacks is refused (decision D7). -/
theorem decodeImm_al_absent {s : State} {op : BitVec 3} (h : decodeImmAl s.params.immAl3 op = none) :
    decodeImm .al (.known op) s = .refused .immAl3Absent := by
  simp only [decodeImm, h]

end Sys2Proof.Machine

namespace Sys2Proof.Proofs

open Sys2Proof Sys2Proof.Machine Sys2Proof.Claims

/-- Settles O26: the word of an immediate matches the layout and holds the immediate; the word of a window instruction belongs
to one page, that of its family. -/
theorem decodeOfEncodeIsTheInstruction : Obligations.DecodeOfEncodeIsTheInstruction := by
  intro ps i hps held
  cases i with
  | exti v =>
    obtain ⟨l, hl⟩ := Option.ne_none_iff_exists'.mp held
    exact ⟨l.encode v, by rw [encode, hl, Option.map_some], decode_exti_encode hps hl v⟩
  | adjw w _ | ldw w _ | stw w _ | xchw w _ =>
    obtain ⟨p, hp, family, rfl, hm⟩ := held
    exact ⟨w, rfl, by rw [decode_of_matches hps hp hm, Page.decoded, family]⟩

/-- Settles O27: an `EXTI` word is made of its identifying bits and its immediate; a window instruction carries its word. -/
theorem encodeOfDecodeIsTheWord : Obligations.EncodeOfDecodeIsTheWord := by
  intro ps w i hps h
  obtain ⟨l, hl, he, hd⟩ | ⟨-, hd⟩ := decode_exti_or_pages ps w
  · obtain rfl := Decoded.instr.inj (hd.symm.trans h)
    obtain ⟨lawful, -⟩ := InsnPages.exti_spec hps hl
    rw [encode, hl, Option.map_some, lawful.encode_imm13 he]
  · obtain ⟨form, hform, op, rfl⟩ := decodePages_eq_instr (hd.symm.trans h)
    exact encode_windowForm hform ps w op

/-- Settles O28: `encode` and `imm13` pair the words with the immediates. -/
theorem extiOccupiesOneEighthOfTheEncodings : Obligations.ExtiOccupiesOneEighthOfTheEncodings :=
  fun _ h => (ExtiLayout.lawful_of_wellFormed h).card_matches

/-- Settles O17: an `EXTI` is no undefined encoding, and what the page of `EXTI` leaves is one where no other page matches. -/
theorem undefinedEncodingsAreTheWordsWithoutAPage : Obligations.UndefinedEncodingsAreTheWordsWithoutAPage := by
  intro ps w
  obtain ⟨l, hl, he, hd⟩ | ⟨leaves, hd⟩ := decode_exti_or_pages ps w
  · rw [hd]
    exact iff_of_false nofun fun ⟨_, leaves⟩ => by cases (leaves l hl).symm.trans he
  · rw [hd, decodePages_eq_undefinedEncoding, and_iff_left leaves]

/-- Settles O30: the decoder evaluated on each of the five words. -/
theorem extiWordsOfASampleLayout : Obligations.ExtiWordsOfASampleLayout := by
  refine ⟨?_, ?_, ?_, ?_, ?_⟩ <;> decide

/-- Settles O32: each row of the tables, entry 3 in both its cases, and the field sign-extended. -/
theorem shortImmediatesAreTableEntries : Obligations.ShortImmediatesAreTableEntries := by
  intro s h
  have entry {op : BitVec 3} {v : Word} (hv : decodeImmAl s.params.immAl3 op = some v) :
      immediate (.table .al) (.known op) s = .next (.known v) :=
    (immediate_table_short h .al op).trans (decodeImm_al_entry hv)
  have absent (none : s.params.immAl3 = none) : immediate (.table .al) (.known 3#3) s = .refused .immAl3Absent :=
    (immediate_table_short h .al 3#3).trans (decodeImm_al_absent none)
  exact ⟨immediate_table_short h .sr, entry rfl, entry rfl, entry rfl, fun _ supplied => entry supplied, absent, entry rfl,
    entry rfl, entry rfl, entry rfl, fun _ => immediate_sext_short h⟩

end Sys2Proof.Proofs
end

section
/-!
PROOFS of the statements of 40_alu_families.md: what every ALU page does while `W` is known, how the instruction of a lawful
page stops, the flags of a logical result, and the addition of two registers.
-/

namespace Sys2Proof

open Sys2Proof.Claims

/-! ### The operation of an ALU page -/

/-- Once the choices on `has_ext13` are settled there is nothing left to settle. -/
theorem Operation.under_under (h : BitVec 1) (op : Operation) : (op.under h).under h = op.under h := by
  induction op with
  | seq a b iha ihb => simp only [Operation.under, iha, ihb]
  | ite c t f iht ihf =>
    cases hc : c.valueUnder h with
    | none => simp only [Operation.under, hc, iht, ihf]
    | some v =>
      simp only [Operation.under, hc]
      split
      · exact iht
      · exact ihf
  | _ => rfl

/-- Whether `has_ext13` is 0 or 1, every part of a lawful ALU operation has the operands and the destination that such an
operation can have (40_alu_families.md R91, R97). -/
theorem Operation.aluPart_of_lawfulFor {op : Operation} {f : Family} (hf : f ∈ aluFamilies) (h : op.lawfulFor f = true)
    (has : BitVec 1) : (op.under has).any (fun o => !o.aluPart) = false := by
  have alu : ∀ t ending, op.aluFamilyLawful t ending = true → (op.under has).any (fun o => !o.aluPart) = false := by
    intro t ending k
    simp only [Operation.aluFamilyLawful, Bool.and_eq_true] at k
    obtain ⟨-, both⟩ := k
    have lawful := Operation.underBoth_under both has
    simp only [Operation.aluLawful, Bool.and_eq_true, Bool.not_eq_true'] at lawful
    obtain ⟨⟨⟨⟨⟨-, parts⟩, -⟩, -⟩, -⟩, -⟩ := lawful
    exact parts
  cases f with
  | arithmetic | logical | shiftRotate => exact alu _ _ h
  | _ => exact absurd hf (by decide)

/-- Every register that a lawful operation names, it names by a field of three bits (10_state.md R26). -/
theorem Operation.registerFields_of_lawfulFor {op : Operation} {f : Family} (h : op.lawfulFor f = true) (has : BitVec 1) :
    (op.under has).registerFields.all isField3 = true := by
  have interchangeable := Operation.registersInterchangeable_of_lawfulFor h has
  simp only [Operation.registersInterchangeable, Bool.and_eq_true] at interchangeable
  obtain ⟨⟨fields, -⟩, -⟩ := interchangeable
  exact fields

/-- No part of an ALU operation assigns `PC` (40_alu_families.md R97). -/
theorem Operation.assignsPc_of_aluPart {op : Operation} (h : op.any (fun o => !o.aluPart) = false) :
    op.assignsPc = false := by
  refine Operation.any_of_imp (fun o ho => ?_) h
  split at ho
  · rfl
  · cases ho

/-- What the operation of an ALU page is, whether `has_ext13` is 0 or 1. -/
theorem Page.aluOperation {p : Page} (hp : p.wellFormed = true) (hf : p.family ∈ aluFamilies) (has : BitVec 1) :
    (p.op.under has).any (fun o => !o.aluPart) = false ∧ (p.op.under has).registerFields.all isField3 = true ∧
      (p.op.under has).assignsPc = false := by
  obtain ⟨-, lawful, -⟩ := p.wellFormed_iff.mp hp
  have parts := Operation.aluPart_of_lawfulFor hf lawful has
  exact ⟨parts, Operation.registerFields_of_lawfulFor lawful has, Operation.assignsPc_of_aluPart parts⟩

/-- `decode_imm_al` is for the immediates of arithmetic and logical instructions alone (00_scope.md R13). -/
theorem Operation.family_of_usesTable_al {op : Operation} {f : Family} (h : op.lawfulFor f = true)
    (uses : op.usesTable .al = true) : f = .arithmetic ∨ f = .logical := by
  have other : op.otherLawful = false := by simp [Operation.otherLawful, uses]
  have shift : ∀ ending, op.aluFamilyLawful .sr ending = false := by
    simp [Operation.aluFamilyLawful, ImmTable.other, uses]
  cases f with
  | arithmetic => exact .inl rfl
  | logical => exact .inr rfl
  | shiftRotate => exact absurd h (by simp [Operation.lawfulFor, shift])
  | adjw | ldw | stw | xchw => exact absurd h (by simp [Operation.lawfulFor, Operation.windowLawful, other])
  | conditionalJump | other => exact absurd h (by simp [Operation.lawfulFor, other])

end Sys2Proof

namespace Sys2Proof.Machine

open Sys2Proof.Claims

/-! ### The instruction of an ALU page -/

/-- An instruction whose operation, with `has_ext13` as it is, does not assign `PC` performs that operation on the state as
it stands, then retires. -/
theorem runOperation_of_assignsPc_under {insn : Word} {op : Operation} {s t : State}
    (h : (op.under s.hasExt13).assignsPc = false) :
    runOperation insn op s = .next t ↔
      ∃ q, perform insn (op.under s.hasExt13) (Progress.start s) = .next q ∧ t = retired q.state := by
  have settled : performInstruction insn op s = performInstruction insn (op.under s.hasExt13) s := by
    simp only [performInstruction, Operation.under_under]
  have unassigned : ∀ q, perform insn (op.under s.hasExt13) (Progress.start s) = .next q → q.pcAssigned = false :=
    fun q hq => ((perform_frame hq).pc h).1
  rw [runOperation_eq_next]
  refine exists_congr fun q => ?_
  rw [settled, performInstruction_of_assignsPc h, Operation.under_under]
  refine and_congr_right fun hq => ?_
  rw [unassigned q hq, retire_default_eq_retired]

/-- The instruction of an ALU page performs its operation, which does not assign `PC`, then retires. -/
theorem execUnnamed_alu_eq_next {insn : Word} {p : Page} (hp : p.wellFormed = true) (hf : p.family ∈ aluFamilies)
    {s t : State} :
    execUnnamed insn p s = .next t ↔
      ∃ q, perform insn (p.op.under s.hasExt13) (Progress.start s) = .next q ∧ t = retired q.state := by
  obtain ⟨-, -, noPc⟩ := Page.aluOperation hp hf s.hasExt13
  exact runOperation_of_assignsPc_under noPc

/-- What performing the operation of an ALU page can do. -/
theorem perform_aluPage {insn : Word} {p : Page} (hp : p.wellFormed = true) (hf : p.family ∈ aluFamilies) {s : State}
    {w₀ : Word} (hw : s.w = .known w₀) {q : Progress}
    (h : perform insn (p.op.under s.hasExt13) (Progress.start s) = .next q) :
    AluFrame insn (p.op.under s.hasExt13) (Progress.start s) q := by
  obtain ⟨parts, fields, -⟩ := Page.aluOperation hp hf s.hasExt13
  exact perform_alu hw parts fields h

/-! ### States with more UNDEFINED in them -/

/-- The relation of the statements, between states with canonical memories. -/
theorem stateBlurs_iff {s s' : State} :
    StateBlurs s s' ↔ Blurs s s' ∧ s.mem.wf = true ∧ s'.mem.wf = true :=
  ⟨fun h => ⟨⟨h.same, h.flag, h.word⟩, h.wf, h.wf'⟩,
    fun ⟨⟨same, flag, word⟩, wf, wf'⟩ => ⟨same, flag, word, wf, wf'⟩⟩

/-- An instruction begins in a state with more UNDEFINED in it as it does in the state. -/
theorem StateBlurs.start {s s' : State} (h : StateBlurs s s') : ProgBlurs (Progress.start s) (Progress.start s') :=
  ⟨h, fun _ _ => .inl rfl, rfl⟩

theorem retired_flag (s : State) (f : Flag) : (retired s).flag f = s.flag f := by
  cases f <;> rfl

/-- Retiring advances `PC` alike and changes no flag and no word. -/
theorem blurs_retired {s s' : State} (h : Blurs s s') : Blurs (retired s) (retired s') := by
  obtain ⟨same, flag, word⟩ := h
  refine ⟨?_, fun f => ?_, word⟩
  · rw [same]; rfl
  · rw [retired_flag, retired_flag]; exact flag f

/-! ### Operands, sums and flags -/

/-- The second of two parts in sequence is performed where the first has gone on to. -/
theorem perform_seq {insn : Word} {a : Operation} {p q : Progress} (h : perform insn a p = .next q) (b : Operation) :
    perform insn (.seq a b) p = perform insn b q := by
  rw [perform, h, andThen_next]

/-- An operator is applied to the values of its operands, the left one evaluated first (log 11). -/
theorem eval_bin {insn : Word} {ts : Temporaries} (o : BinOp) {a b : Expr} {s s₁ s₂ : State} {x : Val a.len}
    {y : Val b.len} (ha : eval insn ts a s = .next (x, s₁)) (hb : eval insn ts b s₁ = .next (y, s₂)) :
    eval insn ts (.bin o a b) s = .next (o.apply x y, s₂) := by
  rw [eval, ha, andThen_next, hb]
  rfl

/-- The four flags are set from the values of the operands, evaluated from left to right (40_alu_families.md R93). -/
theorem perform_arithmeticFlags {insn : Word} {a b c : Expr} {p : Progress} {s₁ s₂ s₃ : State} {x : Val a.len}
    {y : Val b.len} {z : Val c.len} (ha : eval insn p.temps a p.state = .next (x, s₁))
    (hb : eval insn p.temps b s₁ = .next (y, s₂)) (hc : eval insn p.temps c s₂ = .next (z, s₃)) :
    perform insn (.arithmeticFlags a b c) p =
      .next (p.withFlags s₃ (arithmeticFlags (x.resize 16) (y.resize 16) (z.resize 1))) := by
  rw [perform, ha, andThen_next, hb, andThen_next, hc]
  rfl

/-- Setting the flags of a known logical result changes nothing else. -/
theorem perform_logicalFlags_const (insn r : Word) (s : State) :
    perform insn (.logicalFlags (.const 16 r)) (Progress.start s) =
      .next (Progress.start (s.setFlags (logicalFlags (.known r)))) := by
  rw [← Val.resize_self (.known r)]
  rfl

/-! ### Registers named by a field -/

theorem extractLsb_setWidth_three (insn : Word) (lo : Nat) :
    (insn.extractLsb (lo + 2) lo).setWidth 3 = insn.extractLsb' lo 3 := by
  ext i hi
  have inside : i ≤ 2 := by omega
  simp [BitVec.getElem_extractLsb', inside]

/-- Where there is memory, reading the register that a field names gives its word and changes nothing. -/
theorem eval_loadReg_field3 (insn : Word) (lo : Nat) {ts : Temporaries} {s : State} {w₀ : Word} (hw : s.w = .known w₀)
    (memory : s.params.unpopulated = []) :
    eval insn ts (.load .reg (field3 lo)) s = .next (s.reg (insn.extractLsb' lo 3), s) := by
  have load : eval insn ts (.load .reg (field3 lo)) s = loadFrom .reg (.known (insn.extractLsb (lo + 2) lo)) s := rfl
  rw [load, loadFrom_reg hw, extractLsb_setWidth_three, reg_of_known hw]
  exact if_pos (populated_of_unpopulated_nil memory _)

/-- Where there is memory, a value stored to the register that a field names is written to the register's word. -/
theorem perform_storeReg_field3 {insn : Word} {lo : Nat} {e : Expr} {p : Progress} {v : Val e.len} {w₀ : Word}
    (he : eval insn p.temps e p.state = .next (v, p.state)) (hw : p.state.w = .known w₀)
    (memory : p.state.params.unpopulated = []) :
    perform insn (.assign (.store .reg (field3 lo)) e) p = .next { p with
      state := p.state.setMem (p.state.mem.write (w₀ + (insn.extractLsb' lo 3).setWidth 16).toNat (v.resize 16))
      stored := p.stored ++ [w₀ + (insn.extractLsb' lo 3).setWidth 16] } := by
  have store : perform insn (.assign (.store .reg (field3 lo)) e) p =
      p.storeMem (p.state.regAddr (.known ((insn.extractLsb (lo + 2) lo).setWidth 3))) (v.resize 16) := by
    rw [perform, he]
    rfl
  rw [store, extractLsb_setWidth_three, regAddr_of_known hw]
  exact storeMem_eq_next.mpr ⟨populated_of_unpopulated_nil memory _, rfl⟩

/-! ### The addition of two registers -/

/-- The whole next state of the addition, whatever its operands are: flags from the operands, and the sum brought to 16 bits
written to the destination (40_alu_families.md R91 to R93). -/
theorem runOperation_additionOp {insn : Word} {s : State} {w₀ : Word} {d a b : BitVec 3} (hd : d = insn.extractLsb' 9 3)
    (ha : a = insn.extractLsb' 6 3) (hb : b = insn.extractLsb' 3 3) (hw : s.w = .known w₀)
    (memory : s.params.unpopulated = []) :
    runOperation insn additionOp s = .next (retired
      ((s.setFlags (arithmeticFlags (s.reg a) (s.reg b) (.known 0#1))).setMem
        (s.mem.write (w₀ + d.setWidth 16).toNat ((BinOp.add.apply (s.reg a) (s.reg b)).resize 16)))) := by
  subst hd ha hb
  have read (lo : Nat) (f : FlagValues) := eval_loadReg_field3 insn lo (ts := []) (s := s.setFlags f) hw memory
  have flags : perform insn (.arithmeticFlags (.load .reg (field3 6)) (.load .reg (field3 3)) (.const 1 0#1))
      (Progress.start s) = .next ((Progress.start s).withFlags s
        (arithmeticFlags (s.reg (insn.extractLsb' 6 3)) (s.reg (insn.extractLsb' 3 3)) (.known 0#1))) := by
    rw [← Val.resize_self (s.reg (insn.extractLsb' 6 3)), ← Val.resize_self (s.reg (insn.extractLsb' 3 3))]
    exact perform_arithmeticFlags (p := Progress.start s) (c := .const 1 0#1) (z := .known 0#1)
      (eval_loadReg_field3 insn 6 hw memory) (eval_loadReg_field3 insn 3 hw memory) rfl
  have store (f : FlagValues) := perform_storeReg_field3 (lo := 9) (p := (Progress.start s).withFlags s f)
    (eval_bin .add (read 6 f) (read 3 f)) hw memory
  exact (runOperation_of_assignsPc_under rfl).mpr ⟨_, (perform_seq flags _).trans (store _), rfl⟩

theorem retired_setMem_reg {s : State} {w₀ : Word} (hw : s.w = .known w₀) (m : Memory) (n : BitVec 3) :
    (retired (s.setMem m)).reg n = m.read (w₀ + n.setWidth 16).toNat :=
  reg_of_known (s := retired (s.setMem m)) hw n

/-- An instruction that writes one word leaves every other word as it was. -/
theorem retired_write_word_other (s : State) {a c : Word} (v : Val 16) (h : c ≠ a) :
    (retired (s.setMem (s.mem.write a.toNat v))).word c = s.word c :=
  Memory.read_write_other s.mem v fun e => h (BitVec.eq_of_toNat_eq e)

/-- A sum brought to 16 bits is the sum modulo 2^16 (40_alu_families.md R92). -/
theorem add_apply_known_resize (x y : Word) :
    (BinOp.add.apply (.known x) (.known y)).resize 16 = .known (x + y) := by
  apply congrArg Val.known
  apply BitVec.eq_of_toNat_eq
  calc ((addWithCarryBit x y).setWidth 16).toNat
      = (addWithCarryBit x y).toNat % 2 ^ 16 := BitVec.toNat_setWidth ..
    _ = (x.toNat + y.toNat) % 2 ^ 16 := by rw [addWithCarryBit_toNat]
    _ = (x + y).toNat := (BitVec.toNat_add ..).symm

end Sys2Proof.Machine

namespace Sys2Proof.Proofs

open Sys2Proof Sys2Proof.Machine Sys2Proof.Claims

/-- Settles O43: the same operation performed on the state with more UNDEFINED in it, by the simulation of `perform_alu`. -/
theorem undefinedOperandsOnlyMakeAluResultsUndefined : Obligations.UndefinedOperandsOnlyMakeAluResultsUndefined := by
  intro insn p s s' t w₀ hp hf hw wf wf' blurs h
  obtain ⟨q, hq, rfl⟩ := (execUnnamed_alu_eq_next hp hf).mp h
  have begins : StateBlurs s s' := stateBlurs_iff.mpr ⟨blurs, wf, wf'⟩
  obtain ⟨q', hq', ends⟩ := (perform_aluPage hp hf hw hq).blurs _ begins.start
  obtain ⟨ends, -⟩ := stateBlurs_iff.mp ends.state
  rw [← begins.hasExt13] at hq'
  exact ⟨_, (execUnnamed_alu_eq_next hp hf).mpr ⟨q', hq', rfl⟩, blurs_retired ends⟩

/-- Settles O24: the answers that performing any operation can give, and the families that may use the table. -/
theorem lawfulPagesGoOnOrStopForAReason : Obligations.LawfulPagesGoOnOrStopForAReason := by
  intro insn p s hp
  obtain ⟨-, lawful, -⟩ := p.wellFormed_iff.mp hp
  have answers := runOperation_answers insn p.op s
  rw [anyExpr_decodesAl] at answers
  unfold execUnnamed
  generalize runOperation insn p.op s = answer at answers ⊢
  cases answers with
  | goesOn t => exact .inl ⟨t, rfl⟩
  | isStuck a noMemory => exact .inr (.inl ⟨a, rfl, noMemory⟩)
  | needsEntry absent uses => exact .inr (.inr ⟨rfl, absent, Operation.family_of_usesTable_al lawful uses⟩)

/-- Settles O44: what performing the operation of the page can do, and the retiring. -/
theorem aluInstructionsDrawNothing : Obligations.AluInstructionsDrawNothing := by
  intro insn p s t w₀ hp hf hw h
  obtain ⟨q, hq, rfl⟩ := (execUnnamed_alu_eq_next hp hf).mp h
  have F := perform_aluPage hp hf hw hq
  obtain ⟨-, -, noPc⟩ := Page.aluOperation hp hf s.hasExt13
  exact ⟨F.draws, F.log, F.w.trans hw, congrArg advanced ((perform_frame hq).pc noPc).2, rfl⟩

/-- Settles O45: the next state of the addition, with both operands known. -/
theorem additionOfRegisters : Obligations.AdditionOfRegisters := by
  intro insn s w₀ x y d a b hd ha hb hw memory hx hy
  have run := runOperation_additionOp hd ha hb hw memory
  rw [hx, hy, add_apply_known_resize] at run
  refine ⟨_, run, ?_, flagsOfSum_arithmeticFlags x y 0#1, fun c hc => retired_write_word_other (s.setFlags _) _ hc, rfl⟩
  rw [retired_setMem_reg (s := s.setFlags _) hw]
  exact Memory.read_insert_same _ _ _

/-- Settles O46: the same next state, with one operand UNDEFINED. -/
theorem additionOfAnUndefinedRegister : Obligations.AdditionOfAnUndefinedRegister := by
  intro insn s w₀ d a b hd ha hb hw wf memory undef
  have run := runOperation_additionOp hd ha hb hw memory
  rw [BinOp.apply_undefined .add undef, arithmeticFlags_undefined (undef.imp_right .inl), Val.resize_undefined] at run
  refine ⟨_, run, ?_, fun c hc => retired_write_word_other (s.setFlags _) _ hc, rfl⟩
  rw [retired_setMem_reg (s := s.setFlags _) hw]
  exact Memory.read_write_same _ _ wf

/-- Settles O39: the operation sets the flags of a known word and nothing else, and the instruction retires. -/
theorem logicalFlagsLeaveCarryAndOverflowUndefined : Obligations.LogicalFlagsLeaveCarryAndOverflowUndefined := by
  intro insn r s
  have flags : logicalFlags (.known r) =
      { z := .known (BitVec.ofBool (decide (r.toNat = 0))), s := .known (BitVec.ofBool (decide (32768 ≤ r.toNat)))
        c := .undefined, v := .undefined } := by
    rw [logicalFlags, Val.map, Val.map, zeroFlag_eq, Nat.mod_eq_of_lt r.isLt, signFlag, getLsbD_15_eq_decide]
  refine (runOperation_of_assignsPc_under rfl).mpr ⟨_, perform_logicalFlags_const insn r s, ?_⟩
  rw [flags]
  rfl

end Sys2Proof.Proofs
end

section
/-!
PROOFS of the statements of 41_window.md: what the four window instructions do with any lawful page, `W` set and read by
them, and operations that do not depend on `W`.
-/

namespace Sys2Proof

/-! ### Operations that leave out a kind of operand and a kind of part -/

/-- An explicit read of `W`, and an assignment to it (10_state.md R28). -/
def isReadW (e : Expr) : Bool :=
  decide (e = .read .w)

def isAssignW : Operation → Bool
  | .assign .w _ => true
  | _ => false

/-- A read of a register, and an assignment to one. -/
def isLoadReg : Expr → Bool
  | .load .reg _ => true
  | _ => false

def isStoreReg : Operation → Bool
  | .assign (.store .reg _) _ => true
  | _ => false

/-- A read of a word of `ext`, and an assignment to one. -/
def isLoadExt : Expr → Bool
  | .load .ext _ => true
  | _ => false

def isStoreExt : Operation → Bool
  | .assign (.store .ext _) _ => true
  | _ => false

namespace Operation

/-- No expression of the kind `p` stands in the operation, and no part of it is of the kind `q`. -/
def Avoids (p : Expr → Bool) (q : Operation → Bool) (op : Operation) : Prop :=
  op.anyExpr p = false ∧ op.any q = false

theorem namesW_eq_false {op : Operation} : op.namesW = false ↔ op.Avoids isReadW isAssignW :=
  Bool.or_eq_false_iff

theorem usesRegisters_eq_false {op : Operation} : op.usesRegisters = false ↔ op.Avoids isLoadReg isStoreReg :=
  Bool.or_eq_false_iff

theorem usesBus_eq_false {op : Operation} : op.usesBus = false ↔ op.Avoids isLoadExt isStoreExt :=
  Bool.or_eq_false_iff

section Avoids

variable {p : Expr → Bool} {q : Operation → Bool}

theorem Avoids.assign {pl : Place} {e : Expr} (h : (Operation.assign pl e).Avoids p q) :
    pl.any p = false ∧ e.any p = false ∧ q (.assign pl e) = false := by
  obtain ⟨exprs, part⟩ := h
  obtain ⟨target, value⟩ := Bool.or_eq_false_iff.mp exprs
  exact ⟨target, value, part⟩

theorem Avoids.seq {a b : Operation} (h : (Operation.seq a b).Avoids p q) : a.Avoids p q ∧ b.Avoids p q := by
  simp only [Avoids, anyExpr, any, Bool.or_eq_false_iff] at h
  obtain ⟨⟨⟨-, exprsA⟩, exprsB⟩, ⟨-, partsA⟩, partsB⟩ := h
  exact ⟨⟨exprsA, partsA⟩, exprsB, partsB⟩

theorem Avoids.ite {c : Expr} {a b : Operation} (h : (Operation.ite c a b).Avoids p q) :
    c.any p = false ∧ a.Avoids p q ∧ b.Avoids p q := by
  simp only [Avoids, anyExpr, any, Bool.or_eq_false_iff] at h
  obtain ⟨⟨⟨condition, exprsA⟩, exprsB⟩, ⟨-, partsA⟩, partsB⟩ := h
  exact ⟨condition, ⟨exprsA, partsA⟩, exprsB, partsB⟩

theorem Avoids.arithmeticFlags {a b c : Expr} (h : (Operation.arithmeticFlags a b c).Avoids p q) :
    a.any p = false ∧ b.any p = false ∧ c.any p = false := by
  simp only [Avoids, anyExpr, any, ownExpr, Bool.or_eq_false_iff, and_assoc] at h
  obtain ⟨ha, hb, hc, -⟩ := h
  exact ⟨ha, hb, hc⟩

theorem Avoids.logicalFlags {r : Expr} (h : (Operation.logicalFlags r).Avoids p q) : r.any p = false := by
  obtain ⟨expr, -⟩ := h
  exact expr

/-- What an operation leaves out, what is left of it under a value of `has_ext13` leaves out too. -/
theorem Avoids.under {op : Operation} (h : op.Avoids p q) (hs : ∀ a b, q (.seq a b) = false)
    (hi : ∀ c a b, q (.ite c a b) = false) (has : BitVec 1) : (op.under has).Avoids p q := by
  obtain ⟨exprs, parts⟩ := h
  exact ⟨anyExpr_under has exprs, any_under hs (fun _ _ _ _ _ _ => hi _ _ _) has parts⟩

end Avoids

end Operation

/-- No window instruction decodes an immediate through `decode_imm_al` (00_scope.md R13). -/
theorem Operation.usesTable_al_of_windowLawful {op : Operation} (h : op.windowLawful = true) :
    op.usesTable .al = false := by
  simp only [Operation.windowLawful, Operation.otherLawful, Bool.and_eq_true, Bool.not_eq_true'] at h
  obtain ⟨⟨⟨-, noAl⟩, -⟩, -⟩ := h
  exact noAl

end Sys2Proof

namespace Sys2Proof.Machine

open Sys2Proof.Claims

/-! ### Operations that leave the bus alone -/

theorem memRead_extLog {addr : Val 16} {s : State} {r : Val 16 × State} (h : memRead addr s = .next r) :
    r.2.extLog = s.extLog := by
  rw [memRead_eq] at h
  split at h
  · obtain rfl := Host.Outcome.next.inj h
    exact State.afterForce_extLog s addr
  · cases h

/-- An expression that reads no word of `ext` records nothing. -/
theorem eval_extLog {insn : Word} {ts : Temporaries} {e : Expr} {s : State} {r : Val e.len × State}
    (he : e.any isLoadExt = false) (h : eval insn ts e s = .next r) : r.2.extLog = s.extLog := by
  induction e generalizing s with
  | const | undef | read | temp => obtain rfl := Host.Outcome.next.inj h; rfl
  | un o a iha =>
    obtain ⟨-, ha⟩ := Bool.or_eq_false_iff.mp he
    obtain ⟨q, hq, h⟩ := andThen_eq_next.mp h
    obtain rfl := Host.Outcome.next.inj h
    exact iha ha hq
  | bin o a b iha ihb =>
    obtain ⟨ha, hb⟩ := Bool.or_eq_false_iff.mp he
    obtain ⟨-, ha⟩ := Bool.or_eq_false_iff.mp ha
    obtain ⟨q, hq, h⟩ := andThen_eq_next.mp h
    obtain ⟨p, hp, h⟩ := andThen_eq_next.mp h
    obtain rfl := Host.Outcome.next.inj h
    exact (ihb hb hp).trans (iha ha hq)
  | load sp a iha =>
    obtain ⟨hsp, ha⟩ := Bool.or_eq_false_iff.mp he
    obtain ⟨q, hq, h⟩ := andThen_eq_next.mp h
    refine Eq.trans ?_ (iha ha hq)
    cases sp with
    | mem | reg => exact memRead_extLog h
    | ext => cases hsp
  | decodeImm t a iha | imm k a iha =>
    obtain ⟨-, ha⟩ := Bool.or_eq_false_iff.mp he
    obtain ⟨q, hq, h⟩ := andThen_eq_next.mp h
    obtain ⟨v, -, h⟩ := andThen_eq_next.mp h
    obtain rfl := Host.Outcome.next.inj h
    exact iha ha hq

theorem storeMem_extLog {p q : Progress} {addr v : Val 16} (h : p.storeMem addr v = .next q) :
    q.state.extLog = p.state.extLog := by
  obtain ⟨-, rfl⟩ := storeMem_eq_next.mp h
  exact State.afterForce_extLog p.state addr

theorem assign_extLog {insn : Word} {p q : Progress} {pl : Place} {n : Nat} {v : Val n} {e : Expr}
    (hpl : pl.any isLoadExt = false) (hst : isStoreExt (.assign pl e) = false) (h : p.assign insn pl v = .next q) :
    q.state.extLog = p.state.extLog := by
  cases pl with
  | pc | w | temp => obtain rfl := Host.Outcome.next.inj h; rfl
  | flag f => obtain rfl := Host.Outcome.next.inj h; exact State.setFlag_extLog p.state f _
  | store sp a =>
    obtain ⟨r, hr, h⟩ := andThen_eq_next.mp h
    refine Eq.trans ?_ (eval_extLog hpl hr)
    cases sp with
    | mem | reg => exact storeMem_extLog h
    | ext => cases hst

/-- An operation that uses no word of `ext` records nothing. -/
theorem perform_extLog {insn : Word} {op : Operation} {p q : Progress} (hop : op.Avoids isLoadExt isStoreExt)
    (h : perform insn op p = .next q) : q.state.extLog = p.state.extLog := by
  induction op generalizing p q with
  | skip => obtain rfl := Host.Outcome.next.inj h; rfl
  | assign pl e =>
    obtain ⟨hpl, he, hst⟩ := hop.assign
    obtain ⟨r, hr, h⟩ := andThen_eq_next.mp h
    exact (assign_extLog hpl hst h).trans (eval_extLog he hr)
  | seq a b iha ihb =>
    obtain ⟨ha, hb⟩ := hop.seq
    obtain ⟨r, hr, h⟩ := andThen_eq_next.mp h
    exact (ihb hb h).trans (iha ha hr)
  | ite c a b iha ihb =>
    obtain ⟨hc, ha, hb⟩ := hop.ite
    obtain ⟨r, hr, h⟩ := andThen_eq_next.mp h
    have read := eval_extLog hc hr
    have drawn := (State.afterForce_extLog r.2 (r.1.resize 1)).trans read
    split at h
    · obtain rfl := Host.Outcome.next.inj h
      exact read
    split at h
    · exact (iha ha h).trans drawn
    · exact (ihb hb h).trans drawn
  | arithmeticFlags a b c =>
    obtain ⟨ha, hb, hc⟩ := hop.arithmeticFlags
    obtain ⟨x, hx, h⟩ := andThen_eq_next.mp h
    obtain ⟨y, hy, h⟩ := andThen_eq_next.mp h
    obtain ⟨z, hz, h⟩ := andThen_eq_next.mp h
    obtain rfl := Host.Outcome.next.inj h
    exact (eval_extLog hc hz).trans ((eval_extLog hb hy).trans (eval_extLog ha hx))
  | logicalFlags e =>
    obtain ⟨r, hr, h⟩ := andThen_eq_next.mp h
    obtain rfl := Host.Outcome.next.inj h
    exact eval_extLog hop.logicalFlags hr

/-- An operation begins in the state as it stands, but for flags that are drawn. -/
theorem begin_differs (insn : Word) (op : Operation) (s : State) :
    DiffersInFlags s (Progress.begin insn op s).state := by
  unfold Progress.begin
  split
  · exact drawFlags_differs s
  · rfl

theorem runOperation_extLog {insn : Word} {op : Operation} {s t : State} (hop : op.usesBus = false)
    (h : runOperation insn op s = .next t) : t.extLog = s.extLog := by
  obtain ⟨p, hp, rfl⟩ := runOperation_eq_next.mp h
  obtain ⟨q, hq, hp⟩ := andThen_eq_next.mp hp
  obtain rfl := Host.Outcome.next.inj hp
  calc (q.restore.state.retire q.restore.pcAssigned).extLog
      = q.restore.state.extLog := State.retire_extLog ..
    _ = q.state.extLog := (restore_differs q).extLog
    _ = (Progress.begin insn (op.under s.hasExt13) s).state.extLog :=
        perform_extLog ((Operation.usesBus_eq_false.mp hop).under (fun _ _ => rfl) (fun _ _ _ => rfl) _) hq
    _ = s.extLog := (begin_differs ..).extLog

/-! ### The four window instructions, with any lawful page -/

/-- A window instruction with a lawful page goes on, or is stuck where there is no memory. -/
theorem runOperation_of_windowLawful (insn : Word) {op : Operation} (s : State) (h : op.windowLawful = true) :
    (∃ t, runOperation insn op s = .next t) ∨
      ∃ a, runOperation insn op s = .fault (.stuck a) ∧ s.populated a = false := by
  have answers := runOperation_answers insn op s
  rw [anyExpr_decodesAl, Operation.usesTable_al_of_windowLawful h] at answers
  generalize runOperation insn op s = answer at answers ⊢
  cases answers with
  | goesOn t => exact .inl ⟨t, rfl⟩
  | isStuck a noMemory => exact .inr ⟨a, rfl, noMemory⟩
  | needsEntry _ uses => cases uses

/-- A register keeps its value where `W` and the register's word keep theirs. -/
theorem reg_congr {s t : State} {n : BitVec 3} {a : Word} (hw : t.w = s.w) (ha : s.regAddr (.known n) = .known a)
    (word : t.word a = s.word a) : t.reg n = s.reg n := by
  have same : t.regAddr (.known n) = s.regAddr (.known n) := by rw [State.regAddr, State.regAddr, hw]
  simp only [State.reg, same, ha, word]

/-! ### Setting `W`, and storing to a register -/

/-- What an instruction answers whose operation does not assign `PC`: what its operation does, then the retiring. -/
theorem runOperation_eq_of_assignsPc {insn : Word} {op : Operation} {s : State} (h : op.assignsPc = false) :
    runOperation insn op s =
      andThen (perform insn (op.under s.hasExt13) (Progress.start s)) fun q => .next (retired q.state) := by
  have noPc := Operation.assignsPc_under s.hasExt13 h
  cases run : perform insn (op.under s.hasExt13) (Progress.start s) with
  | next q => exact (runOperation_of_assignsPc_under noPc).mpr ⟨q, run, rfl⟩
  | fault e | refused e =>
    rw [runOperation, performInstruction, begin_of_flagsReachPc (Operation.flagsReachPc_of_assignsPc noPc), run]
    rfl

theorem perform_assign_w {insn : Word} {e : Expr} {p : Progress} {s₁ : State} {v : Val e.len} {u : Val 16}
    (he : eval insn p.temps e p.state = .next (v, s₁)) (hv : v.resize 16 = u) :
    perform insn (.assign .w e) p = .next { p with state := s₁.setW u } := by
  rw [perform, he, ← hv]
  rfl

/-- A value assigned to a register is stored at `W + n`, with `W` as it is after the operands (10_state.md R27). -/
theorem perform_storeReg {insn : Word} {a e : Expr} {p : Progress} {s₁ s₂ : State} {v : Val e.len} {x : Val a.len}
    {u : Val 16} {w₀ : Word} {n : BitVec 3} (he : eval insn p.temps e p.state = .next (v, s₁))
    (hv : v.resize 16 = u) (ha : eval insn p.temps a s₁ = .next (x, s₂)) (hn : x.resize 3 = .known n)
    (hw : s₂.w = .known w₀) :
    perform insn (.assign (.store .reg a) e) p =
      Progress.storeMem { p with state := s₂ } (.known (w₀ + n.setWidth 16)) u := by
  rw [perform, he, andThen_next, Progress.assign, ha, andThen_next, hn, hv, regAddr_of_known hw]

theorem storeMem_of_populated {p : Progress} {a : Word} (v : Val 16) (hp : p.state.populated a = true) :
    p.storeMem (.known a) v =
      .next { p with state := p.state.setMem (p.state.mem.write a.toNat v), stored := p.stored ++ [a] } :=
  storeMem_eq_next.mpr ⟨hp, rfl⟩

theorem storeMem_of_not_populated {p : Progress} {a : Word} (v : Val 16) (hp : p.state.populated a = false) :
    p.storeMem (.known a) v = .fault (.stuck a) := by
  rw [Progress.storeMem, memWrite_of_not_populated v (addr := .known a) hp]
  rfl

theorem perform_assign_w_const (insn w₁ : Word) (p : Progress) :
    perform insn (.assign .w (.const 16 w₁)) p = .next { p with state := p.state.setW (.known w₁) } :=
  perform_assign_w (e := .const 16 w₁) rfl (Val.resize_self _)

theorem perform_storeReg_word {insn x : Word} {n : BitVec 3} {p : Progress} {w : Word} (hw : p.state.w = .known w)
    (hp : p.state.populated (w + n.setWidth 16) = true) :
    perform insn (.assign (.store .reg (.const 3 n)) (.const 16 x)) p = .next { p with
      state := p.state.setMem (p.state.mem.write (w + n.setWidth 16).toNat (.known x))
      stored := p.stored ++ [w + n.setWidth 16] } :=
  (perform_storeReg (e := .const 16 x) (a := .const 3 n) rfl (Val.resize_self _) rfl (Val.resize_self _) hw).trans
    (storeMem_of_populated _ hp)

/-- An instruction that writes a known word leaves it at its address. -/
theorem retired_write_word_same (s : State) (a v : Word) :
    (retired (s.setMem (s.mem.write a.toNat (.known v)))).word a = .known v :=
  Memory.read_insert_same s.mem a.toNat v

theorem reg_of_undefined {s : State} (h : s.w = .undefined) (n : BitVec 3) : s.reg n = .undefined := by
  rw [State.reg, regAddr_of_undefined h]

/-- An instruction whose operation assigns no flag leaves all four. -/
theorem RunFrame.sameFlags {op : Operation} {s t : State} (h : RunFrame op s t)
    (hop : ∀ f, op.assignsFlag f = false) : SameFlags s t :=
  ⟨h.flag .z (hop .z), h.flag .s (hop .s), h.flag .c (hop .c), h.flag .v (hop .v)⟩

/-! ### Operations that do not depend on `W` -/

@[simp] theorem State.force_setW {n : Nat} (s : State) (w' : Val 16) (v : Val n) : (s.setW w').force v = s.force v := by
  cases v <;> rfl

theorem State.afterForce_setW {n : Nat} (s : State) (w' : Val 16) (v : Val n) :
    (s.setW w').afterForce v = (s.afterForce v).setW w' := by
  cases v <;> rfl

@[simp] theorem State.populated_setW (s : State) (w' : Val 16) (a : Word) :
    (s.setW w').populated a = s.populated a := rfl

@[simp] theorem State.flag_setW (s : State) (w' : Val 16) (f : Flag) : (s.setW w').flag f = s.flag f := by
  cases f <;> rfl

theorem State.setFlag_setW (s : State) (w' : Val 16) (f : Flag) (v : Val 1) :
    (s.setW w').setFlag f v = (s.setFlag f v).setW w' := by
  cases f <;> rfl

theorem State.drawFlags_setW (s : State) (w' : Val 16) : (s.setW w').drawFlags = s.drawFlags.setW w' := by
  have one : ∀ (s : State) (f : Flag), (s.setW w').drawFlag f = (s.drawFlag f).setW w' := by
    intro s f
    rw [State.drawFlag, State.flag_setW, State.force_setW, State.afterForce_setW, State.setFlag_setW, State.drawFlag]
  simp only [State.drawFlags, List.foldl_cons, List.foldl_nil, one]

theorem State.retire_setW (s : State) (w' : Val 16) (b : Bool) : (s.setW w').retire b = (s.retire b).setW w' := by
  cases b <;> rfl

theorem readSource_setW (insn : Word) (s : State) (w' : Val 16) {r : Source} (h : r ≠ .w) :
    readSource insn (s.setW w') r = readSource insn s r := by
  cases r with
  | w => exact absurd rfl h
  | flag f => exact State.flag_setW s w' f
  | _ => rfl

theorem memRead_setW {addr : Val 16} {s t : State} {v : Val 16} (w' : Val 16) (h : memRead addr s = .next (v, t)) :
    memRead addr (s.setW w') = .next (v, t.setW w') := by
  rw [memRead_eq] at h ⊢
  rw [State.force_setW, State.populated_setW, State.afterForce_setW]
  split at h
  · next hp =>
    obtain ⟨rfl, rfl⟩ := Prod.mk.inj (Host.Outcome.next.inj h)
    rw [if_pos hp]
    rfl
  · cases h

theorem extRead_setW (addr : Val 16) (s : State) (w' : Val 16) :
    extRead addr (s.setW w') = ((extRead addr s).1, (extRead addr s).2.setW w') := by
  cases addr <;> rfl

theorem extWrite_setW (addr v : Val 16) (s : State) (w' : Val 16) :
    extWrite addr v (s.setW w') = (extWrite addr v s).setW w' := by
  cases addr <;> cases v <;> rfl

theorem loadFrom_setW {sp : Space} {n : Nat} {a : Val n} {s : State} {r : Val 16 × State} (w' : Val 16)
    (hsp : sp ≠ .reg) (h : loadFrom sp a s = .next r) : loadFrom sp a (s.setW w') = .next (r.1, r.2.setW w') := by
  cases sp with
  | mem => exact memRead_setW w' h
  | ext =>
    obtain rfl := Host.Outcome.next.inj h
    exact congrArg _ (extRead_setW _ s w')
  | reg => exact absurd rfl hsp

/-- The expression neither reads `W` nor a register, whose address is made of `W`. -/
def NoWindow (e : Expr) : Prop :=
  e.any isReadW = false ∧ e.any isLoadReg = false

/-- An expression of which `W` is no part has the same value under another `W`. -/
theorem eval_setW {insn : Word} {ts : Temporaries} {e : Expr} {s : State} {r : Val e.len × State} (w' : Val 16)
    (he : NoWindow e) (h : eval insn ts e s = .next r) : eval insn ts e (s.setW w') = .next (r.1, r.2.setW w') := by
  obtain ⟨noW, noReg⟩ := he
  induction e generalizing s with
  | const | undef | temp => obtain rfl := Host.Outcome.next.inj h; rfl
  | read r =>
    obtain rfl := Host.Outcome.next.inj h
    have other : r ≠ .w := by rintro rfl; cases noW
    rw [eval, readSource_setW insn s w' other]
  | un o a iha =>
    obtain ⟨-, aW⟩ := Bool.or_eq_false_iff.mp noW
    obtain ⟨-, aReg⟩ := Bool.or_eq_false_iff.mp noReg
    obtain ⟨q, hq, h⟩ := andThen_eq_next.mp h
    obtain rfl := Host.Outcome.next.inj h
    rw [eval, iha hq aW aReg, andThen_next]
  | bin o a b iha ihb =>
    simp only [Expr.any, Bool.or_eq_false_iff] at noW noReg
    obtain ⟨⟨-, aW⟩, bW⟩ := noW
    obtain ⟨⟨-, aReg⟩, bReg⟩ := noReg
    obtain ⟨q, hq, h⟩ := andThen_eq_next.mp h
    obtain ⟨p, hp, h⟩ := andThen_eq_next.mp h
    obtain rfl := Host.Outcome.next.inj h
    rw [eval, iha hq aW aReg, andThen_next, ihb hp bW bReg, andThen_next]
  | load sp a iha =>
    obtain ⟨-, aW⟩ := Bool.or_eq_false_iff.mp noW
    obtain ⟨hsp, aReg⟩ := Bool.or_eq_false_iff.mp noReg
    obtain ⟨q, hq, h⟩ := andThen_eq_next.mp h
    have other : sp ≠ .reg := by rintro rfl; cases hsp
    exact andThen_eq_next.mpr ⟨_, iha hq aW aReg, loadFrom_setW w' other h⟩
  | decodeImm t a iha | imm k a iha =>
    obtain ⟨-, aW⟩ := Bool.or_eq_false_iff.mp noW
    obtain ⟨-, aReg⟩ := Bool.or_eq_false_iff.mp noReg
    obtain ⟨q, hq, h⟩ := andThen_eq_next.mp h
    obtain ⟨v, hv, h⟩ := andThen_eq_next.mp h
    obtain rfl := Host.Outcome.next.inj h
    rw [eval, iha hq aW aReg, andThen_next]
    exact andThen_eq_next.mpr ⟨v, hv, rfl⟩

/-- The same progress with another `W`. -/
def Progress.withW (p : Progress) (w' : Val 16) : Progress := { p with state := p.state.setW w' }

theorem storeMem_withW {p q : Progress} {addr v : Val 16} (w' : Val 16) (h : p.storeMem addr v = .next q) :
    (p.withW w').storeMem addr v = .next (q.withW w') := by
  obtain ⟨hp, rfl⟩ := storeMem_eq_next.mp h
  refine storeMem_eq_next.mpr ?_
  simp only [Progress.withW, State.force_setW, State.populated_setW, State.afterForce_setW]
  exact ⟨hp, rfl⟩

/-- An assignment to neither `W` nor a register is the same under another `W`. -/
theorem assign_withW {insn : Word} {p q : Progress} {pl : Place} {n : Nat} {v : Val n} {e : Expr} (w' : Val 16)
    (hpl : isAssignW (.assign pl e) = false) (hreg : isStoreReg (.assign pl e) = false)
    (addrW : pl.any isReadW = false)
    (addrReg : pl.any isLoadReg = false) (h : p.assign insn pl v = .next q) :
    (p.withW w').assign insn pl v = .next (q.withW w') := by
  cases pl with
  | w => cases hpl
  | pc | temp => obtain rfl := Host.Outcome.next.inj h; rfl
  | flag f =>
    obtain rfl := Host.Outcome.next.inj h
    simp only [Progress.assign, Progress.withW, State.setFlag_setW]
  | store sp a =>
    obtain ⟨r, hr, h⟩ := andThen_eq_next.mp h
    refine andThen_eq_next.mpr ⟨_, eval_setW w' ⟨addrW, addrReg⟩ hr, ?_⟩
    cases sp with
    | mem => exact storeMem_withW w' h
    | ext =>
      obtain rfl := Host.Outcome.next.inj h
      simp only [Progress.withW, extWrite_setW]
    | reg => cases hreg

/-- An operation that neither names `W` nor a register does the same under another `W`. -/
theorem perform_withW {insn : Word} {op : Operation} {p q : Progress} (w' : Val 16)
    (noW : op.Avoids isReadW isAssignW)
    (noReg : op.Avoids isLoadReg isStoreReg) (h : perform insn op p = .next q) :
    perform insn op (p.withW w') = .next (q.withW w') := by
  induction op generalizing p q with
  | skip => obtain rfl := Host.Outcome.next.inj h; rfl
  | assign pl e =>
    obtain ⟨plW, eW, targetW⟩ := noW.assign
    obtain ⟨plReg, eReg, targetReg⟩ := noReg.assign
    obtain ⟨r, hr, h⟩ := andThen_eq_next.mp h
    exact andThen_eq_next.mpr
      ⟨_, eval_setW w' ⟨eW, eReg⟩ hr, assign_withW w' targetW targetReg plW plReg h⟩
  | seq a b iha ihb =>
    obtain ⟨aW, bW⟩ := noW.seq
    obtain ⟨aReg, bReg⟩ := noReg.seq
    obtain ⟨r, hr, h⟩ := andThen_eq_next.mp h
    exact andThen_eq_next.mpr ⟨_, iha aW aReg hr, ihb bW bReg h⟩
  | ite c a b iha ihb =>
    obtain ⟨cW, aW, bW⟩ := noW.ite
    obtain ⟨cReg, aReg, bReg⟩ := noReg.ite
    obtain ⟨r, hr, h⟩ := andThen_eq_next.mp h
    refine andThen_eq_next.mpr ⟨_, eval_setW w' ⟨cW, cReg⟩ hr, ?_⟩
    simp only [State.force_setW, State.afterForce_setW]
    split at h
    · next spoiled =>
      obtain rfl := Host.Outcome.next.inj h
      rw [if_pos spoiled]
      rfl
    next chosen =>
    rw [if_neg chosen]
    split at h
    · next yes => rw [if_pos yes]; exact iha aW aReg h
    · next no => rw [if_neg no]; exact ihb bW bReg h
  | arithmeticFlags a b c =>
    obtain ⟨aW, bW, cW⟩ := noW.arithmeticFlags
    obtain ⟨aReg, bReg, cReg⟩ := noReg.arithmeticFlags
    obtain ⟨x, hx, h⟩ := andThen_eq_next.mp h
    obtain ⟨y, hy, h⟩ := andThen_eq_next.mp h
    obtain ⟨z, hz, h⟩ := andThen_eq_next.mp h
    obtain rfl := Host.Outcome.next.inj h
    exact perform_arithmeticFlags (p := p.withW w') (eval_setW w' ⟨aW, aReg⟩ hx) (eval_setW w' ⟨bW, bReg⟩ hy)
      (eval_setW w' ⟨cW, cReg⟩ hz)
  | logicalFlags e =>
    obtain ⟨r, hr, h⟩ := andThen_eq_next.mp h
    obtain rfl := Host.Outcome.next.inj h
    exact andThen_eq_next.mpr
      ⟨_, eval_setW w' ⟨noW.logicalFlags, noReg.logicalFlags⟩ hr, rfl⟩

theorem begin_setW (insn : Word) (op : Operation) (s : State) (w' : Val 16) :
    Progress.begin insn op (s.setW w') = (Progress.begin insn op s).withW w' := by
  have drawn : (s.setW w').undefinedFlags = s.undefinedFlags := by simp only [State.undefinedFlags, State.flag_setW]
  unfold Progress.begin
  split
  · rw [drawn, State.drawFlags_setW]; rfl
  · rfl

theorem restore_withW (p : Progress) (w' : Val 16) : (p.withW w').restore = p.restore.withW w' := by
  have key : ∀ (l : List Flag) (s : State), l.foldl (fun s f => s.setFlag f .undefined) (s.setW w') =
      (l.foldl (fun s f => s.setFlag f .undefined) s).setW w' := by
    intro l
    induction l with
    | nil => intro s; rfl
    | cons f l ih => intro s; rw [List.foldl_cons, List.foldl_cons, State.setFlag_setW, ih]
  simp only [Progress.restore, Progress.withW, key]

end Sys2Proof.Machine

namespace Sys2Proof.Proofs

open Sys2Proof Sys2Proof.Machine Sys2Proof.Claims

/-- Settles O7: the answers that an operation without `decode_imm_al` can give. -/
theorem windowInstructionsGoOnOrAreStuck : Obligations.WindowInstructionsGoOnOrAreStuck := by
  intro form hform insn op s lawful
  rw [exec_windowForm hform]
  exact runOperation_of_windowLawful insn s lawful

/-- Settles O6: there is no address to be stuck at, and the frame of the instruction says the rest. -/
theorem windowInstructionsComplete : Obligations.WindowInstructionsComplete := by
  intro form hform insn op s lawful memory
  rw [exec_windowForm hform]
  obtain ⟨t, run⟩ | ⟨a, -, noMemory⟩ := runOperation_of_windowLawful insn s lawful
  · have R := runOperation_frame run
    exact ⟨t, run, R.flag, R.hasExt13, R.ext13, R.params, R.pc⟩
  · cases (populated_of_unpopulated_nil memory a).symm.trans noMemory

/-- Settles O8: what whole operations preserve (O23), the registers by their words, and the bus record by the operation's
own frame. -/
theorem windowInstructionFrame : Obligations.WindowInstructionFrame := by
  intro form hform insn op s t p _ hp h
  rw [exec_windowForm hform] at h
  obtain ⟨w, flags, mem, words⟩ := unassignedRegistersArePreserved insn op s t p hp h
  have R := runOperation_frame h
  exact ⟨words, mem, flags, w, fun noW n a addr unstored => reg_congr (w noW) addr (words a unstored), R.log,
    fun noBus => runOperation_extLog noBus h, R.params⟩

/-- Settles O9: the next state is the state after reading `e`, with `W` set. -/
theorem settingWMovesEveryRegisterAndNoWord : Obligations.SettingWMovesEveryRegisterAndNoWord := by
  intro form hform insn e s s₁ v h
  rw [exec_windowForm hform]
  have run : runOperation insn (.assign .w e) s = .next (retired (s₁.setW (v.resize 16))) := by
    rw [runOperation_eq_of_assignsPc rfl, Operation.under, perform_assign_w (p := Progress.start s) h rfl]
    rfl
  have R := runOperation_frame run
  have words : ∀ a, (retired (s₁.setW (v.resize 16))).word a = s.word a := (eval_readsOnly h).word
  have window {w'} (hv : v.resize 16 = w') : (retired (s₁.setW (v.resize 16))).w = w' := hv
  exact ⟨_, run, rfl, words, fun w' hv n => (reg_of_known (window hv) n).trans (words _),
    fun hv => reg_of_undefined (window hv), R.pc rfl, R.sameFlags fun _ => rfl, R.hasExt13, R.ext13⟩

/-- Settles O10: the operation is the store of `W` at `W + n`, which goes on where there is memory and is stuck
elsewhere. -/
theorem readingWIntoARegister : Obligations.ReadingWIntoARegister := by
  intro form hform insn e s s₁ v w₀ n h hn hw
  rw [exec_windowForm hform]
  have reads := eval_readsOnly h
  have hw₁ : s₁.w = .known w₀ := reads.w.trans hw
  have value : (readSource insn s .w).resize 16 = .known w₀ := (congrArg (Val.resize 16) hw).trans (Val.resize_self _)
  have store := perform_storeReg (p := Progress.start s) (e := .read .w) (insn := insn) rfl value h hn hw₁
  have begins : runOperation insn (.assign (.store .reg e) (.read .w)) s =
      andThen (Progress.storeMem { Progress.start s with state := s₁ } (.known (w₀ + n.setWidth 16)) (.known w₀))
        fun q => .next (retired q.state) := by
    rw [runOperation_eq_of_assignsPc rfl, Operation.under, store]
  refine ⟨fun memory => ?_, fun noMemory => ?_⟩
  · have run := begins
    rw [storeMem_of_populated _ ((reads.populated _).trans memory)] at run
    have R := runOperation_frame run
    have others {a} (ha : a ≠ w₀ + n.setWidth 16) := (retired_write_word_other s₁ (.known w₀) ha).trans (reads.word a)
    exact ⟨_, run, retired_write_word_same s₁ _ w₀, fun _ => others, hw₁, R.pc rfl, R.sameFlags fun _ => rfl⟩
  · rw [begins, storeMem_of_not_populated _ ((reads.populated _).trans noMemory)]
    rfl

/-- Settles O11: the store takes the address from `W` as it stands when its turn comes. -/
theorem orderOfAssignmentsDecidesTheWindow : Obligations.OrderOfAssignmentsDecidesTheWindow := by
  intro form hform insn s w₀ w₁ x n hw memory
  rw [exec_windowForm hform, exec_windowForm hform]
  have populated := populated_of_unpopulated_nil memory
  constructor
  · refine ⟨retired ((s.setW (.known w₁)).setMem (s.mem.write (w₁ + n.setWidth 16).toNat (.known x))), ?_, rfl,
      retired_write_word_same (s.setW _) _ x, fun a ha => retired_write_word_other (s.setW _) _ ha⟩
    rw [runOperation_eq_of_assignsPc rfl, Operation.under, Operation.under, Operation.under,
      perform_seq (perform_assign_w_const insn w₁ (Progress.start s)), perform_storeReg_word rfl (populated _)]
    rfl
  · refine ⟨retired ((s.setMem (s.mem.write (w₀ + n.setWidth 16).toNat (.known x))).setW (.known w₁)), ?_, rfl,
      retired_write_word_same s _ x, fun a ha => retired_write_word_other s (.known x) ha⟩
    rw [runOperation_eq_of_assignsPc rfl, Operation.under, Operation.under, Operation.under,
      perform_seq (perform_storeReg_word (p := Progress.start s) hw (populated _)), perform_assign_w_const]
    rfl

/-- Settles O13: beginning, performing, restoring and retiring each commute with putting another `W`. -/
theorem operationsThatNameNoRegisterIgnoreW : Obligations.OperationsThatNameNoRegisterIgnoreW := by
  intro insn op s t w' noW noReg h
  obtain ⟨p, hp, rfl⟩ := runOperation_eq_next.mp h
  obtain ⟨q, hq, hp⟩ := andThen_eq_next.mp hp
  obtain rfl := Host.Outcome.next.inj hp
  have run := perform_withW w' ((Operation.namesW_eq_false.mp noW).under (fun _ _ => rfl) (fun _ _ _ => rfl) _)
    ((Operation.usesRegisters_eq_false.mp noReg).under (fun _ _ => rfl) (fun _ _ _ => rfl) _) hq
  rw [← begin_setW] at run
  refine runOperation_eq_next.mpr ⟨_, andThen_eq_next.mpr ⟨_, run, rfl⟩, ?_⟩
  rw [restore_withW]
  exact (State.retire_setW ..).symm

end Sys2Proof.Proofs
end

section
/-!
PROOFS of the statements of 42_control_transfer.md: a jump on a condition, and flags that reach `PC`.
-/

namespace Sys2Proof

theorem Val.isUndefined_iff {n : Nat} {v : Val n} : v.isUndefined = true ↔ v = .undefined := by
  cases v <;> simp [Val.isUndefined]

/-- A choice whose one branch is a jump to a target that reads no flag, and whose other branch does nothing, lets no flag
reach `PC` but through the choice itself, with `has_ext13` as it may be. -/
theorem Operation.flagsReachPc_jump_under (insn : Word) (c : Expr) {e : Expr} (he : e.readsFlags = false) (h : BitVec 1) :
    ((Operation.ite c (.assign .pc e) .skip).under h).flagsReachPc insn = false := by
  unfold Operation.under
  split
  · split
    · exact flagsReachPc_assign_pc insn he
    · exact flagsReachPc_of_assignsPc rfl
  · simp only [Operation.under, Operation.flagsReachPc, FlagFlow.through, FlagFlow.assign, FlagFlow.join,
      FlagFlow.reaches_none _ he]
    split <;> rfl

end Sys2Proof

namespace Sys2Proof.Machine

open Sys2Proof.Claims

/-! ### Sequencing -/

theorem andThen_congr {α β : Type} {x : Result α} {f g : α → Result β} (h : ∀ a, f a = g a) :
    andThen x f = andThen x g :=
  congrArg (andThen x) (funext h)

/-- A part with nothing after it that could stop goes on exactly when it does by itself. -/
theorem andThen_next_eq_next {α β : Type} {x : Result α} {f : α → β} {b : β} :
    (andThen x fun a => .next (f a)) = .next b ↔ ∃ a, x = .next a ∧ b = f a := by
  cases x <;> simp [eq_comm]

/-! ### A jump on a condition -/

/-- An expression that `has_ext13` settles has that value, and reading it draws nothing. -/
theorem eval_of_valueUnder (insn : Word) (ts : Temporaries) {s : State} {e : Expr} {x : BitVec e.len}
    (h : e.valueUnder s.hasExt13 = some x) : eval insn ts e s = .next (.known x, s) := by
  induction e with
  | const n v => obtain rfl := Option.some.inj h; rfl
  | read r =>
    cases r with
    | hasExt13 => obtain rfl := Option.some.inj h; rfl
    | _ => cases h
  | un o a iha =>
    obtain ⟨y, hy, rfl⟩ := Option.map_eq_some_iff.mp h
    rw [eval, iha hy]
    rfl
  | bin o a b iha ihb =>
    unfold Expr.valueUnder at h
    split at h
    · next y z hy hz =>
      obtain rfl := Option.some.inj h
      exact eval_bin o (iha hy) (ihb hz)
    · cases h
  | undef | temp | load | decodeImm | imm => cases h

/-- A choice that does more than compute, with the choices on `has_ext13` settled, performs the branch that its condition,
forced to a bit, chooses: `has_ext13` settles it as its condition would. -/
theorem perform_under_ite {insn : Word} {c : Expr} {a b : Operation} {p : Progress} {s₁ : State} {v : Val c.len}
    (h : eval insn p.temps c p.state = .next (v, s₁))
    (impure : ((a.under p.state.hasExt13).isPure && (b.under p.state.hasExt13).isPure) = false) :
    perform insn ((Operation.ite c a b).under p.state.hasExt13) p =
      perform insn (if s₁.force (v.resize 1) = 1#1 then a.under p.state.hasExt13 else b.under p.state.hasExt13)
        { p with state := s₁.afterForce (v.resize 1) } := by
  rw [Operation.under]
  split
  · next x settled =>
    obtain ⟨rfl, rfl⟩ := Prod.mk.inj (Host.Outcome.next.inj ((eval_of_valueUnder insn p.temps settled).symm.trans h))
    rfl
  · exact perform_ite_branch _ _ h (by rw [Bool.and_assoc, impure, Bool.and_false])

section Jump

variable {insn : Word} {c e : Expr} {s s₁ : State} {v : Val c.len}

/-- A jump on a condition performs the branch that the condition chooses, on the state as it stands after the condition is
read. -/
theorem runOperation_jump (he : e.readsFlags = false) (h : eval insn [] c s = .next (v, s₁)) :
    runOperation insn (.ite c (.assign .pc e) .skip) s =
      andThen (perform insn (if s₁.force (v.resize 1) = 1#1 then .assign .pc e else .skip)
          (Progress.start (s₁.afterForce (v.resize 1))))
        fun q => .next (q.restore.state.retire q.pcAssigned) := by
  rw [runOperation, performInstruction, begin_of_flagsReachPc (Operation.flagsReachPc_jump_under insn c he _), andThen_assoc]
  exact congrArg (andThen · _) (perform_under_ite (p := Progress.start s) h rfl)

/-- Not taken, a jump does nothing but retire (42_control_transfer.md R116). -/
theorem runOperation_jump_not_taken (he : e.readsFlags = false) (h : eval insn [] c s = .next (v, s₁))
    (hb : s₁.force (v.resize 1) = 0#1) :
    runOperation insn (.ite c (.assign .pc e) .skip) s = .next (retired (s₁.afterForce (v.resize 1))) := by
  rw [runOperation_jump he h, hb, ← retire_default_eq_retired]
  rfl

/-- Taken, a jump puts the value of its target in `PC`, and retires (42_control_transfer.md R116, R117). -/
theorem runOperation_jump_taken (he : e.readsFlags = false) (h : eval insn [] c s = .next (v, s₁))
    (hb : s₁.force (v.resize 1) = 1#1) {u : Val e.len} {s₃ : State}
    (target : eval insn [] e (s₁.afterForce (v.resize 1)) = .next (u, s₃)) :
    runOperation insn (.ite c (.assign .pc e) .skip) s = .next { retired s₃ with pc := u.resize 16 } := by
  rw [runOperation_jump he h, hb, if_pos rfl, perform, Progress.start_temps, Progress.start_state, target]
  rfl

end Jump

/-- A value that decides something is the known value, or drawn: `b` and `t` are the value and the state after it. -/
theorem force_of_known_or_drawn {n : Nat} {v : Val n} {b : BitVec n} {s t : State}
    (h : (v = .known b ∧ t = s) ∨
      (v = .undefined ∧ b = Config.undefinedBits s.draws n ∧ t = { s with draws := s.draws + 1 })) :
    s.force v = b ∧ s.afterForce v = t := by
  obtain ⟨rfl, rfl⟩ | ⟨rfl, rfl, rfl⟩ := h <;> exact ⟨rfl, rfl⟩

/-- The whole next state of a jump on one flag to a fixed target (42_control_transfer.md R116, R119). -/
theorem runOperation_jumpIf (insn target : Word) (f : Flag) (s : State) :
    runOperation insn (jumpIf f target) s =
      .next { retired (s.afterForce (s.flag f)) with
        pc := if s.force (s.flag f) = 1#1 then .known target else advanced s.pc } := by
  have flag : eval insn [] (.read (.flag f)) s = .next (s.flag f, s) := rfl
  have bit : (s.flag f).resize 1 = s.flag f := Val.resize_self _
  obtain zero | one := BitVec.eq_zero_or_eq_one (s.force (s.flag f))
  · refine (runOperation_jump_not_taken rfl flag ((congrArg s.force bit).trans zero)).trans ?_
    rw [zero, if_neg (by decide), ← State.afterForce_pc s (s.flag f)]
    exact congrArg (fun x => Host.Outcome.next (retired (s.afterForce x))) bit
  · refine (runOperation_jump_taken rfl flag ((congrArg s.force bit).trans one) (e := .const 16 target) rfl).trans ?_
    rw [one, if_pos rfl, ← Val.resize_self (.known target)]
    exact congrArg (fun x => Host.Outcome.next { retired (s.afterForce x) with pc := (Val.known target).resize 16 }) bit

/-! ### Drawing the UNDEFINED flags -/

theorem State.mem_undefinedFlags {s : State} {f : Flag} : f ∈ s.undefinedFlags ↔ s.flag f = .undefined := by
  have all : f ∈ [Flag.z, Flag.s, Flag.c, Flag.v] := by cases f <;> decide
  rw [State.undefinedFlags, List.mem_filter, Val.isUndefined_iff, and_iff_right all]

theorem drawFlags_flag_isKnown (s : State) (f : Flag) : ∃ b, s.drawFlags.flag f = .known b := by
  simp only [State.drawFlags, List.foldl_cons, List.foldl_nil]
  cases f <;> simp only [drawFlag_flag, reduceCtorEq, if_false, if_true] <;> exact ⟨_, rfl⟩

/-- Where every flag is known there is nothing to draw. -/
theorem drawFlags_of_known {s : State} (h : ∀ f, ∃ b, s.flag f = .known b) : s.drawFlags = s := by
  have one : ∀ f, s.drawFlag f = s := by
    intro f
    obtain ⟨b, hb⟩ := h f
    rw [State.drawFlag, hb, State.afterForce_known, State.force_known, ← hb]
    cases f <;> rfl
  simp only [State.drawFlags, List.foldl_cons, List.foldl_nil, one]

theorem undefinedFlags_drawFlags (s : State) : s.drawFlags.undefinedFlags = [] := by
  refine List.eq_nil_iff_forall_not_mem.mpr fun f undefined => ?_
  obtain ⟨b, known⟩ := drawFlags_flag_isKnown s f
  cases known.symm.trans (State.mem_undefinedFlags.mp undefined)

/-! ### Operations do not see which flags were drawn -/

/-- The same progress with no flag noted as drawn. -/
def Progress.forgetDrawn (p : Progress) : Progress := { p with drawn := [] }

/-- With no flag noted as drawn there is nothing to restore. -/
theorem restore_forgetDrawn (p : Progress) : p.forgetDrawn.restore = p.forgetDrawn := rfl

theorem storeMem_forgetDrawn (p : Progress) (addr v : Val 16) :
    p.forgetDrawn.storeMem addr v = andThen (p.storeMem addr v) fun q => .next q.forgetDrawn := by
  unfold Progress.storeMem
  rw [andThen_assoc]
  rfl

theorem assign_forgetDrawn (insn : Word) (p : Progress) (pl : Place) {n : Nat} (v : Val n) :
    p.forgetDrawn.assign insn pl v = andThen (p.assign insn pl v) fun q => .next q.forgetDrawn := by
  cases pl with
  | pc | w | flag | temp => rfl
  | store sp a =>
    simp only [Progress.assign, andThen_assoc]
    refine andThen_congr fun r => ?_
    cases sp with
    | mem | reg => exact storeMem_forgetDrawn { p with state := r.2 } _ _
    | ext => rfl

/-- Performing an operation reads no note of the flags that were drawn. -/
theorem perform_forgetDrawn (insn : Word) (op : Operation) (p : Progress) :
    perform insn op p.forgetDrawn = andThen (perform insn op p) fun q => .next q.forgetDrawn := by
  induction op generalizing p with
  | skip => rfl
  | assign pl e =>
    rw [perform, perform, andThen_assoc]
    exact andThen_congr fun r => assign_forgetDrawn insn { p with state := r.2 } pl r.1
  | seq a b iha ihb =>
    rw [perform, perform, iha, andThen_assoc, andThen_assoc]
    exact andThen_congr ihb
  | ite c a b iha ihb =>
    rw [perform, perform, andThen_assoc]
    refine andThen_congr fun r => ?_
    split
    · rfl
    split
    · exact iha { p with state := r.2.afterForce (r.1.resize 1) }
    · exact ihb { p with state := r.2.afterForce (r.1.resize 1) }
  | arithmeticFlags a b c =>
    simp only [perform, andThen_assoc]
    rfl
  | logicalFlags e =>
    rw [perform, perform, andThen_assoc]
    rfl

/-- Where flags reach `PC`, an operation begins with the flags drawn as it does with the flags UNDEFINED, but that none is to be
restored. -/
theorem begin_drawFlags {insn : Word} {op : Operation} (h : op.flagsReachPc insn = true) (s : State) :
    Progress.begin insn op s.drawFlags = (Progress.begin insn op s).forgetDrawn := by
  rw [Progress.begin, Progress.begin, if_pos h, if_pos h, undefinedFlags_drawFlags,
    drawFlags_of_known (drawFlags_flag_isKnown s)]
  rfl

/-- What an instruction answers in the state with its UNDEFINED flags drawn, where flags reach `PC`: what its operation does in
the state itself, with nothing restored. -/
theorem runOperation_drawFlags_eq_next {insn : Word} {op : Operation} {s t' : State}
    (h : (op.under s.hasExt13).flagsReachPc insn = true) :
    runOperation insn op s.drawFlags = .next t' ↔
      ∃ q, perform insn (op.under s.hasExt13) (Progress.begin insn (op.under s.hasExt13) s) = .next q ∧
        t' = q.state.retire q.pcAssigned := by
  rw [runOperation, performInstruction, (drawFlags_differs s).hasExt13, begin_drawFlags h, perform_forgetDrawn,
    andThen_assoc, andThen_assoc]
  exact andThen_next_eq_next

/-- What an instruction answers: what its operation does, with the drawn flags restored and the instruction retired. -/
theorem runOperation_eq_next_perform {insn : Word} {op : Operation} {s t : State} :
    runOperation insn op s = .next t ↔
      ∃ q, perform insn (op.under s.hasExt13) (Progress.begin insn (op.under s.hasExt13) s) = .next q ∧
        t = q.restore.state.retire q.pcAssigned := by
  rw [runOperation, performInstruction, andThen_assoc]
  exact andThen_next_eq_next

theorem restore_draws (p : Progress) : p.restore.state.draws = p.state.draws := by
  have key : ∀ (l : List Flag) (s : State), (l.foldl (fun s f => s.setFlag f .undefined) s).draws = s.draws := by
    intro l
    induction l with
    | nil => intro s; rfl
    | cons f l ih => intro s; rw [List.foldl_cons, ih, State.setFlag_draws]
  exact key p.drawn p.state

/-- Restoring before the instruction retires changes nothing but flags. -/
theorem retire_restore (q : Progress) (b : Bool) :
    q.restore.state.retire b = { q.state.retire b with
      flagZ := q.restore.state.flagZ, flagS := q.restore.state.flagS
      flagC := q.restore.state.flagC, flagV := q.restore.state.flagV } := by
  have same := restore_differs q
  unfold DiffersInFlags at same
  rw [restore_draws] at same
  rw [same]
  cases b <;> rfl

/-- An operation has drawn no flag but such as were UNDEFINED when it began. -/
theorem undefined_of_mem_drawn {insn : Word} {op : Operation} {s : State} {q : Progress}
    (h : perform insn op (Progress.begin insn op s) = .next q) {f : Flag} (hf : f ∈ q.drawn) : s.flag f = .undefined := by
  have begun := ((perform_frame h).drawn f).1 hf
  unfold Progress.begin at begun
  split at begun
  · exact State.mem_undefinedFlags.mp begun
  · cases begun

/-- An instruction ends as its operation does with the drawn flags left as they were drawn, but for those flags. -/
theorem goesAs_of_perform {insn : Word} {op : Operation} {s : State} {q : Progress}
    (h : perform insn (op.under s.hasExt13) (Progress.begin insn (op.under s.hasExt13) s) = .next q) :
    GoesAs op s (q.restore.state.retire q.pcAssigned) (q.state.retire q.pcAssigned) := by
  have R := runOperation_frame (runOperation_eq_next_perform.mpr ⟨q, h, rfl⟩)
  refine ⟨?_, fun f => ⟨?_, R.flag f⟩⟩
  · simpa only [State.retire_flagZ, State.retire_flagS, State.retire_flagC, State.retire_flagV] using
      retire_restore q q.pcAssigned
  · rw [(retire_keeps _ _).1, (retire_keeps _ _).1, restore_flag]
    split
    · next drawn => exact .inr ⟨undefined_of_mem_drawn h drawn, rfl⟩
    · exact .inl rfl

end Sys2Proof.Machine

namespace Sys2Proof.Proofs

open Sys2Proof Sys2Proof.Machine Sys2Proof.Claims

/-- Settles O48: both runs perform the operation from the same drawn flags, and only one of them restores them. -/
theorem flagsThatReachThePcAreDrawnOnce : Obligations.FlagsThatReachThePcAreDrawnOnce := by
  refine ⟨fun insn op s reach => ⟨fun t h => ?_, fun t' h => ?_⟩, fun s => ⟨drawFlags_flag_isKnown s, fun _ _ =>
    drawFlags_flag_known, drawFlags_differs s⟩⟩
  · obtain ⟨q, hq, rfl⟩ := runOperation_eq_next_perform.mp h
    exact ⟨_, (runOperation_drawFlags_eq_next reach).mpr ⟨q, hq, rfl⟩, goesAs_of_perform hq⟩
  · obtain ⟨q, hq, rfl⟩ := (runOperation_drawFlags_eq_next reach).mp h
    exact ⟨_, runOperation_eq_next_perform.mpr ⟨q, hq, rfl⟩, goesAs_of_perform hq⟩

/-- Settles O47: the two ways of a jump, of which the condition decides; on one flag the reads change nothing but the
draws. -/
theorem conditionalJumpFollowsTheFlag : Obligations.ConditionalJumpFollowsTheFlag := by
  constructor
  · intro insn c e s s₁ v he h b s₂ hb
    obtain ⟨bit, rfl⟩ := force_of_known_or_drawn hb
    refine ⟨fun zero => ?_, fun u s₃ one target => ?_⟩
    · have reads := (eval_readsOnly h).trans (readsOnly_afterForce s₁ (v.resize 1))
      exact ⟨_, runOperation_jump_not_taken he h (bit.trans zero), rfl, congrArg advanced reads.pc⟩
    · exact ⟨_, runOperation_jump_taken he h (bit.trans one) target, rfl, rfl⟩
  · intro insn target f s
    refine ⟨_, runOperation_jumpIf insn target f s, ?one, ?zero, ?undefined, ?flags, State.afterForce_mem ..,
      State.afterForce_w .., rfl⟩
    case one => intro known; simp [known]
    case zero => intro known; simp [known]
    case undefined => intro undefined; simp +contextual [undefined]
    case flags =>
      exact ⟨State.afterForce_flagZ .., State.afterForce_flagS .., State.afterForce_flagC .., State.afterForce_flagV ..⟩

end Sys2Proof.Proofs
end

section
/-!
PROOFS of the statements of 43_extended_immediate.md: the whole effect of `EXTI`, and the immediate that follows it.
-/

namespace Sys2Proof.Machine

open Sys2Proof.Claims

/-- The whole effect of an `EXTI`, as an instruction that is executed (43_extended_immediate.md R123). -/
theorem exec_exti_eq_next {imm13 : BitVec 13} {s t : State} :
    exec (.exti imm13) s = .next t ↔ t = { s with pc := advanced s.pc, ext13 := .known imm13, hasExt13 := 1#1 } :=
  execExti_eq_next

/-- A known `ext13` stands above the low three bits of a known field, both raw (30_encoding.md R73). -/
theorem extendedImm_known {n : Nat} (field : BitVec n) {s : State} {hi : BitVec 13} (h : s.ext13 = .known hi) :
    extendedImm (.known field) s = .known (hi ++ field.setWidth 3) := by
  rw [extendedImm, h, Val.resize_known]
  rfl

/-- The high 13 bits of a word and its low three make up the word. -/
theorem high13_append_low3 (k : Word) : k.extractLsb' 3 13 ++ k.setWidth 3 = k :=
  calc k.extractLsb' 3 13 ++ k.setWidth 3
      = k.extractLsb' 3 13 ++ k.extractLsb' 0 3 := by rw [BitVec.setWidth_eq_extractLsb' (by decide)]
    _ = k := BitVec.extractLsb'_append_extractLsb' (w := 13) (len := 3)

end Sys2Proof.Machine

namespace Sys2Proof.Proofs

open Sys2Proof Sys2Proof.Machine Sys2Proof.Claims

/-- Settles O2: the whole next state of an `EXTI`. -/
theorem extiChangesNothingElse : Obligations.ExtiChangesNothingElse :=
  fun _ _ => exec_exti_eq_next.mpr rfl

/-- Settles O3: what the second `EXTI` leaves of the state that the first has left. -/
theorem secondExtiOverwritesTheFirst : Obligations.SecondExtiOverwritesTheFirst := by
  intro first second s t hfirst
  obtain rfl := exec_exti_eq_next.mp hfirst
  exact exec_exti_eq_next.mpr rfl

/-- Settles O4: after the `EXTI` the immediate is the extended one, whose two parts make up `k`. -/
theorem extendedImmediateReachesEveryConstant : Obligations.ExtendedImmediateReachesEveryConstant := by
  intro k s t kind n field hexti hlow
  obtain rfl := exec_exti_eq_next.mp hexti
  rw [immediate_extended kind _ rfl, extendedImm_known field rfl, hlow, high13_append_low3]

end Sys2Proof.Proofs
end
